-- ==== Sys2Proof/Word.lean ====
section
/-! DEFINITION. The Word: the unit of memory and of register state, an integer of sign and eight
decimal digits (spec/00_scope.md R5, R7; spec/10_state.md R20). -/

namespace Sys2Proof

/-- `RADIX`, fixed 10 (00_scope R5; 90_conflicts C1: the prose's decimal wins). -/
abbrev Config.radix : Nat := 10

/-- `DIGITS`, digits of a Word's magnitude, fixed 8 (00_scope R5). -/
abbrev Config.digits : Nat := 8

/-- `WMOD = RADIX ^ DIGITS` (00_scope R5). -/
abbrev Config.wmod : Nat := Config.radix ^ Config.digits

/-- `WMAX = WMOD - 1`, the largest magnitude of a Word (00_scope R5). -/
abbrev Config.wmax : Nat := Config.wmod - 1

/-- `v` is in the range of a Word, `-WMAX <= v <= WMAX` (10_state R20). -/
abbrev Word.InRange (v : Int) : Prop := -(Config.wmax : Int) ≤ v ∧ v ≤ (Config.wmax : Int)

/-- A magnitude of at most `WMAX` with the sign of any integer is in range. -/
theorem Word.inRange_sign_mul (v : Int) (n : Nat) (h : n ≤ Config.wmax) :
    Word.InRange (v.sign * (n : Int)) := by
  have h' : (n : Int) ≤ (Config.wmax : Int) := Int.ofNat_le.mpr h
  unfold Word.InRange
  generalize (Config.wmax : Int) = m at h' ⊢
  rcases lt_trichotomy v 0 with hv | hv | hv
  · rw [Int.sign_eq_neg_one_of_neg hv]; omega
  · subst hv; simp only [Int.sign_zero, zero_mul]; omega
  · rw [Int.sign_eq_one_of_pos hv]; omega

/-- A Word (10_state R20): an integer in `-WMAX..+WMAX`. There is one zero, so the pattern
"minus, all digits 0" does not exist, and no value out of range can be built. -/
structure Word where
  /-- The integer the Word is. -/
  val : Int
  /-- It is in range. -/
  inRange : Word.InRange val
deriving DecidableEq, Repr

/-- The Word `v`, where `v` is in range. -/
def Word.of (v : Int) (h : Word.InRange v := by decide) : Word := ⟨v, h⟩

/-- The Word `v`, if `v` is one. -/
def Word.ofInt? (v : Int) : Option Word := if h : Word.InRange v then some ⟨v, h⟩ else none

/-- `+00000000`. -/
def Word.zero : Word := Word.of 0

/-- `|w|`, the magnitude (00_scope R7). -/
def Word.mag (w : Word) : Nat := w.val.natAbs

/-- The magnitude of a Word is at most `WMAX`. -/
theorem Word.mag_le (w : Word) : w.mag ≤ Config.wmax := by
  have h := w.inRange
  unfold Word.InRange at h
  unfold Word.mag
  generalize Config.wmax = m at h ⊢
  omega

end Sys2Proof
end

