-- ==== Sys2Proof/Syntax.lean ====
section
/-! DEFINITION. The instructions of the reference set DIGIAC-REF, version spec-1: one constructor per
row of spec/opcode_table.json (spec/30_encoding.md R78). -/

namespace Sys2Proof

/-- An instruction with its `ADDR` field, a natural number `0..9999` (30_encoding R71, R73):
a memory address, a jump target, a slot number, or digits the operation ignores (R80). The
ignored digits are kept, so that no digit of a Word is lost by decoding it (log 15). -/
inductive Instr where
  /-- `+0000xxxx` halt (41_control R140). -/
  | hlt (ignored : Nat)
  /-- `+0100xxxx` no operation (41_control R141). -/
  | nop (ignored : Nat)
  /-- `+1000aaaa` load `A` (42_load_store R150). -/
  | lda (addr : Nat)
  /-- `+1100aaaa` load `B` (42_load_store R151). -/
  | ldb (addr : Nat)
  /-- `+1200aaaa` store `A` (42_load_store R152). -/
  | sta (addr : Nat)
  /-- `+1300aaaa` store `B` (42_load_store R153). -/
  | stb (addr : Nat)
  /-- `+1400xxxx` exchange `A` and `B` (42_load_store R154). -/
  | xab (ignored : Nat)
  /-- `+2000aaaa` add memory to `A` (43_arithmetic R164). -/
  | add (addr : Nat)
  /-- `+2100aaaa` subtract memory from `A` (43_arithmetic R165). -/
  | sub (addr : Nat)
  /-- `+2200aaaa` multiply `A` by memory into `A:B` (43_arithmetic R166). -/
  | mul (addr : Nat)
  /-- `+3000aaaa` jump (41_control R142). -/
  | jmp (target : Nat)
  /-- `+3100aaaa` jump if `A` is zero (41_control R143). -/
  | jaz (target : Nat)
  /-- `+3200aaaa` jump if `A` is negative (41_control R144). -/
  | jan (target : Nat)
  /-- `+5000ssss` read a Word from a device into `A` (44_io R185). -/
  | inp (slot : Nat)
  /-- `+5100ssss` write `A` to a device (44_io R186). -/
  | out (slot : Nat)
  /-- `+5475aaaa` print packed characters from memory (44_io R187). -/
  | prt (addr : Nat)
deriving DecidableEq, Repr

/-- The operations of the reference set (30_encoding R78). -/
inductive Operation where
  | hlt | nop | lda | ldb | sta | stb | xab | add | sub | mul | jmp | jaz | jan | inp | out | prt
deriving DecidableEq, Repr

/-- The operation of an instruction. -/
def Instr.operation : Instr → Operation
  | .hlt _ => .hlt | .nop _ => .nop
  | .lda _ => .lda | .ldb _ => .ldb | .sta _ => .sta | .stb _ => .stb | .xab _ => .xab
  | .add _ => .add | .sub _ => .sub | .mul _ => .mul
  | .jmp _ => .jmp | .jaz _ => .jaz | .jan _ => .jan
  | .inp _ => .inp | .out _ => .out | .prt _ => .prt

/-- The `ADDR` field of an instruction. -/
def Instr.addr : Instr → Nat
  | .hlt a => a | .nop a => a
  | .lda a => a | .ldb a => a | .sta a => a | .stb a => a | .xab a => a
  | .add a => a | .sub a => a | .mul a => a
  | .jmp a => a | .jaz a => a | .jan a => a
  | .inp a => a | .out a => a | .prt a => a

/-- The instruction of an operation with the field `ADDR`. -/
def Operation.instr : Operation → Nat → Instr
  | .hlt => .hlt | .nop => .nop
  | .lda => .lda | .ldb => .ldb | .sta => .sta | .stb => .stb | .xab => .xab
  | .add => .add | .sub => .sub | .mul => .mul
  | .jmp => .jmp | .jaz => .jaz | .jan => .jan
  | .inp => .inp | .out => .out | .prt => .prt

end Sys2Proof
end

