-- ==== Sys2Proof/Config.lean ====
section
/-! DEFINITION. The parameters of the block (spec/00_scope.md R5, R6) and the free values: what
comes from outside the block and nothing in the spec fixes. -/

namespace Sys2Proof

namespace Config

/-- `OP_DIGITS` (00_scope R5). -/
abbrev opDigits : Nat := 2

/-- `MOD_DIGITS` (00_scope R5). -/
abbrev modDigits : Nat := 2

/-- `ADDR_DIGITS` (00_scope R5). -/
abbrev addrDigits : Nat := 4

/-- `AMOD = RADIX ^ ADDR_DIGITS` (00_scope R5): one more than the largest address a field names. -/
abbrev amod : Nat := radix ^ addrDigits

/-- `NSLOTS` of the reference configuration: console, tape-reader, tape-punch (44_io R180). -/
abbrev nslots : Nat := 3

/-- `CONSOLE`, the slot the print operation writes (00_scope R5; 44_io R180). -/
abbrev console : Nat := 0

/-- `CHAR_DIGITS`, digits of a packed character code (00_scope R5; 44_io R189). -/
abbrev charDigits : Nat := 2

/-- `END_CODE`, the character code that ends a print (00_scope R5; 44_io R187). -/
abbrev endCode : Nat := 37

/-- The reference value of `MEM_WORDS` (00_scope R5). -/
abbrev refMemWords : Nat := 4096

/-- FREE VALUE (log 10). The answer of the endpoint of slot `slot` to a `DevRead` that its script
does not hold, when `n` device operations have been performed: any Word, or `none` for `fail`
(44_io R181; 93_implementation_defined V1). -/
opaque drawRead (slot n : Nat) : Option Word

/-- FREE VALUE (log 10). The answer of the endpoint of slot `slot` to a `DevWrite` or
`DevWriteChar` that its script does not hold, when `n` device operations have been performed: `true`
for `ok`, `false` for `fail` (44_io R182, R183; 93_implementation_defined V2). -/
opaque drawWrite (slot n : Nat) : Bool

/-- FREE VALUE (log 12). The glyph, if any, of a character code that the source does not pin
(44_io R188; 93_implementation_defined U5, E8). -/
opaque unpinnedGlyph (code : Nat) : Option Char

end Config

/-- `OVF_POLICY` (00_scope R5; 43_arithmetic R161). -/
inductive OvfPolicy where
  /-- `WRAP`: drop the carry out of the leading digit (43_arithmetic R162). -/
  | wrap
  /-- `SATURATE`: stick at the largest magnitude (43_arithmetic R163). -/
  | saturate
deriving DecidableEq, Repr

/-- The operation a pair `(OP, MOD)` selects, reference or not (30_encoding R74, R75; log 4). -/
inductive Entry where
  /-- An operation of the reference set. -/
  | ref (operation : Operation)
  /-- Another operation, number `n`, with the mark *is the halt operation* or not. What it does is
  `Config.otherOperation n`. -/
  | other (n : Nat) (halt : Bool)
deriving DecidableEq, Repr

/-- The mark *is the halt operation* (30_encoding R75; 40_dispatch_fsm R111). -/
def Entry.isHalt : Entry → Bool
  | .ref .hlt => true
  | .ref _ => false
  | .other _ halt => halt

/-- The entry can be of a print-class operation that falls through (30_encoding R76 (b)): `PRT`, or
an operation outside the reference set that is not the halt operation. That it prints is
`Machine.runsExample`. -/
def Entry.canPrint : Entry → Bool
  | .ref .prt => true
  | .ref _ => false
  | .other _ halt => !halt

/-- One entry of `OPTABLE`: the pair `(OP, MOD)` and what it selects (30_encoding R74). -/
structure OpRow where
  op : Nat
  mod : Nat
  entry : Entry
deriving DecidableEq, Repr

/-- The faults an operation may yield (30_encoding R75). -/
inductive OpFault where
  | address | device
deriving DecidableEq, Repr, Inhabited

/-- The result an operation may yield (30_encoding R75). Its numbers are integers, which `ovf` brings
into Word range where the FSM takes them (43_arithmetic R161). -/
structure OpResult where
  /-- The new `A`. -/
  a : Int
  /-- The new `B`. -/
  b : Int
  /-- The `MemWrite`, address and value, if there is one. -/
  store : Option (Nat × Int)
  /-- The jump target, if it sets one: what a `PC` can be set to (10_state R24, R25). -/
  target : Option (Fin Config.amod)
deriving DecidableEq, Repr

/-- What an operation does from here on, under the contract of 30_encoding R75: a tree of memory reads
and device operations, each with what follows on each answer, whose leaves are a fault or a result.
It has no way to the rest of the block, and it is finite. -/
inductive OpAct where
  | fault (kind : OpFault)
  | finish (result : OpResult)
  | memRead (addr : Nat) (next : Word → OpAct)
  | devBound (slot : Nat) (next : Bool → OpAct)
  | devRead (slot : Nat) (next : Option Word → OpAct)
  | devWrite (slot : Nat) (v : Int) (next : Bool → OpAct)
  | devWriteChar (slot : Nat) (code : Fin (Config.radix ^ Config.charDigits)) (next : Bool → OpAct)
deriving Inhabited

/-- FREE VALUE (log 4). The operation number `n` outside the reference set, a function of `A`, `B`,
`PC` and `ADDR` (30_encoding R75), under the overflow policy the machine has. `OPTABLE` is OPEN, so it is
any such operation (00_scope R5; 43_arithmetic R168). -/
opaque Config.otherOperation (n : Nat) (policy : OvfPolicy) (a b : Word) (pc addr : Nat) : OpAct

/-- The OPEN parameters that the block's own rules read, fixed for the life of the machine
(00_scope R5; log 3). -/
structure Params where
  /-- `MEM_WORDS`, the number `N` of Words of memory. -/
  memWords : Nat
  /-- `OVF_POLICY`. -/
  ovf : OvfPolicy
  /-- `OPTABLE`, a partial map given by its entries. -/
  optable : List OpRow
deriving DecidableEq, Repr

end Sys2Proof
end

