-- ==== Sys2Proof/WellFormed.lean ====
section
/-! DEFINITION. What a well-formed instruction, operation table and parameter choice are
(spec/00_scope.md R5, R6; spec/30_encoding.md R71, R73, R74). -/

namespace Sys2Proof

/-- The `ADDR` field of an instruction is four digits, `0000..9999` (30_encoding R71). -/
abbrev Instr.WellFormed (i : Instr) : Prop := i.addr < Config.amod

/-- The `OP` and `MOD` of an entry are two digits each (30_encoding R71). -/
abbrev OpRow.WellFormed (r : OpRow) : Prop :=
  r.op < Config.radix ^ Config.opDigits ∧ r.mod < Config.radix ^ Config.modDigits

/-- The entries of a table give a partial map from `(OP, MOD)`: every key in range, no key twice
(30_encoding R74). -/
abbrev OpTable.WellFormed (t : List OpRow) : Prop :=
  (∀ r ∈ t, r.WellFormed) ∧ t.Pairwise (fun r q => ¬ (r.op = q.op ∧ r.mod = q.mod))

/-- The two pinned rows of a table (30_encoding R76; 92_eei_decisions D5): `(00, 00)` is the halt
operation, and `(54, 75)` can be print-class. This is what the entries alone show; what the two rows do
in the example is `Machine.runsExample`, and a legal choice of parameters has both
(`Machine.Params.Legal`). -/
abbrev OpTable.Pinned (t : List OpRow) : Prop :=
  (t.any fun r => r.op == 0 && r.mod == 0 && r.entry.isHalt) = true ∧
  (t.any fun r => r.op == 54 && r.mod == 75 && r.entry.canPrint) = true

/-- Exactly one entry is the halt operation: what a table should have (30_encoding R75). It is advice
and no constraint, since a table that ignores `MOD` has 100 entries for an operation (R74). -/
abbrev OpTable.OneHalt (t : List OpRow) : Prop :=
  (t.filter fun r => r.entry.isHalt).length = 1

/-- The constraints on the OPEN parameters: `1 <= MEM_WORDS <= AMOD`, and `OPTABLE` is a partial map
with the two pinned rows (00_scope R5, R6; 92_eei_decisions D5). -/
abbrev Params.WellFormed (p : Params) : Prop :=
  (1 ≤ p.memWords ∧ p.memWords ≤ Config.amod) ∧ OpTable.WellFormed p.optable ∧
  OpTable.Pinned p.optable

end Sys2Proof
end

