-- ==== Sys2Proof/Decode.lean ====
section
/-! DEFINITION. The decoder, total on every Word and rejecting by name, the reference operation
table, and the encoder written from the same table (spec/30_encoding.md). -/

namespace Sys2Proof

/-- `digits(w)[hi:lo]` for `hi >= lo`: the digits from `hi` down to `lo` of the magnitude, read as one
decimal number (00_scope R7). -/
def digitField (w : Word) (hi lo : Nat) : Nat :=
  w.mag / Config.radix ^ lo % Config.radix ^ (hi - lo + 1)

/-- The field `OP`, digits 7..6 (30_encoding R71). -/
def opField (w : Word) : Nat := digitField w 7 6

/-- The field `MOD`, digits 5..4 (30_encoding R71). -/
def modField (w : Word) : Nat := digitField w 5 4

/-- The field `ADDR`, digits 3..0 (30_encoding R71). -/
def addrField (w : Word) : Nat := digitField w 3 0

/-- The reference `OPTABLE`: sixteen rows (30_encoding R78). -/
def refTable : List OpRow :=
  [⟨00, 00, .ref .hlt⟩, ⟨01, 00, .ref .nop⟩,
   ⟨10, 00, .ref .lda⟩, ⟨11, 00, .ref .ldb⟩, ⟨12, 00, .ref .sta⟩, ⟨13, 00, .ref .stb⟩, ⟨14, 00, .ref .xab⟩,
   ⟨20, 00, .ref .add⟩, ⟨21, 00, .ref .sub⟩, ⟨22, 00, .ref .mul⟩,
   ⟨30, 00, .ref .jmp⟩, ⟨31, 00, .ref .jaz⟩, ⟨32, 00, .ref .jan⟩,
   ⟨50, 00, .ref .inp⟩, ⟨51, 00, .ref .out⟩, ⟨54, 75, .ref .prt⟩]

/-- The parameters at their reference values (00_scope R5). -/
def refParams : Params :=
  { memWords := Config.refMemWords, ovf := .wrap, optable := refTable }

/-- `OPTABLE(op, mod)`, or `none` where the table has no entry (30_encoding R74). -/
def lookupOp (table : List OpRow) (op mod : Nat) : Option Entry :=
  (table.find? fun r => r.op == op && r.mod == mod).map (·.entry)

/-- Why a Word does not decode. Either one is a `DecodeFault` (30_encoding R74). -/
inductive DecodeReject where
  /-- The Word is negative (30_encoding R72). -/
  | negative
  /-- The table has no entry for this pair (30_encoding R74, R79). -/
  | noEntry (op mod : Nat)
deriving DecidableEq, Repr

/-- What decoding a Word gives. -/
inductive Decoded where
  | instr (i : Instr)
  /-- An operation outside the reference set, with its mark and the field `ADDR` (log 4). -/
  | other (n : Nat) (halt : Bool) (addr : Nat)
  | reject (why : DecodeReject)
deriving DecidableEq, Repr

/-- `Decode(w)` over the table `OPTABLE` (30_encoding R74). -/
def decodeWith (table : List OpRow) (w : Word) : Decoded :=
  if w.val < 0 then .reject .negative
  else
    match lookupOp table (opField w) (modField w) with
    | none => .reject (.noEntry (opField w) (modField w))
    | some (.ref operation) => .instr (operation.instr (addrField w))
    | some (.other n halt) => .other n halt (addrField w)

/-- `Decode(w)` over the reference table. -/
def decode (w : Word) : Decoded := decodeWith refTable w

/-- `OP * 1000000 + MOD * 10000 + ADDR` (30_encoding R71, R82). -/
def assemble (op mod addr : Nat) : Nat :=
  op * Config.radix ^ (Config.modDigits + Config.addrDigits) + mod * Config.radix ^ Config.addrDigits + addr

/-- The Word of a well-formed instruction under the table: that of the first entry for its
operation. `none` for an ill-formed instruction, or where the table has no such entry. -/
def encodeWith (table : List OpRow) (i : Instr) : Option Word :=
  if i.WellFormed then
    (table.find? fun r => r.entry == .ref i.operation).bind fun r =>
      Word.ofInt? (assemble r.op r.mod i.addr)
  else none

/-- The Word of a well-formed instruction under the reference table (30_encoding R78). -/
def encode (i : Instr) : Option Word := encodeWith refTable i

/-- Digit `i` of an instruction given as `w`, with `k` bits a digit (log 1). -/
def tableDigit (k w i : Nat) : Nat := w / 2 ^ (k * i) % 2 ^ k

/-- The decimal number whose digits, least significant first, are `ds`; `none` where one of them is
not a decimal digit. -/
def numberOfDigits : List Nat → Option Nat
  | [] => some 0
  | d :: ds => if d < Config.radix then (numberOfDigits ds).map (d + Config.radix * ·) else none

/-- The Word an instruction's bits `w` stand for. The opcode table numbers DIGITS, eight of them,
digit 0 the last; an instruction of `nbits` bits gives each digit `k = nbits / 8` of them, digit `i`
in bits `k*i` and up (log 1). With 8 bits a digit is one bit, with 32 bits it is one binary-coded
decimal digit. -/
def tableWord (nbits w : Nat) : Option Word :=
  if nbits = 0 ∨ nbits % Config.digits ≠ 0 ∨ 2 ^ nbits ≤ w then none
  else
    (numberOfDigits ((List.range Config.digits).map (tableDigit (nbits / Config.digits) w))).bind
      fun n => Word.ofInt? n

/-- The instruction the decoder reads from an instruction whose bits are `w`, numbered as
spec/opcode_table.json numbers them (log 1). -/
def decodeTableWord (nbits w : Nat) : Option Instr :=
  match tableWord nbits w with
  | none => none
  | some v =>
    match decode v with
    | .instr i => some i
    | .other _ _ _ => none
    | .reject _ => none

end Sys2Proof
end

