-- ==== Sys2Proof/Machine/State.lean ====
section
/-! DEFINITION. The state of the machine: every element of spec/10_state.md, the inputs the host owns,
the outputs, and the host's schedule. Plain data throughout. -/

namespace Sys2Proof.Machine

open Sys2Proof

/-- `STATE` (10_state R28). -/
inductive Fsm where
  | ready | running | halted | faulted
deriving DecidableEq, Repr

/-- `MODE`, the kind of request that put the FSM into `RUNNING` (10_state R29). -/
inductive Mode where
  | run | step
deriving DecidableEq, Repr

/-- `STOP`, why the FSM last left `RUNNING` (10_state R30). -/
inductive Stop where
  | none | stepDone | breakpoint | cancelled | halt | fault
deriving DecidableEq, Repr

/-- `FAULT_KIND`, the faults the block raises (60_exceptions R200 to R203). -/
inductive FaultKind where
  | addressFault | decodeFault | deviceFault
deriving DecidableEq, Repr

/-- The memory `M`: the Words that are not `+00000000`, by address, addresses strictly rising
(10_state R34; log 5, log 6). -/
abbrev Memory := List (Nat × Word)

/-- What a slot is bound to, as far as the block sees it: the answers its endpoint will give, in order
(44_io R181 to R183; log 10). -/
structure Endpoint where
  /-- Answers to `DevRead`: a Word, or `none` for `fail`. -/
  reads : List (Option Word)
  /-- Answers to `DevWrite` and `DevWriteChar`: `true` for `ok`, `false` for `fail`. -/
  writes : List Bool
deriving DecidableEq, Repr

/-- One device operation the FSM performed, with the endpoint's answer (10_state R37 (a)). -/
inductive DevOp where
  /-- `DevRead(slot)`; `none` is the answer `fail`. -/
  | read (slot : Nat) (answer : Option Word)
  /-- `DevWrite(slot, w)`. -/
  | write (slot : Nat) (w : Word) (ok : Bool)
  /-- `DevWriteChar(slot, code)`. -/
  | writeChar (slot code : Nat) (ok : Bool)
deriving DecidableEq, Repr

/-- A TraceRecord `(fpc, IR, (PC, A, B, ICOUNT))` (40_dispatch_fsm R119). -/
structure TraceRecord where
  fpc : Nat
  word : Word
  pc : Nat
  a : Word
  b : Word
  icount : Nat
deriving DecidableEq, Repr

/-- What the status port reads (10_state R38). -/
structure Status where
  pc : Nat
  ir : Word
  a : Word
  b : Word
  icount : Nat
  fsm : Fsm
  stop : Stop
  haltAddr : Nat
  faultKind : Option FaultKind
  faultPc : Nat
  faultWord : Option Word
deriving DecidableEq, Repr

/-- A host request that uses the memory port (20_memory R58, R59). -/
inductive MemRequest where
  /-- `deposit <address> <value>`. -/
  | deposit (addr : Nat) (v : Word)
  /-- `examine <address>`. -/
  | examine (addr : Nat)
  /-- `bulkLoad(startAddress, words)`. -/
  | bulkLoad (start : Nat) (words : List Word)
deriving DecidableEq, Repr

/-- What the host can do at a boundary between two cycles: a request of 40_dispatch_fsm R104 to R110,
a status read (10_state R38), or a change of an input it owns (10_state R36). -/
inductive HostEvent where
  /-- Reset (R104). -/
  | reset
  /-- Run(`a`), `a` in `0..9999` (R105; 93_implementation_defined Q6). -/
  | run (a : Fin Config.amod)
  /-- Step (R106). -/
  | step
  /-- Deposit, Examine, BulkLoad (R108). -/
  | mem (r : MemRequest)
  /-- A read of the status port (10_state R38). -/
  | status
  /-- The breakpoint at `addr` is set, armed or disarmed (R109; 10_state R36 (a); log 18). -/
  | setBreak (addr : Nat) (armed : Bool)
  /-- The breakpoint at `addr` is cleared (R109). -/
  | clearBreak (addr : Nat)
  /-- enableTrace, disableTrace (R109). -/
  | setTrace (on : Bool)
  /-- The cancellation flag is set or cleared (R107). -/
  | setCancel (on : Bool)
  /-- attach(slot, endpoint) (R110; log 17). -/
  | attach (slot : Nat) (endpoint : Endpoint)
  /-- detach(slot) (R110; log 17). -/
  | detach (slot : Nat)
deriving DecidableEq, Repr

/-- What the host is answered. -/
inductive HostReply where
  /-- A Reset, Run, Step, deposit or bulkLoad was performed. -/
  | done
  /-- The Word an examine read. -/
  | word (v : Word)
  /-- An `AddressFault` returned to the host (60_exceptions R211), with the offending address of a
  deposit or an examine (20_memory R52, R53), without one for a bulkLoad (R58; log 22). -/
  | addressFault (addr : Option Nat)
  /-- The request was refused and nothing changed (93_implementation_defined Q1). -/
  | refused
  /-- The reading of the status port. -/
  | status (st : Status)
  /-- attach to a slot that is bound already (40_dispatch_fsm R110; 90_conflicts C8). -/
  | deviceAlreadyBound (slot : Nat)
  /-- attach or detach on a slot number that names no slot (44_io R180; log 17). -/
  | noSuchSlot (slot : Nat)
deriving DecidableEq, Repr

/-- The machine. -/
@[ext]
structure State where
  /-- The OPEN parameters (00_scope R5). No transition writes them (43_arithmetic R161; log 3). -/
  cfg : Params
  /-- `A`, the accumulator (10_state R21). -/
  a : Word
  /-- `B`, the secondary register (10_state R22). -/
  b : Word
  /-- `PC` (10_state R24). -/
  pc : Nat
  /-- `ICOUNT` (10_state R26). -/
  icount : Nat
  /-- `STATE` (10_state R28). -/
  fsm : Fsm
  /-- `MODE` (10_state R29). -/
  mode : Mode
  /-- `STOP` (10_state R30). -/
  stop : Stop
  /-- `IR`, the last fetched Word (10_state R31). -/
  ir : Word
  /-- `HALT_ADDR` (10_state R32), 0 while it is not meaningful (R42). -/
  haltAddr : Nat
  /-- `FAULT_KIND` (10_state R33), `none` while it is not meaningful (R42). -/
  faultKind : Option FaultKind
  /-- `FAULT_PC` (10_state R33), 0 while it is not meaningful (R42). -/
  faultPc : Nat
  /-- `FAULT_WORD` (10_state R33): `none` for absent, and while it is not meaningful (R42). -/
  faultWord : Option Word
  /-- `M`, the MemoryBank (10_state R34). -/
  mem : Memory
  /-- The host's breakpoint set, pairs of address and armed flag (10_state R36 (a)). -/
  breakpoints : List (Nat × Bool)
  /-- The host's `TRACE_EN` (10_state R36 (b)). -/
  traceEn : Bool
  /-- The host's `CANCEL` (10_state R36 (c)). -/
  cancel : Bool
  /-- The `NSLOTS` device slots, each bound to an endpoint or unbound (10_state R35, R36 (d)). -/
  slots : List (Option Endpoint)
  /-- MODEL. The host's schedule: at each boundary one event, or `none` for no request (log 7). -/
  host : List (Option HostEvent)
  /-- MODEL. Memory requests presented while the FSM owned the port (log 8). -/
  waiting : List MemRequest
  /-- MODEL. Device operations performed, oldest first (10_state R37 (a); log 14). -/
  devOps : List DevOp
  /-- MODEL. TraceRecords emitted, oldest first (10_state R37 (b); log 14). -/
  trace : List TraceRecord
  /-- MODEL. Answers given to the host, oldest first (log 14). -/
  replies : List HostReply
deriving DecidableEq, Repr

/-- Reasons for which a step could stop outside every state the spec gives. There is none: every
cycle ends in a next state (00_scope R10; 93_implementation_defined section 5, "There is no stuck
state"), and the block's own faults are states with `STATE = FAULTED` (60_exceptions R207; log 16).
Nothing raises it: safe. -/
inductive Fault where
deriving DecidableEq, Repr

/-- Reasons for which an instruction has no meaning. -/
inductive Refusal where
  /-- The instruction of this mnemonic is not modelled. Raised by an arm of `exec`; no arm raises it,
  since every instruction is modelled. Safe: the machine stops. -/
  | notModelled (mnemonic : String)
deriving DecidableEq, Repr

/-- The machine right after reset (10_state R39; 70_reset_and_hazards R231), at the reference
parameters. The inputs the host owns have no value in the spec (91_not_in_source N12): here no
breakpoints, no trace, no cancel, unbound slots, no request (log 11). -/
def State.reset : State :=
  { cfg := refParams
    a := Word.zero, b := Word.zero, pc := 0, icount := 0
    fsm := .ready, mode := .step, stop := .none, ir := Word.zero
    haltAddr := 0, faultKind := none, faultPc := 0, faultWord := none
    mem := []
    breakpoints := [], traceEn := false, cancel := false
    slots := List.replicate Config.nslots none
    host := [], waiting := [], devOps := [], trace := [], replies := [] }

end Sys2Proof.Machine
end

