-- ==== Sys2Proof/Machine/Ops.lean ====
section
/-! DEFINITION. The named operations over memory and registers: memory access, the fault entry, the
restarts that leave it, and the ADVANCE phase (spec/20_memory.md, spec/40_dispatch_fsm.md,
spec/60_exceptions.md). -/

namespace Sys2Proof.Machine

open Sys2Proof

/-! ### Lists sorted by a number -/

/-- The value at key `k`. -/
def Sorted.get {α : Type} (k : Nat) : List (Nat × α) → Option α
  | [] => none
  | (j, v) :: l => if k = j then some v else Sorted.get k l

/-- Put `v` at key `k`, in place of what is there. -/
def Sorted.put {α : Type} (k : Nat) (v : α) : List (Nat × α) → List (Nat × α)
  | [] => [(k, v)]
  | (j, u) :: l =>
    if k < j then (k, v) :: (j, u) :: l
    else if k = j then (k, v) :: l
    else (j, u) :: Sorted.put k v l

/-- Take out key `k`. -/
def Sorted.remove {α : Type} (k : Nat) (l : List (Nat × α)) : List (Nat × α) :=
  l.filter fun c => c.1 != k

/-- The keys rise strictly. -/
abbrev Sorted.Rising {α : Type} (l : List (Nat × α)) : Prop := l.Pairwise fun c d => c.1 < d.1

/-! ### The memory -/

/-- What an address that is not listed reads as: the reset contents `+00000000`
(10_state R34, R39). -/
def Memory.unlisted : Word := Word.zero

/-- `M[addr]`. -/
def Memory.read (m : Memory) (addr : Nat) : Word := (Sorted.get addr m).getD Memory.unlisted

/-- `M[addr] <- v`. -/
def Memory.write (m : Memory) (addr : Nat) (v : Word) : Memory :=
  if v = Memory.unlisted then Sorted.remove addr m else Sorted.put addr v m

/-- `M[start + i] <- words[i]` for every `i`, in order (20_memory R58). -/
def Memory.writeAll (m : Memory) (start : Nat) : List Word → Memory
  | [] => m
  | v :: vs => Memory.writeAll (m.write start v) (start + 1) vs

/-- The one canonical form of a memory: addresses rise strictly and no entry is what an unlisted
address reads as, so that equal memories are equal data. -/
abbrev Memory.wf (m : Memory) : Prop := Sorted.Rising m ∧ ∀ c ∈ m, c.2 ≠ Memory.unlisted

/-- Nothing is listed at or past address `n`. -/
abbrev Memory.Within (m : Memory) (n : Nat) : Prop := ∀ c ∈ m, c.1 < n

/-- The answer of a memory access: its result, or an `AddressFault` with the offending address. -/
inductive Access (α : Type) where
  | ok (result : α)
  | addressFault (addr : Nat)
deriving DecidableEq, Repr

/-- `MemRead(addr, 1)` (20_memory R52). -/
def memRead (s : State) (addr : Nat) : Access Word :=
  if addr < s.cfg.memWords then .ok (s.mem.read addr) else .addressFault addr

/-- `MemWrite(addr, 1, v)` (20_memory R53). -/
def memWrite (s : State) (addr : Nat) (v : Word) : Access State :=
  if addr < s.cfg.memWords then .ok { s with mem := s.mem.write addr v } else .addressFault addr

/-- Who may use the memory port. -/
inductive PortOwner where
  | fsm | host
deriving DecidableEq, Repr

/-- The arbiter: the one-bit function `STATE = RUNNING` (20_memory R57). -/
def portOwner (s : State) : PortOwner := if s.fsm = .running then .fsm else .host

/-! ### The fault entry, and the requests that leave it -/

/-- The fault entry, `raise <kind>` (60_exceptions R207). `word` is `IR` if this cycle's FETCH
completed, else absent. `PC` still holds the address of this cycle's instruction, and no ADVANCE
follows. -/
def raise (kind : FaultKind) (word : Option Word) (s : State) : State :=
  { s with faultKind := some kind, faultPc := s.pc, faultWord := word, fsm := .faulted, stop := .fault }

/-- A fault in the EXECUTE phase: the Word of this cycle is in `IR` (60_exceptions R204). -/
def raiseExec (kind : FaultKind) (s : State) : State := raise kind (some s.ir) s

/-- The halt and fault records cleared to the reset placeholders (10_state R42). -/
def clearRecords (s : State) : State :=
  { s with haltAddr := 0, faultKind := none, faultPc := 0, faultWord := none }

/-- Run(`a`) (40_dispatch_fsm R105). -/
def runRequest (a : Nat) (s : State) : State :=
  { clearRecords s with pc := a, mode := .run, stop := .none, fsm := .running }

/-- Step, where it is accepted (40_dispatch_fsm R106). With Run, the only way out of `FAULTED` but
Reset: the machine has no return-from-fault instruction and nothing to restore (60_exceptions
R209). -/
def stepRequest (s : State) : State :=
  { clearRecords s with mode := .step, stop := .none, fsm := .running }

/-- Reset (40_dispatch_fsm R104): every element of 10_state R39 to its reset value. The parameters, the
inputs the host owns, its schedule and what has been output are not the block's to reset. -/
def resetRequest (s : State) : State :=
  { s with
    a := Word.zero, b := Word.zero, pc := 0, icount := 0
    fsm := .ready, mode := .step, stop := .none, ir := Word.zero
    haltAddr := 0, faultKind := none, faultPc := 0, faultWord := none
    mem := [] }

/-! ### The ADVANCE phase -/

/-- ADVANCE up to the halt test (40_dispatch_fsm R111, R116, R119): `PC`, `ICOUNT` and the
TraceRecord. `target` is the jump target, if the operation set one. -/
def advance (target : Option Nat) (s : State) : State :=
  let pc := target.getD (s.pc + 1)
  { s with
    pc := pc
    icount := s.icount + 1
    trace := if s.traceEn then s.trace ++ [⟨s.pc, s.ir, pc, s.a, s.b, s.icount + 1⟩] else s.trace }

/-- The end of ADVANCE of an operation that is not the halt operation (40_dispatch_fsm R118). -/
def finishStep (s : State) : State :=
  { s with
    fsm := if s.mode = .step then .ready else s.fsm
    stop := if s.mode = .step then .stepDone else s.stop }

/-- The end of ADVANCE of the halt operation (40_dispatch_fsm R117). -/
def finishHalt (s : State) : State :=
  { s with fsm := .halted, stop := .halt, haltAddr := s.pc }

/-- The whole ADVANCE phase (40_dispatch_fsm R111), of an operation with the mark *is the halt
operation* or not. -/
def completeAs (halt : Bool) (target : Option Nat) (s : State) : State :=
  match halt with
  | true => finishHalt (advance target s)
  | false => finishStep (advance target s)

/-- ADVANCE of an operation that set no jump target and is not the halt operation. -/
def complete (s : State) : State := completeAs false none s

/-- ADVANCE of an operation that set the jump target `t`. -/
def completeJump (t : Nat) (s : State) : State := completeAs false (some t) s

/-- ADVANCE of the halt operation. -/
def completeHalt (s : State) : State := completeAs true none s

/-! ### Codes of the FSM's registers -/

/-- The code of `STATE` (10_state R28). -/
def Fsm.code : Fsm → Nat
  | .ready => 0 | .running => 1 | .halted => 2 | .faulted => 3

/-- The code of `STOP` (10_state R30). -/
def Stop.code : Stop → Nat
  | .none => 0 | .stepDone => 1 | .breakpoint => 2 | .cancelled => 3 | .halt => 4 | .fault => 5

/-- The code of `FAULT_KIND` (60_exceptions R204); codes 4 and 5 are reserved and never appear. -/
def faultCode : Option FaultKind → Nat
  | none => 0
  | some .addressFault => 1
  | some .decodeFault => 2
  | some .deviceFault => 3

end Sys2Proof.Machine
end

