-- ==== Sys2Proof/Machine/Operands.lean ====
section
/-! DEFINITION. The operand forms (spec/30_encoding.md R73, spec/42_load_store.md R155): one memory
operand, direct; one slot number; no immediate, index or indirection. -/

namespace Sys2Proof.Machine

open Sys2Proof

/-- The effective address of a memory operand or jump target is `ADDR` as it stands
(30_encoding R73). -/
def effectiveAddress (addr : Nat) : Nat := addr

/-- The slot number of an I/O operand is `ADDR` as it stands (30_encoding R73). -/
def slotNumber (addr : Nat) : Nat := addr

/-- Go on with the Word of a memory operand, or take the `AddressFault` (20_memory R52;
60_exceptions R200 (b)). -/
def withOperand (addr : Nat) (s : State) (k : Word → State) : State :=
  match memRead s (effectiveAddress addr) with
  | .ok v => k v
  | .addressFault _ => raiseExec .addressFault s

/-- Store a Word at a memory operand and go on, or take the `AddressFault` (20_memory R53;
60_exceptions R200 (c)). -/
def storeOperand (addr : Nat) (v : Word) (s : State) (k : State → State) : State :=
  match memWrite s (effectiveAddress addr) v with
  | .ok t => k t
  | .addressFault _ => raiseExec .addressFault s

end Sys2Proof.Machine
end

