-- ==== Sys2Proof/Machine/Alu.lean ====
section
/-! DEFINITION. The decimal-word ALU and its overflow policy (spec/43_arithmetic.md R160 to R163,
R166, R167): exact integer arithmetic, brought back into Word range. -/

namespace Sys2Proof.Machine

open Sys2Proof

/-- `sgn(v) * (abs(v) mod WMOD)`: the low eight digits, with the sign of `v` (43_arithmetic R162,
R166). -/
def lowDigits (v : Int) : Word :=
  ⟨v.sign * (v.natAbs % Config.wmod : Nat),
    Word.inRange_sign_mul v _ (Nat.le_pred_of_lt (Nat.mod_lt _ (by decide)))⟩

/-- `sgn(p) * (abs(p) div WMOD)` of the product `p` of two Words: the high eight digits, with the sign
of `p` (43_arithmetic R166). -/
def highDigits (x y : Word) : Word :=
  ⟨(x.val * y.val).sign * ((x.val * y.val).natAbs / Config.wmod : Nat),
    Word.inRange_sign_mul _ _ (by
      rw [Int.natAbs_mul]
      exact (Nat.div_le_div_right (Nat.mul_le_mul x.mag_le y.mag_le)).trans (by decide))⟩

/-- The largest magnitude with the sign of `v` (43_arithmetic R163), for a `v` that is not 0. -/
def saturated (v : Int) : Word :=
  if 0 < v then Word.of Config.wmax else Word.of (-Config.wmax)

/-- `ovf(v)` (43_arithmetic R161): `v` itself if it is a Word, else by the policy. -/
def ovf (policy : OvfPolicy) (v : Int) : Word :=
  if h : Word.InRange v then ⟨v, h⟩
  else
    match policy with
    | .wrap => lowDigits v
    | .saturate => saturated v

/-- Addition (43_arithmetic R164). -/
def aluAdd (policy : OvfPolicy) (x y : Word) : Word := ovf policy (x.val + y.val)

/-- Subtraction (43_arithmetic R165). -/
def aluSub (policy : OvfPolicy) (x y : Word) : Word := ovf policy (x.val - y.val)

/-- The high half of the product (43_arithmetic R166). -/
def aluMulHigh (x y : Word) : Word := highDigits x y

/-- The low half of the product (43_arithmetic R166). -/
def aluMulLow (x y : Word) : Word := lowDigits (x.val * y.val)

end Sys2Proof.Machine
end

