-- ==== Sys2Proof/Machine/Arithmetic.lean ====
section
/-! DEFINITION. The arithmetic instructions (spec/43_arithmetic.md R164 to R166). -/

namespace Sys2Proof.Machine

open Sys2Proof

/-- `ADD` (43_arithmetic R164). -/
def execAdd (addr : Nat) (s : State) : Host.Outcome State Fault Refusal :=
  .next (withOperand addr s fun y => complete { s with a := aluAdd s.cfg.ovf s.a y })

/-- `SUB` (43_arithmetic R165). -/
def execSub (addr : Nat) (s : State) : Host.Outcome State Fault Refusal :=
  .next (withOperand addr s fun y => complete { s with a := aluSub s.cfg.ovf s.a y })

/-- `MUL` (43_arithmetic R166): `A` takes the high half, `B` the low half; the old `B` is no input. -/
def execMul (addr : Nat) (s : State) : Host.Outcome State Fault Refusal :=
  .next (withOperand addr s fun y =>
    complete { s with a := aluMulHigh s.a y, b := aluMulLow s.a y })

end Sys2Proof.Machine
end

