-- ==== Sys2Proof/Machine/Flags.lean ====
section
/-! DEFINITION. There are no flags, condition codes or predicates (spec/10_state.md R27): the
conditional jumps test `A` itself (spec/41_control.md R143, R144). -/

namespace Sys2Proof.Machine

open Sys2Proof

/-- The condition of `JAZ` (41_control R143). There is one zero. -/
def isZero (w : Word) : Bool := decide (w.val = 0)

/-- The condition of `JAN` (41_control R144). Zero is not negative. -/
def isNegative (w : Word) : Bool := decide (w.val < 0)

end Sys2Proof.Machine
end

