-- ==== Sys2Proof/Machine/Control.lean ====
section
/-! DEFINITION. The control operations (spec/41_control.md): the EXECUTE phase of each, with the
ADVANCE phase that ends its cycle. -/

namespace Sys2Proof.Machine

open Sys2Proof

/-- `HLT` (41_control R140): nothing, and the mark of the halt operation. -/
def execHlt (_ignored : Nat) (s : State) : Host.Outcome State Fault Refusal :=
  .next (completeHalt s)

/-- `NOP` (41_control R141). -/
def execNop (_ignored : Nat) (s : State) : Host.Outcome State Fault Refusal :=
  .next (complete s)

/-- `JMP` (41_control R142): the target is not range-checked here. -/
def execJmp (target : Nat) (s : State) : Host.Outcome State Fault Refusal :=
  .next (completeJump (effectiveAddress target) s)

/-- ADVANCE of a conditional jump: to the target if the condition holds, else by one
(40_dispatch_fsm R116). -/
def branch (taken : Bool) (target : Nat) (s : State) : State :=
  if taken then completeJump (effectiveAddress target) s else complete s

/-- `JAZ` (41_control R143). -/
def execJaz (target : Nat) (s : State) : Host.Outcome State Fault Refusal :=
  .next (branch (isZero s.a) target s)

/-- `JAN` (41_control R144). -/
def execJan (target : Nat) (s : State) : Host.Outcome State Fault Refusal :=
  .next (branch (isNegative s.a) target s)

end Sys2Proof.Machine
end

