-- ==== Sys2Proof/Machine/Devices.lean ====
section
/-! DEFINITION. The device port (spec/44_io.md R180 to R184, R188, R189). -/

namespace Sys2Proof.Machine

open Sys2Proof

/-- The endpoint slot `n` is bound to; `none` for an unbound slot and for a number that names no
slot (44_io R180). -/
def endpointOf (s : State) (n : Nat) : Option Endpoint := (s.slots[n]?).join

/-- `DevBound(n)` (44_io R180). -/
def devBound (s : State) (n : Nat) : Bool := (endpointOf s n).isSome

/-- The endpoint of slot `n` has given an answer, which leaves it with `rest`, and `op` is on
record. -/
def recordOp (n : Nat) (rest : Endpoint) (op : DevOp) (s : State) : State :=
  { s with slots := s.slots.set n (some rest), devOps := s.devOps ++ [op] }

/-- The endpoint's answer to a `DevRead`: the next of its script, past its end a free value
(44_io R181; log 10). -/
def readAnswer (s : State) (n : Nat) (ep : Endpoint) : Option Word :=
  ep.reads.head?.getD (Config.drawRead n s.devOps.length)

/-- The endpoint's answer to a `DevWrite` or `DevWriteChar`: the next of its script, past its end a
free value (44_io R182, R183; log 10). -/
def writeAnswer (s : State) (n : Nat) (ep : Endpoint) : Bool :=
  ep.writes.head?.getD (Config.drawWrite n s.devOps.length)

/-- `DevRead(n)` (44_io R181): the answer, `none` for `fail`, and the state after it. Called only with
`DevBound(n)`; on another slot it answers `fail` and does nothing. -/
def devRead (s : State) (n : Nat) : Option Word × State :=
  match endpointOf s n with
  | none => (none, s)
  | some ep =>
    let r := readAnswer s n ep
    (r, recordOp n { ep with reads := ep.reads.tail } (.read n r) s)

/-- `DevWrite(n, w)` (44_io R182): `true` for `ok`. Called only with `DevBound(n)`. -/
def devWrite (s : State) (n : Nat) (w : Word) : Bool × State :=
  match endpointOf s n with
  | none => (false, s)
  | some ep =>
    let ok := writeAnswer s n ep
    (ok, recordOp n { ep with writes := ep.writes.tail } (.write n w ok) s)

/-- `DevWriteChar(n, c)` (44_io R183): `true` for `ok`. Called only with `DevBound(n)`. -/
def devWriteChar (s : State) (n c : Nat) : Bool × State :=
  match endpointOf s n with
  | none => (false, s)
  | some ep =>
    let ok := writeAnswer s n ep
    (ok, recordOp n { ep with writes := ep.writes.tail } (.writeChar n c ok) s)

/-- The four character codes of a text Word, leading pair first, its sign ignored (44_io R187,
R189). -/
def textCodes (w : Word) : List Nat :=
  [digitField w 7 6, digitField w 5 4, digitField w 3 2, digitField w 1 0]

/-- The character codes that slot `n` has received (44_io R183; 10_state R37 (a)). -/
def codesReceived (n : Nat) (ops : List DevOp) : List Nat :=
  ops.filterMap fun op =>
    match op with
    | .writeChar m c true => if m = n then some c else none
    | _ => none

/-- The Words that slot `n` has received (44_io R182). -/
def wordsReceived (n : Nat) (ops : List DevOp) : List Word :=
  ops.filterMap fun op =>
    match op with
    | .write m w true => if m = n then some w else none
    | _ => none

/-- `CHARMAP` of the console endpoint (44_io R188): eight codes are pinned, and the glyph of any
other, if it has one, is a free value (log 12). -/
def charmap : Nat → Option Char
  | 20 => some ' '
  | 24 => some 'D'
  | 25 => some 'E'
  | 30 => some 'H'
  | 34 => some 'L'
  | 42 => some 'O'
  | 45 => some 'R'
  | 52 => some 'W'
  | code => Config.unpinnedGlyph code

/-- The console output (10_state R37 (a)), as the glyphs of the codes the console has received. -/
def consoleOutput (s : State) : List (Option Char) :=
  (codesReceived Config.console s.devOps).map charmap

end Sys2Proof.Machine
end

