-- ==== Sys2Proof/Machine/Io.lean ====
section
/-! DEFINITION. The I/O operations (spec/44_io.md R185 to R187). -/

namespace Sys2Proof.Machine

open Sys2Proof

/-- The EXECUTE and ADVANCE phases of `INP`: on an unbound slot or a failed read a `DeviceFault`. -/
def inputWord (n : Nat) (s : State) : State :=
  if devBound s n then
    match devRead s n with
    | (some v, t) => complete { t with a := v }
    | (none, t) => raiseExec .deviceFault t
  else raiseExec .deviceFault s

/-- `INP` (44_io R185). -/
def execInp (slot : Nat) (s : State) : Host.Outcome State Fault Refusal :=
  .next (inputWord (slotNumber slot) s)

/-- The EXECUTE and ADVANCE phases of `OUT`: on an unbound slot or a failed write a
`DeviceFault`. -/
def outputWord (n : Nat) (s : State) : State :=
  if devBound s n then
    match devWrite s n s.a with
    | (true, t) => complete t
    | (false, t) => raiseExec .deviceFault t
  else raiseExec .deviceFault s

/-- `OUT` (44_io R186). -/
def execOut (slot : Nat) (s : State) : Host.Outcome State Fault Refusal :=
  .next (outputWord (slotNumber slot) s)

/-- How sending the codes of one text Word ends, and the state after it. -/
inductive Sent where
  /-- `END_CODE` was met: the instruction is finished. -/
  | ended (t : State)
  /-- The endpoint answered `fail`. -/
  | failed (t : State)
  /-- All codes were sent: go on with the next Word. -/
  | more (t : State)

/-- The inner loop of `PRT`: hand the codes to the console up to `END_CODE` (44_io R187). -/
def sendCodes : List Nat → State → Sent
  | [], s => .more s
  | c :: cs, s =>
    if c = Config.endCode then .ended s
    else
      match devWriteChar s Config.console c with
      | (true, t) => sendCodes cs t
      | (false, t) => .failed t

/-- The outer loop of `PRT` from text address `k` on (44_io R187). `fuel` is `MEM_WORDS - k`, how many
text Words are left: with none left, `k` is out of range. -/
def printFrom : Nat → Nat → State → State
  | 0, _, s => raiseExec .addressFault s
  | fuel + 1, k, s =>
    match memRead s k with
    | .addressFault _ => raiseExec .addressFault s
    | .ok w =>
      match sendCodes (textCodes w) s with
      | .ended t => complete t
      | .failed t => raiseExec .deviceFault t
      | .more t => printFrom fuel (k + 1) t

/-- The text of `PRT` printed from address `k` on. -/
def printText (k : Nat) (s : State) : State := printFrom (s.cfg.memWords - k) k s

/-- `PRT` (44_io R187): the console is tested before anything is read. -/
def execPrt (addr : Nat) (s : State) : Host.Outcome State Fault Refusal :=
  .next (if devBound s Config.console then printText (effectiveAddress addr) s
         else raiseExec .deviceFault s)

end Sys2Proof.Machine
end

