-- ==== Sys2Proof/Machine/LoadStore.lean ====
section
/-! DEFINITION. Register and memory transfer (spec/42_load_store.md). -/

namespace Sys2Proof.Machine

open Sys2Proof

/-- `LDA` (42_load_store R150). -/
def execLda (addr : Nat) (s : State) : Host.Outcome State Fault Refusal :=
  .next (withOperand addr s fun v => complete { s with a := v })

/-- `LDB` (42_load_store R151). -/
def execLdb (addr : Nat) (s : State) : Host.Outcome State Fault Refusal :=
  .next (withOperand addr s fun v => complete { s with b := v })

/-- `STA` (42_load_store R152). -/
def execSta (addr : Nat) (s : State) : Host.Outcome State Fault Refusal :=
  .next (storeOperand addr s.a s complete)

/-- `STB` (42_load_store R153). -/
def execStb (addr : Nat) (s : State) : Host.Outcome State Fault Refusal :=
  .next (storeOperand addr s.b s complete)

/-- `XAB` (42_load_store R154): both old values are read before either write. -/
def execXab (_ignored : Nat) (s : State) : Host.Outcome State Fault Refusal :=
  .next (complete { s with a := s.b, b := s.a })

end Sys2Proof.Machine
end

