-- ==== Sys2Proof/Machine/Dispatch.lean ====
section
/-! DEFINITION. The dispatch of the EXECUTE phase to exactly one operation (spec/40_dispatch_fsm.md
R115). A meaning covers EXECUTE and the ADVANCE phase after it, or the fault entry (log 19). -/

namespace Sys2Proof.Machine

open Sys2Proof

/-- EXECUTE and ADVANCE of the decoded instruction (40_dispatch_fsm R115 to R119, R121). -/
def exec (i : Instr) (s : State) : Host.Outcome State Fault Refusal :=
  match i with
  | .hlt x => Sys2Proof.Machine.execHlt x s
  | .nop x => Sys2Proof.Machine.execNop x s
  | .lda x => Sys2Proof.Machine.execLda x s
  | .ldb x => Sys2Proof.Machine.execLdb x s
  | .sta x => Sys2Proof.Machine.execSta x s
  | .stb x => Sys2Proof.Machine.execStb x s
  | .xab x => Sys2Proof.Machine.execXab x s
  | .add x => Sys2Proof.Machine.execAdd x s
  | .sub x => Sys2Proof.Machine.execSub x s
  | .mul x => Sys2Proof.Machine.execMul x s
  | .jmp x => Sys2Proof.Machine.execJmp x s
  | .jaz x => Sys2Proof.Machine.execJaz x s
  | .jan x => Sys2Proof.Machine.execJan x s
  | .inp x => Sys2Proof.Machine.execInp x s
  | .out x => Sys2Proof.Machine.execOut x s
  | .prt x => Sys2Proof.Machine.execPrt x s

end Sys2Proof.Machine
end

