-- ==== Sys2Proof/Machine/HostPort.lean ====
section
/-! DEFINITION. The host's side of the block: its memory port, the status port, and what each event
does at a boundary between cycles (spec/20_memory.md R57 to R59; spec/40_dispatch_fsm.md R101,
R104 to R110; spec/10_state.md R38). -/

namespace Sys2Proof.Machine

open Sys2Proof

/-- Give the host an answer. -/
def reply (r : HostReply) (s : State) : State := { s with replies := s.replies ++ [r] }

/-- The reading of the status port (10_state R38). -/
def statusOf (s : State) : Status :=
  { pc := s.pc, ir := s.ir, a := s.a, b := s.b, icount := s.icount, fsm := s.fsm, stop := s.stop
    haltAddr := s.haltAddr, faultKind := s.faultKind, faultPc := s.faultPc, faultWord := s.faultWord }

/-- Serve a memory request of the host, which owns the port (20_memory R58, R59). A fault is returned
to the host and changes nothing in the block (60_exceptions R211). -/
def serveMem (r : MemRequest) (s : State) : State :=
  match r with
  | .deposit addr v =>
    match memWrite s addr v with
    | .ok t => reply .done t
    | .addressFault x => reply (.addressFault (some x)) s
  | .examine addr =>
    match memRead s addr with
    | .ok v => reply (.word v) s
    | .addressFault x => reply (.addressFault (some x)) s
  | .bulkLoad start words =>
    if start + words.length ≤ s.cfg.memWords then
      reply .done { s with mem := s.mem.writeAll start words }
    else reply (.addressFault none) s

/-- attach(slot, endpoint): only `DevBound` is the block's concern (40_dispatch_fsm R110;
log 17). -/
def attach (n : Nat) (ep : Endpoint) (s : State) : State :=
  if n < s.slots.length then
    if devBound s n then reply (.deviceAlreadyBound n) s
    else { s with slots := s.slots.set n (some ep) }
  else reply (.noSuchSlot n) s

/-- detach(slot) (40_dispatch_fsm R110; log 17). -/
def detach (n : Nat) (s : State) : State :=
  if n < s.slots.length then { s with slots := s.slots.set n none }
  else reply (.noSuchSlot n) s

/-- What an event of the host does (40_dispatch_fsm R101, R104 to R110). A Step in `RUNNING` is
refused (93_implementation_defined Q1); a memory request in `RUNNING` waits for the port (Q2;
log 8). -/
def accept (e : HostEvent) (s : State) : State :=
  match e with
  | .reset => reply .done (resetRequest s)
  | .run a => reply .done (runRequest a.val s)
  | .step => if s.fsm = .running then reply .refused s else reply .done (stepRequest s)
  | .mem r =>
    match portOwner s with
    | .fsm => { s with waiting := s.waiting ++ [r] }
    | .host => serveMem r s
  | .status => reply (.status (statusOf s)) s
  | .setBreak addr armed => { s with breakpoints := Sorted.put addr armed s.breakpoints }
  | .clearBreak addr => { s with breakpoints := Sorted.remove addr s.breakpoints }
  | .setTrace on => { s with traceEn := on }
  | .setCancel on => { s with cancel := on }
  | .attach n ep => attach n ep s
  | .detach n => detach n s

end Sys2Proof.Machine
end

