-- ==== Sys2Proof/Machine/OtherOps.lean ====
section
/-! DEFINITION. The EXECUTE and ADVANCE phases of an operation outside the reference set, under the
contract of spec/30_encoding.md R75. -/

namespace Sys2Proof.Machine

open Sys2Proof

/-- The kind of a fault that an operation yields (30_encoding R75). -/
def OpFault.kind : OpFault → FaultKind
  | .address => .addressFault
  | .device => .deviceFault

/-- A result taken by the FSM: the `MemWrite` or its `AddressFault`, before `A` and `B` are written,
then ADVANCE. Every number goes through `ovf` (43_arithmetic R161). -/
def finishOther (halt : Bool) (r : OpResult) (s : State) : State :=
  let num := ovf s.cfg.ovf
  let written (t : State) : State :=
    completeAs halt (r.target.map (·.val)) { t with a := num r.a, b := num r.b }
  match r.store with
  | none => written s
  | some (x, v) =>
    match memWrite s x (num v) with
    | .ok t => written t
    | .addressFault _ => raiseExec .addressFault s

/-- Where an operation ends, before ADVANCE or the fault entry: in a fault or at its result, with the
state its device operations have left. -/
inductive Reached where
  | fault (kind : FaultKind) (s : State)
  | result (r : OpResult) (s : State)

/-- Follow an operation to its end (30_encoding R75). A memory read past memory is an `AddressFault`, and
a device operation on a slot that is not bound a `DeviceFault`, never a no-op (20_memory R52;
60_exceptions R202). DESIGN CHOICE (log 24): a `fail` of a bound slot's endpoint is an answer like
another, after which the operation goes on as it says, in a `DeviceFault` or not. -/
def reachOther : OpAct → State → Reached
  | .fault kind, s => .fault (OpFault.kind kind) s
  | .finish r, s => .result r s
  | .memRead x next, s =>
    match memRead s x with
    | .ok v => reachOther (next v) s
    | .addressFault _ => .fault .addressFault s
  | .devBound n next, s => reachOther (next (devBound s n)) s
  | .devRead n next, s =>
    if devBound s n then reachOther (next (devRead s n).1) (devRead s n).2
    else .fault .deviceFault s
  | .devWrite n v next, s =>
    if devBound s n then
      reachOther (next (devWrite s n (ovf s.cfg.ovf v)).1) (devWrite s n (ovf s.cfg.ovf v)).2
    else .fault .deviceFault s
  | .devWriteChar n c next, s =>
    if devBound s n then
      reachOther (next (devWriteChar s n c.val).1) (devWriteChar s n c.val).2
    else .fault .deviceFault s

/-- Perform an operation: follow it to its end, then the fault entry, or the result taken
(30_encoding R75). After an endpoint's `fail` it goes on as it says (DESIGN CHOICE, log 24). -/
def performOther (halt : Bool) (act : OpAct) (s : State) : State :=
  match reachOther act s with
  | .fault kind t => raiseExec kind t
  | .result r t => finishOther halt r t

/-- EXECUTE and ADVANCE of operation number `n` outside the reference set, with its mark and the field
`ADDR` (30_encoding R75; 40_dispatch_fsm R111; log 4). -/
def execOther (n : Nat) (halt : Bool) (addr : Nat) (s : State) : State :=
  performOther halt (Config.otherOperation n s.cfg.ovf s.a s.b s.pc addr) s

end Sys2Proof.Machine
end

