-- ==== Sys2Proof/Machine/Cycle.lean ====
section
/-! DEFINITION. One cycle of the dispatch FSM (spec/40_dispatch_fsm.md R111), one transition of the
machine (spec/00_scope.md R10), and how an instruction is put where the next transition runs it. -/

namespace Sys2Proof.Machine

open Sys2Proof

/-- `BreakArmed(addr)`: some pair of the breakpoint set has this address and its flag armed
(10_state R36). -/
def breakArmed (breakpoints : List (Nat × Bool)) (addr : Nat) : Bool :=
  breakpoints.any fun p => p.1 == addr && p.2

/-- CHECK (40_dispatch_fsm R112): why the run stops before the fetch, if it does. -/
def check (s : State) : Option Stop :=
  match s.mode with
  | .step => none
  | .run =>
    if s.cancel then some .cancelled
    else if breakArmed s.breakpoints s.pc then some .breakpoint
    else none

/-- A stop in CHECK (40_dispatch_fsm R112): nothing but `STATE` and `STOP` changes. -/
def suspend (why : Stop) (s : State) : State := { s with fsm := .ready, stop := why }

/-- FETCH (40_dispatch_fsm R113): `IR <- MemRead(PC, 1)`. -/
def fetch (s : State) : Access State :=
  match memRead s s.pc with
  | .ok w => .ok { s with ir := w }
  | .addressFault x => .addressFault x

/-- DECODE of the fetched Word, then EXECUTE and ADVANCE (40_dispatch_fsm R114, R115). -/
def decodeAndExecute (s : State) : Host.Outcome State Fault Refusal :=
  match decodeWith s.cfg.optable s.ir with
  | .reject _ => .next (raise .decodeFault (some s.ir) s)
  | .instr i => exec i s
  | .other n halt addr => .next (execOther n halt addr s)

/-- One cycle (40_dispatch_fsm R111), performed only with `STATE = RUNNING`. -/
def cycle (s : State) : Host.Outcome State Fault Refusal :=
  match check s with
  | some why => .next (suspend why s)
  | none =>
    match fetch s with
    | .addressFault _ => .next (raise .addressFault none s)
    | .ok t => decodeAndExecute t

/-- With no host request: a cycle in `RUNNING`; in any other `STATE` the machine waits for the host
(00_scope R10; 70_reset_and_hazards R231; log 9). -/
def runOrWait (s : State) : Host.Outcome State Fault Refusal :=
  if s.fsm = .running then cycle s else .next s

/-- What happens at a boundary: the event the host's schedule has there, or none (log 7). -/
def takeEvent (s : State) : Host.Outcome State Fault Refusal :=
  match s.host with
  | some e :: rest => .next (accept e { s with host := rest })
  | none :: rest => runOrWait { s with host := rest }
  | [] => runOrWait s

/-- One transition (00_scope R10). A memory request that waited is served as soon as the host owns the
port (93_implementation_defined Q2; log 8), before anything else happens. -/
def transition (s : State) : Host.Outcome State Fault Refusal :=
  match portOwner s, s.waiting with
  | .host, r :: rest => .next (serveMem r { s with waiting := rest })
  | _, _ => takeEvent s

/-- No request at the next boundary. -/
def holdHost (s : State) : State :=
  match s.host with
  | [] => s
  | h => { s with host := none :: h }

/-- The Word put at `PC` as by a deposit, and a Step request accepted (log 2): the very next
transition is the cycle that runs it. A `PC` outside memory takes no Word. -/
def presentWord (w : Word) (s : State) : State :=
  match memWrite s s.pc w with
  | .ok t => stepRequest (holdHost t)
  | .addressFault _ => stepRequest (holdHost s)

end Sys2Proof.Machine
end

