-- ==== Sys2Proof/Machine/Step.lean ====
section
/-! DEFINITION. One step of the machine: one transition of spec/00_scope.md R10, a host event or a
cycle. -/

namespace Sys2Proof.Machine

open Sys2Proof

/-- One step. -/
def step : State → Host.Outcome State Fault Refusal := transition

/-- `s` with the instruction whose bits are `w` (numbered as for `decodeTableWord`, log 1) where the next
step fetches and runs it (log 2). Bits that stand for no Word leave nothing to store. -/
def State.withFetchWord (s : State) (nbits w : Nat) : State :=
  match tableWord nbits w with
  | some v => presentWord v s
  | none => s

end Sys2Proof.Machine
end

