-- ==== Sys2Proof/Machine/Pinned.lean ====
section
/-! DEFINITION. What a table that is to run D0's example must do (spec/30_encoding.md R76;
spec/95_test_vectors.md 1.1). -/

namespace Sys2Proof.Machine

open Sys2Proof

/-- The machine right after the deposits of the example and Run(0), with the console bound to an endpoint
that answers `ok`: the overflow policy and the table are those of `p`, the memory has its reference size
(95_test_vectors 1.1). -/
def exampleStart (p : Params) : State :=
  { State.reset with
    cfg := { p with memWords := Config.refMemWords }
    mem := [(0, Word.of 54750002), (2, Word.of 30253434), (3, Word.of 42205242), (4, Word.of 45342437)]
    slots := State.reset.slots.set Config.console (some ⟨[], List.replicate 11 true⟩)
    mode := .run, fsm := .running }

/-- `HELLO WORLD` is what the console has been sent, with no other device operation, and `A` and `B` are
zero (30_encoding R76). -/
def printedHello (s : State) : Bool :=
  consoleOutput s == ['H', 'E', 'L', 'L', 'O', ' ', 'W', 'O', 'R', 'L', 'D'].map some &&
  s.devOps.length == 11 && s.a == Word.zero && s.b == Word.zero

/-- The operation at `PC` sets a jump target, or is a jump of the reference set: not what falls through
or leaves `PC` to the ordinary ADVANCE (30_encoding R76). -/
def setsTarget (s : State) : Bool :=
  match decodeWith s.cfg.optable (s.mem.read s.pc) with
  | .reject _ => false
  | .instr i => [Operation.jmp, .jaz, .jan].contains i.operation
  | .other n _ addr =>
    match reachOther (Config.otherOperation n s.cfg.ovf s.a s.b s.pc addr) s with
    | .fault _ _ => false
    | .result r _ => r.target.isSome

/-- After the first cycle, of `+54750002`: all of the text printed, `A` and `B` kept, fallen through to
address 1, where `+00000000` still stands (30_encoding R76 (b)). -/
def exampleBetween (s : State) : Bool :=
  s.fsm == .running && s.icount == 1 && s.pc == 1 && s.mem.read 1 == Word.zero && printedHello s

/-- After the second cycle, of `+00000000`: halted with `PC` at 2, and nothing more printed (30_encoding
R76 (a)). -/
def exampleEnd (s : State) : Bool :=
  s.fsm == .halted && s.icount == 2 && s.pc == 2 && s.ir == Word.zero && printedHello s

/-- The two pinned rows of the table of `p` run the example, each as R76 says: `+54750002` prints
`HELLO WORLD`, keeps `A` and `B` and falls through, and `+00000000` halts (30_encoding R76). -/
def runsExample (p : Params) : Bool :=
  !setsTarget (exampleStart p) &&
  match step (exampleStart p) with
  | .next s =>
    exampleBetween s && !setsTarget s &&
    match step s with
    | .next t => exampleEnd t
    | .fault _ => false
    | .refused _ => false
  | .fault _ => false
  | .refused _ => false

end Sys2Proof.Machine
end

