-- ==== Sys2Proof/Safety.lean ====
section
/-! DEFINITION. What a good state of the machine is, and how a run has ended, in the terms the
statements use (spec/10_state.md R24, R30, R32, R33, R42; spec/40_dispatch_fsm.md R125). -/

namespace Sys2Proof.Machine

open Sys2Proof

/-- `STOP` agrees with `STATE` (10_state R30). -/
abbrev State.StopAgrees (s : State) : Prop :=
  (s.stop = .halt ↔ s.fsm = .halted) ∧ (s.stop = .fault ↔ s.fsm = .faulted) ∧
  (s.fsm = .running → s.stop = .none)

/-- The halt record: meaningful only in `HALTED`, where it is `PC` (10_state R32, R42;
40_dispatch_fsm R117). -/
abbrev State.HaltRecordAgrees (s : State) : Prop :=
  s.haltAddr = if s.fsm = .halted then s.pc else 0

/-- The fault record: cleared but in `FAULTED`, where it holds a kind, the `PC` that was not
advanced, and the fetched Word unless the fetch itself faulted (10_state R33, R42; 60_exceptions
R204, R207). -/
abbrev State.FaultRecordAgrees (s : State) : Prop :=
  if s.fsm = .faulted then
    s.faultKind.isSome ∧ s.faultPc = s.pc ∧
    (s.faultWord = some s.ir ∨
      (s.faultWord = none ∧ s.faultKind = some .addressFault ∧ s.cfg.memWords ≤ s.pc))
  else s.faultKind = none ∧ s.faultPc = 0 ∧ s.faultWord = none

/-- The parameters are legal: well-formed, and the two pinned rows of the table run the example
(00_scope R5, R6; 30_encoding R76; 92_eei_decisions D5). -/
abbrev Params.Legal (p : Params) : Prop := p.WellFormed ∧ runsExample p = true

/-- The invariant of the machine: the parameters are legal (00_scope R5, R6; 30_encoding R76), `PC` is in `0..AMOD`
(10_state R24), `STOP` and the records agree with `STATE`, the memory and the breakpoint set are in
their canonical form, the memory with nothing past its last Word, and `NSLOTS <= AMOD` (00_scope R6). -/
abbrev State.Good (s : State) : Prop :=
  Params.Legal s.cfg ∧ s.pc ≤ Config.amod ∧
  s.StopAgrees ∧ s.HaltRecordAgrees ∧ s.FaultRecordAgrees ∧
  s.mem.wf ∧ s.mem.Within s.cfg.memWords ∧ Sorted.Rising s.breakpoints ∧
  s.slots.length ≤ Config.amod

/-- The run has ended normally (40_dispatch_fsm R125). -/
abbrev State.EndedNormally (s : State) : Prop := s.fsm = .halted

/-- The run has ended in a fault (40_dispatch_fsm R125). -/
abbrev State.EndedInFault (s : State) : Prop := s.fsm = .faulted

/-- The run is suspended and can be continued from `PC` (40_dispatch_fsm R125). -/
abbrev State.Suspended (s : State) : Prop :=
  s.fsm = .ready ∧ (s.stop = .breakpoint ∨ s.stop = .cancelled ∨ s.stop = .stepDone)

/-- `s` at the end of a cycle that completes with the next `PC` being `pc`, and is not of the halt
operation: `PC`, `ICOUNT`, the TraceRecord if `TRACE_EN`, and in `STEP` mode the step done
(40_dispatch_fsm R111, R116, R118, R119). -/
def State.retiredTo (s : State) (pc : Nat) : State :=
  { s with
    pc := pc
    icount := s.icount + 1
    trace := if s.traceEn then s.trace ++ [⟨s.pc, s.ir, pc, s.a, s.b, s.icount + 1⟩] else s.trace
    fsm := if s.mode = .step then .ready else s.fsm
    stop := if s.mode = .step then .stepDone else s.stop }

/-- `s` at the end of a cycle that completes, is of the halt operation, and leaves `PC` at `pc`
(40_dispatch_fsm R111, R116, R117, R119). -/
def State.haltedTo (s : State) (pc : Nat) : State :=
  { s with
    pc := pc
    icount := s.icount + 1
    trace := if s.traceEn then s.trace ++ [⟨s.pc, s.ir, pc, s.a, s.b, s.icount + 1⟩] else s.trace
    fsm := .halted, stop := .halt, haltAddr := pc }

/-- `s` stopped by a fault, with the record of it (60_exceptions R207). -/
def State.faultedWith (s : State) (kind : FaultKind) (word : Option Word) : State :=
  { s with
    faultKind := some kind, faultPc := s.pc, faultWord := word, fsm := .faulted, stop := .fault }

/-- The state takes no stop in CHECK: it is in `STEP` mode, or neither cancelled nor at an armed
breakpoint (40_dispatch_fsm R112). -/
abbrev State.Unchecked (s : State) : Prop :=
  s.mode = .step ∨ (s.cancel = false ∧ (s.pc, true) ∉ s.breakpoints)

/-- At this boundary the host has no request, and its schedule goes on with `rest` (00_scope R10;
log 7). -/
abbrev State.NoRequest (s : State) (rest : List (Option HostEvent)) : Prop :=
  s.host = none :: rest ∨ (s.host = [] ∧ rest = [])

/-- The host takes this event at this boundary, and its schedule goes on with `rest`: no memory request
of its own is still waiting for the port (00_scope R10; log 7, log 8). -/
abbrev State.Takes (s : State) (e : HostEvent) (rest : List (Option HostEvent)) : Prop :=
  s.host = some e :: rest ∧ (s.fsm = .running ∨ s.waiting = [])

/-- The answer the console's endpoint `ep` gives to the `i`-th write from here on: that of its script, past
its end a free value (44_io R182, R183; log 10). -/
def State.consoleAnswer (s : State) (ep : Endpoint) (i : Nat) : Bool :=
  ep.writes[i]?.getD (Config.drawWrite Config.console (s.devOps.length + i))

/-- The text of a `PRT` at address `k` of a memory of `n` Words: its character codes up to `END_CODE`,
and whether `END_CODE` was met (`true`) or the text ran past the last Word (`false`) (44_io R187, R189). The end
of a text rests on `END_CODE`, the spec's reading of its one example (92_eei_decisions D23). -/
inductive TextFrom (m : Memory) (n : Nat) : Nat → List Nat → Bool → Prop where
  /-- The end code stands in the Word at `k`; the codes after it are not looked at. -/
  | ended {k : Nat} {before after : List Nat} : k < n →
      textCodes (m.read k) = before ++ Config.endCode :: after → Config.endCode ∉ before →
      TextFrom m n k before true
  /-- There is no Word at `k`. -/
  | overrun {k : Nat} : n ≤ k → TextFrom m n k [] false
  /-- No end code in the Word at `k`: all four codes, and the text from `k + 1` on. -/
  | more {k : Nat} {codes : List Nat} {met : Bool} : k < n →
      Config.endCode ∉ textCodes (m.read k) → TextFrom m n (k + 1) codes met →
      TextFrom m n k (textCodes (m.read k) ++ codes) met

end Sys2Proof.Machine
end

