-- ==== Sys2Proof/Certificates/Slice0/Obligations.lean ====
section
/-! DEFINITION. The statements for the provers. Each says of which rule of spec/ it speaks. A result
written as `.next { s with … }` also says its frame: every field that is not named, and so every register and
every Word of memory, is as in `s`. The fields `host` and `waiting` (log 7, log 8) and the records of
answers, device operations and traces (log 14) are the model's own: what a statement says of how they are
kept is the model's choice. -/

open Sys2Proof Sys2Proof.Machine

/-! ### Encoding -/

/-- Decoding inverts encoding, over every operation table that is a partial map (30_encoding R71, R74,
R78): no digit of an instruction is dropped. -/
def Obligations.DecodeInvertsEncode : Prop :=
  ∀ (t : List OpRow) (i : Instr) (w : Word), OpTable.WellFormed t →
    encodeWith t i = some w → decodeWith t w = .instr i

/-- Encoding inverts decoding under the reference table, so no two Words decode to the same instruction
with the same `ADDR` (30_encoding R71, R74, R78). -/
def Obligations.EncodeInvertsDecode : Prop :=
  ∀ (w : Word) (i : Instr), decode w = .instr i → i.WellFormed ∧ encode i = some w

/-- Every well-formed instruction has a Word under the reference table, which decodes to it, and no
ill-formed one has (30_encoding R71, R78). -/
def Obligations.WellFormedInstructionsEncode : Prop :=
  ∀ i : Instr,
    (i.WellFormed → ∃ w, encode i = some w ∧ decode w = .instr i) ∧
    (¬ i.WellFormed → encode i = none)

/-- The fields of a Word (30_encoding R71), and that a decoded Word has the sign `+` and the `ADDR` of its
instruction or of its other operation, over every operation table. -/
def Obligations.FieldsOfAnInstructionWord : Prop :=
  ∀ w : Word,
    opField w = w.val.natAbs / 1000000 ∧ opField w ≤ 99 ∧
    modField w = w.val.natAbs / 10000 % 100 ∧ modField w ≤ 99 ∧
    addrField w = w.val.natAbs % 10000 ∧ addrField w ≤ 9999 ∧
    w.val.natAbs = opField w * 1000000 + modField w * 10000 + addrField w ∧
    (∀ (t : List OpRow) (i : Instr), decodeWith t w = .instr i → 0 ≤ w.val ∧ i.addr = addrField w) ∧
    ∀ (t : List OpRow) (n : Nat) (halt : Bool) (x : Nat), decodeWith t w = .other n halt x →
      0 ≤ w.val ∧ x = addrField w

/-- Under the reference table a Word is a legal instruction iff it is not negative and its `(OP, MOD)` is
one of the sixteen pairs (30_encoding R78, R79). -/
def Obligations.LegalExactlyTheSixteenRows : Prop :=
  ∀ w : Word, (∃ i, decode w = .instr i) ↔
    0 ≤ w.val ∧ (w.val.natAbs / 1000000, w.val.natAbs / 10000 % 100) ∈
      [(0, 0), (1, 0), (10, 0), (11, 0), (12, 0), (13, 0), (14, 0), (20, 0), (21, 0), (22, 0),
       (30, 0), (31, 0), (32, 0), (50, 0), (51, 0), (54, 75)]

/-- Words written out from the encodings of 30_encoding R78 decode to their instructions; the others of
95_test_vectors 2.1 do not decode. -/
def Obligations.SampleWordsDecode : Prop :=
  decode (Word.of 0) = .instr (.hlt 0) ∧
  decode (Word.of 10000007) = .instr (.lda 7) ∧
  decode (Word.of 12005000) = .instr (.sta 5000) ∧
  decode (Word.of 22000014) = .instr (.mul 14) ∧
  decode (Word.of 32009999) = .instr (.jan 9999) ∧
  decode (Word.of 50000001) = .instr (.inp 1) ∧
  decode (Word.of 54750002) = .instr (.prt 2) ∧
  decode (Word.of 54000002) = .reject (.noEntry 54 0) ∧
  decode (Word.of (-54750002)) = .reject .negative

/-- A negative Word never decodes, over any table, whatever its digits; the cycle that fetches it raises
`DecodeFault`; and `+00000000` is an instruction, `HLT` in the reference table (30_encoding R72). -/
def Obligations.NegativeWordsNeverDecode : Prop :=
  (∀ (t : List OpRow) (w : Word), w.val < 0 → decodeWith t w = .reject .negative) ∧
  (∀ (s : State) (rest : List (Option HostEvent)), s.fsm = .running → s.NoRequest rest →
    s.Unchecked → s.pc < s.cfg.memWords → (s.mem.read s.pc).val < 0 →
    step s = .next (({ s with host := rest, ir := s.mem.read s.pc } : State).faultedWith
      .decodeFault (some (s.mem.read s.pc)))) ∧
  decode Word.zero = .instr (.hlt 0)

/-- `HLT`, `NOP` and `XAB` have the same effect for every value of the `ADDR` digits they ignore
(30_encoding R80). -/
def Obligations.IgnoredDigitsHaveNoEffect : Prop :=
  ∀ (x y : Nat) (s : State),
    exec (.hlt x) s = exec (.hlt y) s ∧ exec (.nop x) s = exec (.nop y) s ∧
    exec (.xab x) s = exec (.xab y) s

/-! ### Memory and the host's memory port -/

/-- `MemRead` (20_memory R52). -/
def Obligations.MemReadReturnsTheWordOrFaults : Prop :=
  ∀ (s : State) (addr : Nat),
    (addr < s.cfg.memWords → memRead s addr = .ok (s.mem.read addr)) ∧
    (s.cfg.memWords ≤ addr → memRead s addr = .addressFault addr)

/-- `MemWrite` (20_memory R53): the cell takes the Word, no other cell and nothing else changes; out of
range an `AddressFault` and no change. -/
def Obligations.MemWriteChangesOneCell : Prop :=
  ∀ (s : State) (addr : Nat) (v : Word),
    (addr < s.cfg.memWords → ∃ m : Memory, memWrite s addr v = .ok { s with mem := m } ∧
      m.read addr = v ∧ ∀ x, x ≠ addr → m.read x = s.mem.read x) ∧
    (s.cfg.memWords ≤ addr → memWrite s addr v = .addressFault addr)

/-- Two memories in canonical form that read the same at every address are the same data. The canonical
form, and that memory is data at all, is the model's (log 5, log 6). -/
def Obligations.EqualReadsEqualMemories : Prop :=
  ∀ m n : Memory, m.wf → n.wf → (∀ x, m.read x = n.read x) → m = n

/-- A step that takes `bulkLoad` (20_memory R58): all of it or nothing, to the cells from `start` on and no other; it
changes no register and not `STATE`; in `RUNNING` it is not served. How the answer is recorded (log 14),
that it carries no address (log 22) and that the request waits (log 8) is the model's choice. -/
def Obligations.BulkLoadIsAllOrNothing : Prop :=
  ∀ (s : State) (start : Nat) (words : List Word) (rest : List (Option HostEvent)),
    s.Takes (.mem (.bulkLoad start words)) rest →
    (s.fsm ≠ .running → start + words.length ≤ s.cfg.memWords →
      ∃ m : Memory, step s =
          .next { s with host := rest, mem := m, replies := s.replies ++ [.done] } ∧
        (∀ i w, words[i]? = some w → m.read (start + i) = w) ∧
        ∀ x, (x < start ∨ start + words.length ≤ x) → m.read x = s.mem.read x) ∧
    (s.fsm ≠ .running → s.cfg.memWords < start + words.length →
      step s = .next { s with host := rest, replies := s.replies ++ [.addressFault none] }) ∧
    (s.fsm = .running →
      step s = .next { s with host := rest, waiting := s.waiting ++ [.bulkLoad start words] })

/-- A step that takes `deposit` is `MemWrite` and one that takes `examine` is `MemRead`, both served only
when `STATE` is not `RUNNING`; their `AddressFault` goes to the host and changes nothing in the block
(20_memory R59). How the answer is recorded (log 14), and that a request of a running machine waits (log 8), is the
model's choice. -/
def Obligations.DepositAndExamineServeTheHost : Prop :=
  ∀ (s : State) (addr : Nat) (v : Word) (rest : List (Option HostEvent)),
    (s.Takes (.mem (.deposit addr v)) rest →
      (s.fsm ≠ .running → addr < s.cfg.memWords → ∃ m : Memory,
        step s = .next { s with host := rest, mem := m, replies := s.replies ++ [.done] } ∧
        m.read addr = v ∧ ∀ x, x ≠ addr → m.read x = s.mem.read x) ∧
      (s.fsm ≠ .running → s.cfg.memWords ≤ addr →
        step s = .next
          { s with host := rest, replies := s.replies ++ [.addressFault (some addr)] }) ∧
      (s.fsm = .running →
        step s = .next { s with host := rest, waiting := s.waiting ++ [.deposit addr v] })) ∧
    (s.Takes (.mem (.examine addr)) rest →
      (s.fsm ≠ .running → addr < s.cfg.memWords →
        step s = .next
          { s with host := rest, replies := s.replies ++ [.word (s.mem.read addr)] }) ∧
      (s.fsm ≠ .running → s.cfg.memWords ≤ addr →
        step s = .next
          { s with host := rest, replies := s.replies ++ [.addressFault (some addr)] }) ∧
      (s.fsm = .running →
        step s = .next { s with host := rest, waiting := s.waiting ++ [.examine addr] }))

/-- While `STATE = RUNNING` no memory request of the host is served: a step that takes one leaves the whole
block as it was. Once `STATE` is not `RUNNING` the oldest that waits is served before anything else happens
(20_memory R57; 93_implementation_defined Q2). That it waits in order is the model's choice (log 8). -/
def Obligations.HostMemoryRequestsWaitForThePort : Prop :=
  ∀ (s : State) (r : MemRequest),
    (∀ rest, s.fsm = .running → s.host = some (.mem r) :: rest →
      step s = .next { s with host := rest, waiting := s.waiting ++ [r] }) ∧
    (∀ rest, s.fsm ≠ .running → s.waiting = r :: rest →
      step s = .next (serveMem r { s with waiting := rest }))

/-! ### The cycle -/

/-- A step runs the decoded instruction: when `STATE = RUNNING`, the host has no request, CHECK stops
nothing and the Word at `PC` decodes to `i`, the step is `exec i` with that Word in `IR`
(40_dispatch_fsm R111). `exec` is EXECUTE with the ADVANCE phase or the fault entry after it (log 19). The
same of a Word that decodes to an operation outside the reference set (log 4). -/
def Obligations.StepRunsTheDecodedInstruction : Prop :=
  ∀ (s : State) (rest : List (Option HostEvent)) (i : Instr),
    s.fsm = .running → s.NoRequest rest → s.Unchecked → s.pc < s.cfg.memWords →
    (decodeWith s.cfg.optable (s.mem.read s.pc) = .instr i →
      step s = exec i { s with host := rest, ir := s.mem.read s.pc }) ∧
    ∀ (n : Nat) (halt : Bool) (x : Nat),
      decodeWith s.cfg.optable (s.mem.read s.pc) = .other n halt x →
      step s = .next (execOther n halt x { s with host := rest, ir := s.mem.read s.pc })

/-- CHECK (40_dispatch_fsm R112): in `RUN` mode first `CANCEL`, then the armed breakpoint at `PC`; either ends the
cycle before anything is fetched and changes only `STATE` and `STOP`. In `STEP` mode it tests nothing. -/
def Obligations.CheckStopsBeforeFetch : Prop :=
  ∀ (s : State) (rest : List (Option HostEvent)), s.fsm = .running → s.NoRequest rest →
    (s.mode = .run → s.cancel = true →
      step s = .next { s with host := rest, fsm := .ready, stop := .cancelled }) ∧
    (s.mode = .run → s.cancel = false → (s.pc, true) ∈ s.breakpoints →
      step s = .next { s with host := rest, fsm := .ready, stop := .breakpoint }) ∧
    (s.mode = .step → check s = none) ∧
    (s.mode = .run → s.cancel = false → (s.pc, true) ∉ s.breakpoints → check s = none)

/-- FETCH (40_dispatch_fsm R113; 20_memory R66): past memory an `AddressFault` with no Word, `IR` not
written; else `IR <- M[PC]`. -/
def Obligations.FetchReadsAtPcOrFaults : Prop :=
  ∀ (s : State) (rest : List (Option HostEvent)), s.fsm = .running → s.NoRequest rest →
    s.Unchecked →
    (s.cfg.memWords ≤ s.pc → fetch s = .addressFault s.pc ∧
      step s = .next (({ s with host := rest } : State).faultedWith .addressFault none)) ∧
    (s.pc < s.cfg.memWords → fetch s = .ok { s with ir := s.mem.read s.pc })

/-- DECODE (40_dispatch_fsm R114; 30_encoding R74): a pair `(OP, MOD)` without an entry in the table raises
`DecodeFault` with the Word `IR`, and changes nothing but the record of it. -/
def Obligations.MissingEntryFaults : Prop :=
  ∀ (s : State) (rest : List (Option HostEvent)), s.fsm = .running → s.NoRequest rest →
    s.Unchecked → s.pc < s.cfg.memWords →
    (∀ r ∈ s.cfg.optable,
      ¬ (r.op = opField (s.mem.read s.pc) ∧ r.mod = modField (s.mem.read s.pc))) →
    step s = .next (({ s with host := rest, ir := s.mem.read s.pc } : State).faultedWith
      .decodeFault (some (s.mem.read s.pc)))

/-- The fault entry (60_exceptions R207): whenever a cycle ends in `FAULTED`, the record holds the kind of
the phase that faulted, the `PC` of the instruction, and `IR` if the fetch completed, else nothing; `STOP` says
so; `PC` and `ICOUNT` keep their values, and there is no TraceRecord. -/
def Obligations.FaultEntryWritesTheRecord : Prop :=
  ∀ (s s' : State) (rest : List (Option HostEvent)), s.fsm = .running → s.NoRequest rest →
    step s = .next s' → s'.fsm = .faulted →
    s'.stop = .fault ∧ s'.faultPc = s.pc ∧ s'.pc = s.pc ∧ s'.icount = s.icount ∧
    s'.trace = s.trace ∧
    (s.cfg.memWords ≤ s.pc → s'.faultKind = some .addressFault ∧ s'.faultWord = none ∧
      s'.ir = s.ir) ∧
    (s.pc < s.cfg.memWords → s'.ir = s.mem.read s.pc ∧ s'.faultWord = some (s.mem.read s.pc) ∧
      ((∃ why, decodeWith s.cfg.optable s'.ir = .reject why) →
        s'.faultKind = some .decodeFault) ∧
      ((∀ why, decodeWith s.cfg.optable s'.ir ≠ .reject why) →
        s'.faultKind = some .addressFault ∨ s'.faultKind = some .deviceFault))

/-- Faults are precise (60_exceptions R208): a cycle that ends in `FAULTED` changes nothing but `IR`, `STATE`,
`STOP`, the fault record, and what device operations it had performed, which of the instructions only
`INP`, `OUT` and `PRT` perform (and an operation outside the reference set may, 30_encoding R75). -/
def Obligations.FaultsArePrecise : Prop :=
  ∀ (s s' : State) (rest : List (Option HostEvent)), s.fsm = .running → s.NoRequest rest →
    step s = .next s' → s'.fsm = .faulted →
    s' = { s with
      host := rest, ir := s'.ir, fsm := .faulted, stop := .fault
      faultKind := s'.faultKind, faultPc := s'.faultPc, faultWord := s'.faultWord
      slots := s'.slots, devOps := s'.devOps } ∧
    s.devOps <+: s'.devOps ∧
    ((∀ n halt x, decodeWith s.cfg.optable (s.mem.read s.pc) ≠ .other n halt x) →
      (∀ i, decodeWith s.cfg.optable (s.mem.read s.pc) = .instr i →
        i.operation ≠ .inp ∧ i.operation ≠ .out ∧ i.operation ≠ .prt) →
      s'.slots = s.slots ∧ s'.devOps = s.devOps)

/-- `ICOUNT` (10_state R26): a cycle adds one exactly if it completes an instruction, the halt instruction
included; a cycle that ends in a fault, a breakpoint stop or a cancel stop does not; and no other step but a
Reset, which clears it, changes it. -/
def Obligations.IcountCountsCompletedInstructions : Prop :=
  ∀ s s' : State, s.StopAgrees → step s = .next s' →
    (∀ rest, s.fsm = .running → s.NoRequest rest →
      (s'.stop = .fault ∨ s'.stop = .breakpoint ∨ s'.stop = .cancelled →
        s'.icount = s.icount) ∧
      (s'.stop = .none ∨ s'.stop = .stepDone ∨ s'.stop = .halt →
        s'.icount = s.icount + 1)) ∧
    (∀ e rest, s.Takes e rest →
      (e = .reset → s'.icount = 0) ∧ (e ≠ .reset → s'.icount = s.icount)) ∧
    (s.fsm ≠ .running → (∀ e rest, ¬ s.Takes e rest) → s'.icount = s.icount)

/-- The trace (40_dispatch_fsm R119): a cycle that completes an instruction emits one TraceRecord if
`TRACE_EN`, with the address it was fetched from, its Word and the registers after it; every other cycle, and
every cycle with `TRACE_EN` clear, emits none. -/
def Obligations.OneTraceRecordPerInstruction : Prop :=
  ∀ (s s' : State) (rest : List (Option HostEvent)), s.fsm = .running → s.NoRequest rest →
    step s = .next s' →
    (s'.icount = s.icount + 1 → s.traceEn = true →
      s'.trace = s.trace ++ [⟨s.pc, s'.ir, s'.pc, s'.a, s'.b, s'.icount⟩] ∧
        s'.ir = s.mem.read s.pc) ∧
    (s'.icount = s.icount ∨ s.traceEn = false → s'.trace = s.trace)

/-- Who writes what (10_state R21, R22, R34, R44; 44_io R190): an instruction that is not named for an
element leaves it as it was, and none writes the parameters, `IR`, `MODE`, the fault record of a completed
cycle or an input of the host but for the endpoints' scripts. -/
def Obligations.OnlyTheNamedInstructionsWrite : Prop :=
  ∀ (i : Instr) (s t : State), exec i s = .next t →
    (i.operation ∉ [.lda, .xab, .add, .sub, .mul, .inp] → t.a = s.a) ∧
    (i.operation ∉ [.ldb, .xab, .mul] → t.b = s.b) ∧
    (i.operation ∉ [.sta, .stb] → ∀ x, t.mem.read x = s.mem.read x) ∧
    (i.operation ∉ [.inp, .out, .prt] → t.slots = s.slots ∧ t.devOps = s.devOps) ∧
    (i.operation ≠ .hlt → t.haltAddr = s.haltAddr) ∧
    (i.operation ∉ [.jmp, .jaz, .jan] → t.fsm ≠ .faulted → t.pc = s.pc + 1) ∧
    (t.fsm ≠ .faulted →
      t.faultKind = s.faultKind ∧ t.faultPc = s.faultPc ∧ t.faultWord = s.faultWord) ∧
    t.cfg = s.cfg ∧ t.ir = s.ir ∧ t.mode = s.mode ∧ t.breakpoints = s.breakpoints ∧
    t.traceEn = s.traceEn ∧ t.cancel = s.cancel ∧ t.host = s.host ∧ t.waiting = s.waiting ∧
    t.replies = s.replies

/-- A store is seen by the very next fetch, and does not change the instruction in progress
(20_memory R63). -/
def Obligations.NextFetchSeesTheStore : Prop :=
  ∀ (s t : State) (addr : Nat), addr < s.cfg.memWords → s.pc + 1 = addr →
    (exec (.sta addr) s = .next t → fetch t = .ok { t with ir := s.a } ∧ t.ir = s.ir) ∧
    (exec (.stb addr) s = .next t → fetch t = .ok { t with ir := s.b } ∧ t.ir = s.ir)

/-! ### The whole machine -/

/-- The invariant of the machine (Safety.lean, `State.Good`): legal parameters (00_scope R5, R6; 30_encoding R76),
`PC` in `0..AMOD` (10_state R24), `STOP` and the records agreeing with `STATE` (R30, R32, R33, R42), the canonical
forms. Every step keeps it. -/
def Obligations.EveryStepKeepsTheInvariant : Prop :=
  ∀ s s' : State, s.Good → step s = .next s' → s'.Good

/-- The machine after reset meets the invariant (10_state R39): the reference parameters are legal, and the
reference table runs the example of 30_encoding R76. That the records hold placeholders (log 13), and that the
breakpoint set is empty and three slots are there (log 11), is the model's choice. -/
def Obligations.ResetMeetsTheInvariant : Prop := State.reset.Good

/-- Every step has a next state: there is no stuck outcome and no undefined one (00_scope R10;
93_implementation_defined section 5). The port's answers past a script are free values (log 10); waiting with no
request is the model's step (log 9). -/
def Obligations.EveryStepHasANextState : Prop := ∀ s : State, ∃ s', step s = .next s'

/-- The parameters, and with them the one overflow policy, hold for the whole lifetime of the machine: no
step changes them, nor the number of slots (00_scope R5; 43_arithmetic R161). That they stand in the state at
all is the model's choice (log 3). -/
def Obligations.NoStepChangesTheParameters : Prop :=
  ∀ s s' : State, step s = .next s' → s'.cfg = s.cfg ∧ s'.slots.length = s.slots.length

/-- The binding of a slot is changed only by the host's attach and detach, never during a cycle
(44_io R180; 40_dispatch_fsm R110); attach binds a slot that is not bound, detach unbinds a slot, and neither
changes another slot or anything else. That attach on a bound slot, or either on a number that names no slot, does
no more than answer, and the answers, are the model's choice (log 17, log 14). -/
def Obligations.OnlyAttachAndDetachRebind : Prop :=
  (∀ (s s' : State) (n : Nat), step s = .next s' → devBound s' n ≠ devBound s n →
    ∃ rest, (∃ ep, s.Takes (.attach n ep) rest) ∨ s.Takes (.detach n) rest) ∧
  (∀ (s : State) (n : Nat) (ep : Endpoint) (rest : List (Option HostEvent)),
    s.Takes (.attach n ep) rest →
    (s.slots[n]? = some none → ∃ t, step s = .next t ∧
      t = { s with host := rest, slots := s.slots.set n (some ep) } ∧
      devBound t n = true ∧ ∀ k, k ≠ n → t.slots[k]? = s.slots[k]?) ∧
    (devBound s n = true → step s = .next
      { s with host := rest, replies := s.replies ++ [.deviceAlreadyBound n] }) ∧
    (s.slots.length ≤ n → step s = .next
      { s with host := rest, replies := s.replies ++ [.noSuchSlot n] })) ∧
  (∀ (s : State) (n : Nat) (rest : List (Option HostEvent)), s.Takes (.detach n) rest →
    (n < s.slots.length → ∃ t, step s = .next t ∧
      t = { s with host := rest, slots := s.slots.set n none } ∧
      devBound t n = false ∧ ∀ k, k ≠ n → t.slots[k]? = s.slots[k]?) ∧
    (s.slots.length ≤ n → step s = .next
      { s with host := rest, replies := s.replies ++ [.noSuchSlot n] }))

/-- setBreak, clearBreak, enableTrace, disableTrace and the changes of `CANCEL` (40_dispatch_fsm R107, R109;
10_state R36): each, taken in any state, sets the one input it names, and nothing else changes. That a setBreak replaces
the pair of its address is the model's choice (log 18); it is stated of a breakpoint set in canonical form, which every
step keeps. -/
def Obligations.HostInputsAreSet : Prop :=
  ∀ (s : State) (rest : List (Option HostEvent)),
    (∀ on, s.Takes (.setTrace on) rest → step s = .next { s with host := rest, traceEn := on }) ∧
    (∀ on, s.Takes (.setCancel on) rest → step s = .next { s with host := rest, cancel := on }) ∧
    (∀ addr armed, s.Takes (.setBreak addr armed) rest → ∃ l,
      step s = .next { s with host := rest, breakpoints := l } ∧ (addr, armed) ∈ l ∧
      (Sorted.Rising s.breakpoints → ∀ x flag,
        (x, flag) ∈ l ↔ (x = addr ∧ flag = armed) ∨ (x ≠ addr ∧ (x, flag) ∈ s.breakpoints))) ∧
    (∀ addr, s.Takes (.clearBreak addr) rest → ∃ l,
      step s = .next { s with host := rest, breakpoints := l } ∧
      ∀ x flag, (x, flag) ∈ l ↔ x ≠ addr ∧ (x, flag) ∈ s.breakpoints)

/-- What each part of an operation outside the reference set does (30_encoding R75): a memory read gives the
Word or an `AddressFault` (20_memory R52), a test of a binding its answer, a device operation the endpoint's answer
(44_io R181 to R183) with the operation on record, or on an unbound slot a `DeviceFault` (60_exceptions R202); a fault
is the end, and so is a result. That the operation goes on after an answer `fail` as it says is the model's choice
(log 24); the answers are those of the script or past it (log 10). -/
def Obligations.OtherOperationsGoOnAsTheySay : Prop :=
  ∀ s : State,
    (∀ kind, reachOther (.fault kind) s =
      .fault (match kind with | .address => .addressFault | .device => .deviceFault) s) ∧
    (∀ r, reachOther (.finish r) s = .result r s) ∧
    (∀ x next, reachOther (.memRead x next) s =
      if x < s.cfg.memWords then reachOther (next (s.mem.read x)) s else .fault .addressFault s) ∧
    (∀ n next, reachOther (.devBound n next) s = reachOther (next (devBound s n)) s) ∧
    (∀ n, s.slots[n]? = none ∨ s.slots[n]? = some none →
      (∀ next, reachOther (.devRead n next) s = .fault .deviceFault s) ∧
      (∀ v next, reachOther (.devWrite n v next) s = .fault .deviceFault s) ∧
      ∀ c next, reachOther (.devWriteChar n c next) s = .fault .deviceFault s) ∧
    ∀ (n : Nat) (ep : Endpoint), s.slots[n]? = some (some ep) →
      (∀ answer next, answer = ep.reads.head?.getD (Config.drawRead n s.devOps.length) →
        reachOther (.devRead n next) s = reachOther (next answer) { s with
          slots := s.slots.set n (some { ep with reads := ep.reads.tail })
          devOps := s.devOps ++ [.read n answer] }) ∧
      ∀ ok, ok = ep.writes.head?.getD (Config.drawWrite n s.devOps.length) →
        (∀ v next, reachOther (.devWrite n v next) s = reachOther (next ok) { s with
          slots := s.slots.set n (some { ep with writes := ep.writes.tail })
          devOps := s.devOps ++ [.write n (ovf s.cfg.ovf v) ok] }) ∧
        ∀ c next, reachOther (.devWriteChar n c next) s = reachOther (next ok) { s with
          slots := s.slots.set n (some { ep with writes := ep.writes.tail })
          devOps := s.devOps ++ [.writeChar n c.val ok] }

/-- The operation contract (30_encoding R75), of every operation outside the reference set. Followed to its end, it
has changed nothing but what device operations change, and every binding stays. If the end is a fault, the cycle takes
it; it is an `AddressFault` or a `DeviceFault`. If it is a result, the cycle completes with its `A` and `B`, brought
into range by `ovf` (43_arithmetic R161), its store, if there is one, in the Word it names and no other, and its jump
target or the next address in `PC`, in `HALTED` exactly if it has the mark; a store past memory is an `AddressFault`
and changes nothing more. And it reads nothing else: on a state that agrees in the parameters, `A`, `B`, `PC`, memory
and the device port, and differs in all that the contract forbids it to read, it comes to the same end. Which
operation a number of the table stands for is a free value (log 4). -/
def Obligations.OtherOperationsKeepTheContract : Prop :=
  ∀ (act : OpAct) (halt : Bool) (s : State),
    (∀ kind t, reachOther act s = .fault kind t →
      (kind = .addressFault ∨ kind = .deviceFault) ∧
      performOther halt act s = t.faultedWith kind (some s.ir)) ∧
    (∀ r t, reachOther act s = .result r t →
      (∀ x v, r.store = some (x, v) → s.cfg.memWords ≤ x →
        performOther halt act s = t.faultedWith .addressFault (some s.ir)) ∧
      ((∀ x v, r.store = some (x, v) → x < s.cfg.memWords) → ∃ (m : Memory) (u : State),
        u = { t with a := ovf s.cfg.ovf r.a, b := ovf s.cfg.ovf r.b, mem := m } ∧
        (∀ y, m.read y = match r.store with
          | none => s.mem.read y
          | some (x, v) => if y = x then ovf s.cfg.ovf v else s.mem.read y) ∧
        performOther halt act s = if halt then u.haltedTo ((r.target.map (·.val)).getD (s.pc + 1))
          else u.retiredTo ((r.target.map (·.val)).getD (s.pc + 1)))) ∧
    (∀ t, (∃ kind, reachOther act s = .fault kind t) ∨ (∃ r, reachOther act s = .result r t) →
      (∃ (slots : List (Option Endpoint)) (ops : List DevOp), slots.length = s.slots.length ∧
        t = { s with slots := slots, devOps := s.devOps ++ ops }) ∧
      ∀ k, devBound t k = devBound s k) ∧
    (∀ c d : State, d = { c with
        cfg := s.cfg, a := s.a, b := s.b, pc := s.pc, mem := s.mem
        slots := s.slots, devOps := s.devOps } →
      (∀ kind t, reachOther act s = .fault kind t →
        reachOther act d = .fault kind { d with slots := t.slots, devOps := t.devOps }) ∧
      (∀ r t, reachOther act s = .result r t →
        reachOther act d = .result r { d with slots := t.slots, devOps := t.devOps })) ∧
    ∀ n addr : Nat, execOther n halt addr s =
      performOther halt (Config.otherOperation n s.cfg.ovf s.a s.b s.pc addr) s

/-- What ends a run and what starts one (40_dispatch_fsm R101, R124; 60_exceptions R209, R218). A machine that
is not `RUNNING` leaves its state only by Run, Step or Reset of the host. A `RUNNING` one leaves it only by Reset,
a stop in CHECK, a completed Step, the halt operation or a fault. The halt operation is `HLT`, or one outside the
reference set with the mark (30_encoding R75; log 4). -/
def Obligations.StateChangesOnlyByTheTable : Prop :=
  ∀ s s' : State, step s = .next s' → s'.fsm ≠ s.fsm →
    (s.fsm ≠ .running → ∃ rest,
      (∃ a, s.Takes (.run a) rest ∧ s'.fsm = .running ∧ s'.mode = .run) ∨
      (s.Takes .step rest ∧ s'.fsm = .running ∧ s'.mode = .step) ∨
      (s.Takes .reset rest ∧ s'.fsm = .ready)) ∧
    (s.fsm = .running →
      (∃ rest, s.Takes .reset rest ∧ s'.fsm = .ready) ∨
      ((∃ rest, s.NoRequest rest) ∧
        ((s'.fsm = .ready ∧ s'.stop = .cancelled ∧ s.mode = .run ∧ s.cancel = true) ∨
         (s'.fsm = .ready ∧ s'.stop = .breakpoint ∧ s.mode = .run ∧
           (s.pc, true) ∈ s.breakpoints) ∨
         (s'.fsm = .ready ∧ s'.stop = .stepDone ∧ s.mode = .step) ∨
         (s'.fsm = .halted ∧ s'.stop = .halt ∧ s'.haltAddr = s'.pc ∧
           ((s'.pc = s.pc + 1 ∧
               ∃ x, decodeWith s.cfg.optable (s.mem.read s.pc) = .instr (.hlt x)) ∨
             ∃ n x, decodeWith s.cfg.optable (s.mem.read s.pc) = .other n true x)) ∨
         (s'.fsm = .faulted ∧ s'.stop = .fault))))

/-- Tracing is observational, never fed back into execution (40_dispatch_fsm R119; 60_exceptions R217): two
states that differ only in `TRACE_EN` and the records emitted take steps to states that differ only there. -/
def Obligations.TracingIsNeverFedBack : Prop :=
  ∀ (s s' : State) (on : Bool) (records : List TraceRecord), step s = .next s' →
    ∃ (on' : Bool) (records' : List TraceRecord),
      step { s with traceEn := on, trace := records } =
        .next { s' with traceEn := on', trace := records' }

/-- Stepping computes what a run computes (60_exceptions R217): `n` cycles of a run that still runs, so that no cancel
and no breakpoint has stopped it, and `n` Step requests each followed by its one cycle, reach the same state but for
`MODE`, `STATE`, `STOP` and the answers to the `n` requests. -/
def Obligations.SteppingComputesWhatARunComputes : Prop :=
  ∀ (n : Nat) (s s' : State), s.fsm = .running → s.mode = .run → s.host = [] →
    s.waiting = [] → s.HaltRecordAgrees → s.FaultRecordAgrees → Host.Core.run core n s = .next s' → s'.fsm = .running →
    Host.Core.run core (2 * n)
        { s with
          fsm := .ready, mode := .step, stop := .stepDone
          host := (List.replicate n [some HostEvent.step, none]).flatten } =
      .next { s' with
        fsm := .ready, mode := .step, stop := .stepDone
        replies := s.replies ++ List.replicate n .done }

/-- A fault whose cause is not removed repeats, with the same record (60_exceptions R209): after a cycle that
faulted, a Step request and its cycle lead to the same state, but for `MODE` and the answer to the request. So it is if
the cycle performed no device operation, and of any fault if the endpoints answer as they did (their scripts, and the
count their free answers are drawn with, are put back: log 10, log 14). And a `PRT` that ran past memory, its endpoint
answering `ok` again, sends its codes again and faults again. -/
def Obligations.RetriedFaultRepeats : Prop :=
  ∀ s s' : State, s.fsm = .running → s.Unchecked → s.host = [] → s.waiting = [] →
    s.haltAddr = 0 → step s = .next s' → s'.fsm = .faulted →
    (s'.devOps = s.devOps → Host.Core.run core 2 { s' with host := [some .step] } =
      .next { s' with mode := .step, replies := s'.replies ++ [.done] }) ∧
    Host.Core.run core 2
        { s' with host := [some .step], slots := s.slots, devOps := s.devOps } =
      .next { s' with mode := .step, replies := s'.replies ++ [.done] } ∧
    ∀ (addr : Nat) (ep : Endpoint) (codes : List Nat), s.pc < s.cfg.memWords →
      decodeWith s.cfg.optable (s.mem.read s.pc) = .instr (.prt addr) →
      s.slots[Config.console]? = some (some ep) →
      TextFrom s.mem s.cfg.memWords addr codes false →
      (∀ i, i < 2 * codes.length → s.consoleAnswer ep i = true) →
      Host.Core.run core 2 { s' with host := [some .step] } = .next { s' with
        mode := .step, replies := s'.replies ++ [.done]
        slots := s.slots.set Config.console
          (some { ep with writes := ep.writes.drop (2 * codes.length) })
        devOps := s'.devOps ++ codes.map (fun c => .writeChar Config.console c true) }

/-! ### Reset and the host's requests -/

/-- The machine after reset: the table of 10_state R39. The placeholders of the records (`haltAddr`, `faultKind`,
`faultPc`, `faultWord`), which the table allows and does not fix, are the model's choice (log 13). -/
def Obligations.ResetValues : Prop :=
  (∀ addr, State.reset.mem.read addr = Word.zero) ∧
  State.reset.a = Word.zero ∧ State.reset.b = Word.zero ∧ State.reset.pc = 0 ∧
  State.reset.icount = 0 ∧ State.reset.ir = Word.zero ∧ State.reset.fsm = .ready ∧
  State.reset.mode = .step ∧ State.reset.stop = .none ∧ State.reset.haltAddr = 0 ∧
  State.reset.faultKind = none ∧ State.reset.faultPc = 0 ∧ State.reset.faultWord = none

/-- The Reset request (40_dispatch_fsm R104), in any state: every element of 10_state R39 to its reset value;
the host's inputs and the bindings are not touched. That the parameters, the schedule and the outputs stay is the
model's (log 3, log 7, log 14). -/
def Obligations.ResetRequestClearsTheBlock : Prop :=
  ∀ (s : State) (rest : List (Option HostEvent)), s.Takes .reset rest →
    step s = .next { State.reset with
      cfg := s.cfg, breakpoints := s.breakpoints, traceEn := s.traceEn, cancel := s.cancel
      slots := s.slots, host := rest, waiting := s.waiting, devOps := s.devOps, trace := s.trace
      replies := s.replies ++ [.done] }

/-- Run(`a`) (40_dispatch_fsm R105), accepted in all four states: `PC`, `MODE`, `STOP`, `STATE` and the
records are written, nothing else of the block. The answer on record is the model's (log 14). -/
def Obligations.RunRequestStartsARun : Prop :=
  ∀ (s : State) (a : Fin Config.amod) (rest : List (Option HostEvent)), s.Takes (.run a) rest →
    step s = .next { s with
      host := rest, replies := s.replies ++ [.done]
      pc := a.val, mode := .run, stop := .none, fsm := .running
      haltAddr := 0, faultKind := none, faultPc := 0, faultWord := none }

/-- Step (40_dispatch_fsm R106): accepted in `READY`, `HALTED` and `FAULTED`, where it leaves `PC`; not accepted
in `RUNNING`, where nothing of the block changes. The answer on record is the model's (log 14). -/
def Obligations.StepRequestStartsOneCycle : Prop :=
  ∀ (s : State) (rest : List (Option HostEvent)), s.Takes .step rest →
    (s.fsm ≠ .running → step s = .next { s with
      host := rest, replies := s.replies ++ [.done]
      mode := .step, stop := .none, fsm := .running
      haltAddr := 0, faultKind := none, faultPc := 0, faultWord := none }) ∧
    (s.fsm = .running → step s = .next { s with
      host := rest, replies := s.replies ++ [.refused] })

/-- The status port (10_state R38): between cycles, in every state, the host gets the values of the registers,
and reading them changes nothing in the block. The record of the answer is the model's (log 14). -/
def Obligations.StatusPortReadsWithoutEffect : Prop :=
  ∀ (s : State) (rest : List (Option HostEvent)), s.Takes .status rest →
    step s = .next { s with
      host := rest
      replies := s.replies ++ [.status
        { pc := s.pc, ir := s.ir, a := s.a, b := s.b, icount := s.icount, fsm := s.fsm
          stop := s.stop, haltAddr := s.haltAddr, faultKind := s.faultKind
          faultPc := s.faultPc, faultWord := s.faultWord }] }

/-! ### The instructions -/

/-- `HLT` (41_control R140; 40_dispatch_fsm R117), in either mode: it is counted, `PC` points past it,
`HALT_ADDR` is that `PC`. `NOP` (41_control R141) only advances. -/
def Obligations.HltHaltsAndNopAdvances : Prop :=
  ∀ (x : Nat) (s : State),
    exec (.hlt x) s = .next { s with
      pc := s.pc + 1
      icount := s.icount + 1
      trace := if s.traceEn then s.trace ++ [⟨s.pc, s.ir, s.pc + 1, s.a, s.b, s.icount + 1⟩] else s.trace
      fsm := .halted, stop := .halt, haltAddr := s.pc + 1 } ∧
    exec (.nop x) s = .next (s.retiredTo (s.pc + 1))

/-- `JMP` (41_control R142), also to an address past memory, since the target is not checked; `JAZ` and `JAN`
(R143, R144): taken iff `A = 0`, iff `A < 0`. -/
def Obligations.JumpsSetThePc : Prop :=
  ∀ (target : Nat) (s : State),
    exec (.jmp target) s = .next (s.retiredTo target) ∧
    exec (.jaz target) s = .next (s.retiredTo (if s.a.val = 0 then target else s.pc + 1)) ∧
    exec (.jan target) s = .next (s.retiredTo (if s.a.val < 0 then target else s.pc + 1))

/-- `LDA` and `LDB` (42_load_store R150, R151). -/
def Obligations.LoadsCopyTheWord : Prop :=
  ∀ (addr : Nat) (s : State), addr < s.cfg.memWords →
    exec (.lda addr) s =
      .next (({ s with a := s.mem.read addr } : State).retiredTo (s.pc + 1)) ∧
    exec (.ldb addr) s =
      .next (({ s with b := s.mem.read addr } : State).retiredTo (s.pc + 1))

/-- `STA` and `STB` (42_load_store R152, R153): the Word at the effective address takes the register, every
other Word reads as before, and nothing else changes. -/
def Obligations.StoresChangeOneWord : Prop :=
  ∀ (addr : Nat) (s : State), addr < s.cfg.memWords →
    (∃ m : Memory, exec (.sta addr) s = .next (({ s with mem := m } : State).retiredTo (s.pc + 1)) ∧
      m.read (effectiveAddress addr) = s.a ∧
      ∀ x, x ≠ effectiveAddress addr → m.read x = s.mem.read x) ∧
    (∃ m : Memory, exec (.stb addr) s = .next (({ s with mem := m } : State).retiredTo (s.pc + 1)) ∧
      m.read (effectiveAddress addr) = s.b ∧
      ∀ x, x ≠ effectiveAddress addr → m.read x = s.mem.read x)

/-- `XAB` (42_load_store R154): the registers are exchanged, and two in a row restore both. -/
def Obligations.XabExchanges : Prop :=
  ∀ (x : Nat) (s : State),
    exec (.xab x) s = .next (({ s with a := s.b, b := s.a } : State).retiredTo (s.pc + 1)) ∧
    ∀ (y : Nat) (t u : State), exec (.xab x) s = .next t → exec (.xab y) t = .next u →
      u.a = s.a ∧ u.b = s.b

/-- `ADD` and `SUB` (43_arithmetic R164, R165), under either policy: the exact sum or difference where it is a
Word, and `ovf` of it where not, which R162 and R163 give. -/
def Obligations.AddAndSubUseTheOverflowPolicy : Prop :=
  ∀ (addr : Nat) (s : State), addr < s.cfg.memWords →
    ∃ v w : Word,
      exec (.add addr) s = .next (({ s with a := v } : State).retiredTo (s.pc + 1)) ∧
      exec (.sub addr) s = .next (({ s with a := w } : State).retiredTo (s.pc + 1)) ∧
      v = ovf s.cfg.ovf (s.a.val + (s.mem.read addr).val) ∧
      w = ovf s.cfg.ovf (s.a.val - (s.mem.read addr).val) ∧
      (Word.InRange (s.a.val + (s.mem.read addr).val) →
        v.val = s.a.val + (s.mem.read addr).val) ∧
      (Word.InRange (s.a.val - (s.mem.read addr).val) →
        w.val = s.a.val - (s.mem.read addr).val)

/-- `MUL` (43_arithmetic R166), under either policy: the halves of the exact product, each with its sign,
and together the product. -/
def Obligations.MulGivesTheExactDoubleProduct : Prop :=
  ∀ (addr : Nat) (s : State), addr < s.cfg.memWords →
    ∃ hi lo : Word,
      exec (.mul addr) s = .next (({ s with a := hi, b := lo } : State).retiredTo (s.pc + 1)) ∧
      hi.val = (s.a.val * (s.mem.read addr).val).sign *
        ((s.a.val * (s.mem.read addr).val).natAbs / 100000000 : Nat) ∧
      lo.val = (s.a.val * (s.mem.read addr).val).sign *
        ((s.a.val * (s.mem.read addr).val).natAbs % 100000000 : Nat) ∧
      s.a.val * (s.mem.read addr).val = hi.val * 100000000 + lo.val

/-- `INP` (44_io R185): on a bound slot whose endpoint answers with a Word, `A` takes it. `OUT` (R186): on a
bound slot whose endpoint answers `ok`, the slot receives the Word `A`. The answer is the next of the script, past its
end any (log 10). -/
def Obligations.InpAndOutUseTheDevice : Prop :=
  ∀ (n : Nat) (s : State) (ep : Endpoint), s.slots[n]? = some (some ep) →
    (∀ v : Word, ep.reads.head? = some (some v) ∨
        (ep.reads = [] ∧ Config.drawRead n s.devOps.length = some v) →
      exec (.inp n) s = .next (({ s with
        a := v
        slots := s.slots.set n (some { ep with reads := ep.reads.tail })
        devOps := s.devOps ++ [.read n (some v)] } : State).retiredTo (s.pc + 1))) ∧
    (ep.writes.head? = some true ∨
        (ep.writes = [] ∧ Config.drawWrite n s.devOps.length = true) →
      exec (.out n) s = .next (({ s with
        slots := s.slots.set n (some { ep with writes := ep.writes.tail })
        devOps := s.devOps ++ [.write n s.a true] } : State).retiredTo (s.pc + 1)))

/-- `PRT` completes (44_io R187, R189): with the console bound, a text that meets `END_CODE`, and an endpoint that
answers `ok` to every code, from its script or past it (log 10), the console receives the codes of the text in order,
and nothing else changes. The end of the text rests on `END_CODE` (92_eei_decisions D23). -/
def Obligations.PrtPrintsTheText : Prop :=
  ∀ (addr : Nat) (s : State) (ep : Endpoint) (codes : List Nat),
    s.slots[Config.console]? = some (some ep) →
    TextFrom s.mem s.cfg.memWords addr codes true →
    (∀ i, i < codes.length → s.consoleAnswer ep i = true) →
    exec (.prt addr) s = .next (({ s with
      slots := s.slots.set Config.console (some { ep with writes := ep.writes.drop codes.length })
      devOps := s.devOps ++ codes.map (fun c => .writeChar Config.console c true) } :
        State).retiredTo (s.pc + 1))

/-- `PRT` of a text that runs past the last Word (44_io R187; 60_exceptions R200 (d)): `AddressFault` after all
its codes were sent, which stay sent. The answers are those of the script or past it (log 10). -/
def Obligations.PrtPastMemoryFaults : Prop :=
  ∀ (addr : Nat) (s : State) (ep : Endpoint) (codes : List Nat),
    s.slots[Config.console]? = some (some ep) →
    TextFrom s.mem s.cfg.memWords addr codes false →
    (∀ i, i < codes.length → s.consoleAnswer ep i = true) →
    exec (.prt addr) s = .next (({ s with
      slots := s.slots.set Config.console (some { ep with writes := ep.writes.drop codes.length })
      devOps := s.devOps ++ codes.map (fun c => .writeChar Config.console c true) } :
        State).faultedWith .addressFault (some s.ir))

/-- `PRT` whose endpoint fails on a character (44_io R187; 60_exceptions R208): `DeviceFault`; the characters
before it stay sent, none after it is. The answers are those of the script or past it (log 10). -/
def Obligations.PrtEndpointFailureFaults : Prop :=
  ∀ (addr : Nat) (s : State) (ep : Endpoint) (sent unsent : List Nat) (c : Nat) (met : Bool),
    s.slots[Config.console]? = some (some ep) →
    TextFrom s.mem s.cfg.memWords addr (sent ++ c :: unsent) met →
    (∀ i, i < sent.length → s.consoleAnswer ep i = true) →
    s.consoleAnswer ep sent.length = false →
    exec (.prt addr) s = .next (({ s with
      slots := s.slots.set Config.console
        (some { ep with writes := ep.writes.drop (sent.length + 1) })
      devOps := s.devOps ++ sent.map (fun c => .writeChar Config.console c true) ++
        [.writeChar Config.console c false] } : State).faultedWith .deviceFault (some s.ir))

/-- `PRT` always ends, and performs at most four device operations for each Word from its text address on
(44_io R187; 70_reset_and_hazards R243): whatever the endpoint answers, the codes it hands to the console are the first
codes of its text, in order. The text is the one text there is at that address. -/
def Obligations.PrtSendsABoundedText : Prop :=
  ∀ (addr : Nat) (s : State), ∃ t, exec (.prt addr) s = .next t ∧
    t.devOps.length ≤ s.devOps.length + 4 * (s.cfg.memWords - addr) ∧
    ∃ (codes : List Nat) (met : Bool) (answers : List Bool),
      TextFrom s.mem s.cfg.memWords addr codes met ∧
      (∀ codes' met', TextFrom s.mem s.cfg.memWords addr codes' met' →
        codes' = codes ∧ met' = met) ∧
      answers.length ≤ codes.length ∧
      t.devOps = s.devOps ++
        List.zipWith (fun c ok => DevOp.writeChar Config.console c ok) codes answers

/-- The operand `AddressFault` (60_exceptions R200 (b), (c), R208): with `ADDR >= MEM_WORDS` the seven
memory-reference instructions fault, and nothing but the record changes. -/
def Obligations.OperandPastMemoryFaults : Prop :=
  ∀ (addr : Nat) (s : State), s.cfg.memWords ≤ addr →
    ∀ i ∈ [Instr.lda addr, .ldb addr, .sta addr, .stb addr, .add addr, .sub addr, .mul addr],
      exec i s = .next (s.faultedWith .addressFault (some s.ir))

/-- I/O on a slot that is unbound or does not exist (44_io R180, R185 to R187; 60_exceptions R202): `DeviceFault`,
nothing sent and nothing else changed. -/
def Obligations.UnboundSlotFaults : Prop :=
  ∀ (n : Nat) (s : State), s.slots[n]? = none ∨ s.slots[n]? = some none →
    exec (.inp n) s = .next (s.faultedWith .deviceFault (some s.ir)) ∧
    exec (.out n) s = .next (s.faultedWith .deviceFault (some s.ir)) ∧
    (n = Config.console → ∀ addr,
      exec (.prt addr) s = .next (s.faultedWith .deviceFault (some s.ir)))

/-- An endpoint that answers `fail` (44_io R185, R186; 60_exceptions R202): `DeviceFault`, with the failed
operation on record and `A` as it was. -/
def Obligations.FailedDeviceOperationFaults : Prop :=
  ∀ (n : Nat) (s : State) (ep : Endpoint), s.slots[n]? = some (some ep) →
    (ep.reads.head? = some none ∨
        (ep.reads = [] ∧ Config.drawRead n s.devOps.length = none) →
      exec (.inp n) s = .next (({ s with
        slots := s.slots.set n (some { ep with reads := ep.reads.tail })
        devOps := s.devOps ++ [.read n none] } : State).faultedWith .deviceFault (some s.ir))) ∧
    (ep.writes.head? = some false ∨
        (ep.writes = [] ∧ Config.drawWrite n s.devOps.length = false) →
      exec (.out n) s = .next (({ s with
        slots := s.slots.set n (some { ep with writes := ep.writes.tail })
        devOps := s.devOps ++ [.write n s.a false] } : State).faultedWith
          .deviceFault (some s.ir)))

/-! ### The overflow policy -/

/-- `WRAP` (43_arithmetic R162): the low eight digits of the magnitude with the sign of the true result, and what
that is for the overflows of `ADD` and `SUB`; a zero magnitude gives `+00000000`. -/
def Obligations.WrapDropsTheCarry : Prop :=
  ∀ v : Int,
    (ovf .wrap v).val = v.sign * (v.natAbs % 100000000 : Nat) ∧
    (v.natAbs % 100000000 = 0 → ovf .wrap v = Word.zero) ∧
    (100000000 ≤ v.natAbs → v.natAbs ≤ 2 * 99999999 →
      (0 < v → (ovf .wrap v).val = v - 100000000) ∧
      (v < 0 → (ovf .wrap v).val = v + 100000000))

/-- `SATURATE` (43_arithmetic R163): the largest magnitude of the true result's sign. -/
def Obligations.SaturateSticks : Prop :=
  ∀ v : Int,
    (99999999 < v → (ovf .saturate v).val = 99999999) ∧
    (v < -99999999 → (ovf .saturate v).val = -99999999) ∧
    (-99999999 ≤ v → v ≤ 99999999 → (ovf .saturate v).val = v)

/-- Laws of the policy (43_arithmetic R169 (b), (d)): `ovf` is odd under either policy, monotone under `SATURATE`
and not under `WRAP`; and what its magnitude is. -/
def Obligations.OverflowPolicyLaws : Prop :=
  (∀ (p : OvfPolicy) (v : Int), (ovf p (-v)).val = -(ovf p v).val) ∧
  (∀ u v : Int, u ≤ v → (ovf .saturate u).val ≤ (ovf .saturate v).val) ∧
  (∃ u v : Int, u ≤ v ∧ (ovf .wrap v).val < (ovf .wrap u).val) ∧
  (∀ v : Int, (ovf .wrap v).mag = v.natAbs % 100000000 ∧
    (ovf .saturate v).mag = min v.natAbs 99999999)

/-- Under either policy, `SUB` after `ADD` of the same Word restores `A` iff the `ADD` did not overflow, and `B`
is as it was (43_arithmetic R169 (c)). -/
def Obligations.SubUndoesAddWithoutOverflow : Prop :=
  ∀ (addr : Nat) (s : State), addr < s.cfg.memWords →
    ∃ t u, exec (.add addr) s = .next t ∧ exec (.sub addr) t = .next u ∧ u.b = s.b ∧
      (u.a = s.a ↔ Word.InRange (s.a.val + (s.mem.read addr).val))
end

