-- ==== Sys2Proof/Laws/Decode.lean ====
section
/-! SUPPORT. The laws of the fields of an instruction Word, of table lookup and of the encoder. -/

namespace Sys2Proof

theorem opField_eq (w : Word) : opField w = w.mag / 1000000 % 100 := rfl

theorem modField_eq (w : Word) : modField w = w.mag / 10000 % 100 := rfl

theorem addrField_eq (w : Word) : addrField w = w.mag % 10000 := by
  simp only [addrField, digitField, pow_zero, Nat.div_one]
  rfl

theorem assemble_eq (op mod addr : Nat) : assemble op mod addr = op * 1000000 + mod * 10000 + addr :=
  rfl

theorem wmax_eq : Config.wmax = 99999999 := rfl

theorem Word.mag_lt (w : Word) : w.mag < 100000000 :=
  Nat.lt_succ_of_le (wmax_eq ▸ w.mag_le)

theorem opField_lt (w : Word) : opField w < 100 := by rw [opField_eq]; omega

theorem modField_lt (w : Word) : modField w < 100 := by rw [modField_eq]; omega

theorem addrField_lt (w : Word) : addrField w < 10000 := by rw [addrField_eq]; omega

/-- The three fields are all the digits of the magnitude (30_encoding R71). -/
theorem Word.mag_eq_assemble (w : Word) :
    w.mag = assemble (opField w) (modField w) (addrField w) := by
  have := w.mag_lt
  rw [assemble_eq, opField_eq, modField_eq, addrField_eq]
  omega

/-- The fields of a Word put together from fields. -/
theorem fields_of_mag {w : Word} {op mod addr : Nat} (ho : op < 100) (hm : mod < 100)
    (ha : addr < 10000) (h : w.mag = assemble op mod addr) :
    opField w = op ∧ modField w = mod ∧ addrField w = addr := by
  rw [assemble_eq] at h
  rw [opField_eq, modField_eq, addrField_eq, h]
  omega

theorem Word.ofInt?_eq_some {v : Int} {w : Word} : Word.ofInt? v = some w ↔ w.val = v := by
  unfold Word.ofInt?
  split_ifs with h
  · constructor
    · intro e; injection e with e; subst e; rfl
    · intro e; subst e; rfl
  · constructor
    · intro e; cases e
    · intro e; subst e; exact absurd w.inRange h

/-- Fields in range give a Word. -/
theorem Word.ofInt?_assemble {op mod addr : Nat} (ho : op < 100) (hm : mod < 100)
    (ha : addr < 10000) :
    ∃ w, Word.ofInt? (assemble op mod addr : Nat) = some w ∧ w.val = (assemble op mod addr : Nat) := by
  have h : Word.InRange (assemble op mod addr : Nat) := by
    unfold Word.InRange
    rw [wmax_eq, assemble_eq]
    omega
  exact ⟨⟨_, h⟩, dif_pos h, rfl⟩

@[simp] theorem Operation.instr_operation (o : Operation) (x : Nat) : (o.instr x).operation = o := by
  cases o <;> rfl

@[simp] theorem Operation.instr_addr (o : Operation) (x : Nat) : (o.instr x).addr = x := by
  cases o <;> rfl

@[simp] theorem Instr.operation_instr (i : Instr) : i.operation.instr i.addr = i := by
  cases i <;> rfl

/-- What the decoder answers, once for all Words (30_encoding R74). -/
theorem decodeWith_instr_iff {t : List OpRow} {w : Word} {i : Instr} :
    decodeWith t w = .instr i ↔
      0 ≤ w.val ∧ lookupOp t (opField w) (modField w) = some (.ref i.operation) ∧ i.addr = addrField w := by
  unfold decodeWith
  split_ifs with h
  · constructor
    · intro e; cases e
    · intro e; omega
  · cases hl : lookupOp t (opField w) (modField w) with
    | none => simp
    | some o =>
      cases o with
      | other n halt => simp
      | ref o =>
        simp only [Decoded.instr.injEq, Option.some.injEq, Entry.ref.injEq]
        constructor
        · intro e; subst e; simp; omega
        · rintro ⟨-, rfl, e⟩; rw [← e, Instr.operation_instr]

/-- When the decoder answers an operation outside the reference set (30_encoding R74). -/
theorem decodeWith_other_iff {t : List OpRow} {w : Word} {n : Nat} {halt : Bool} {x : Nat} :
    decodeWith t w = .other n halt x ↔
      0 ≤ w.val ∧ lookupOp t (opField w) (modField w) = some (.other n halt) ∧ x = addrField w := by
  unfold decodeWith
  split_ifs with h
  · constructor
    · intro e; cases e
    · intro e; omega
  · cases hl : lookupOp t (opField w) (modField w) with
    | none => simp
    | some o =>
      cases o with
      | ref o => simp
      | other m q =>
        simp only [Decoded.other.injEq, Option.some.injEq, Entry.other.injEq]
        constructor
        · rintro ⟨rfl, rfl, rfl⟩; exact ⟨by omega, ⟨rfl, rfl⟩, rfl⟩
        · rintro ⟨-, ⟨rfl, rfl⟩, rfl⟩; exact ⟨rfl, rfl, rfl⟩

/-- An instruction the decoder gives is well-formed. -/
theorem wellFormed_of_decode {t : List OpRow} {w : Word} {i : Instr}
    (h : decodeWith t w = .instr i) : i.WellFormed := by
  unfold Instr.WellFormed
  rw [(decodeWith_instr_iff.mp h).2.2]
  exact addrField_lt w

/-- What the encoder answers: the Word assembled from the first entry for the operation. -/
theorem encodeWith_eq_some {t : List OpRow} {i : Instr} {w : Word} :
    encodeWith t i = some w ↔
      i.WellFormed ∧ ∃ r, t.find? (fun r => r.entry == .ref i.operation) = some r ∧
        w.val = (assemble r.op r.mod i.addr : Nat) := by
  unfold encodeWith
  split_ifs with h
  · simp only [Option.bind_eq_some_iff, Word.ofInt?_eq_some, h, true_and]
  · constructor
    · intro e; cases e
    · intro e; exact absurd e.1 h

theorem refTable_wellFormed : OpTable.WellFormed refTable := by decide

theorem refParams_wellFormed : refParams.WellFormed := by decide

end Sys2Proof
end

