-- ==== Sys2Proof/Laws/Memory.lean ====
section
/-! SUPPORT. The laws of the sorted lists and of the memory: read after write, and that every memory
operation keeps the canonical form. -/

namespace Sys2Proof.Machine

open Sys2Proof

variable {α : Type}

@[simp] theorem Sorted.get_nil (k : Nat) : Sorted.get (α := α) k [] = none := rfl

theorem Sorted.get_cons (k j : Nat) (v : α) (l : List (Nat × α)) :
    Sorted.get k ((j, v) :: l) = if k = j then some v else Sorted.get k l := rfl

theorem Sorted.get_put (x k : Nat) (v : α) (l : List (Nat × α)) :
    Sorted.get x (Sorted.put k v l) = if x = k then some v else Sorted.get x l := by
  induction l with
  | nil => rfl
  | cons c l ih =>
    obtain ⟨j, u⟩ := c
    simp only [Sorted.put]
    split_ifs with h1 h2 <;> simp only [Sorted.get_cons, ih] <;> split_ifs <;> first | rfl | omega

theorem Sorted.get_remove (x k : Nat) (l : List (Nat × α)) :
    Sorted.get x (Sorted.remove k l) = if x = k then none else Sorted.get x l := by
  induction l with
  | nil => simp [Sorted.remove]
  | cons c l ih =>
    obtain ⟨j, u⟩ := c
    unfold Sorted.remove at ih ⊢
    rw [List.filter_cons]
    split_ifs with h1 <;> simp only [Sorted.get_cons, ih] <;> simp only [bne_iff_ne] at h1 <;>
      split_ifs <;> first | rfl | omega

theorem Sorted.mem_put {k : Nat} {v : α} {l : List (Nat × α)} {c : Nat × α}
    (h : c ∈ Sorted.put k v l) : c = (k, v) ∨ c ∈ l := by
  induction l with
  | nil => exact .inl (List.mem_singleton.mp h)
  | cons d l ih =>
    obtain ⟨j, u⟩ := d
    simp only [Sorted.put] at h
    split_ifs at h
    · simpa [or_assoc] using h
    · rcases List.mem_cons.mp h with h | h
      · exact .inl h
      · exact .inr (List.mem_cons_of_mem _ h)
    · rcases List.mem_cons.mp h with h | h
      · exact .inr (by simp [h])
      · exact (ih h).imp_right (List.mem_cons_of_mem _)

theorem Sorted.mem_of_mem_remove {k : Nat} {l : List (Nat × α)} {c : Nat × α}
    (h : c ∈ Sorted.remove k l) : c ∈ l := (List.mem_filter.mp h).1

theorem Sorted.rising_remove {l : List (Nat × α)} (k : Nat) (h : Sorted.Rising l) :
    Sorted.Rising (Sorted.remove k l) := h.filter _

theorem Sorted.rising_put {l : List (Nat × α)} (k : Nat) (v : α) (h : Sorted.Rising l) :
    Sorted.Rising (Sorted.put k v l) := by
  induction l with
  | nil => exact List.pairwise_singleton _ _
  | cons d l ih =>
    obtain ⟨j, u⟩ := d
    obtain ⟨hj, hl⟩ := List.pairwise_cons.mp h
    simp only [Sorted.put]
    split_ifs with h1 h2
    · refine List.pairwise_cons.mpr ⟨fun c hc => ?_, h⟩
      rcases List.mem_cons.mp hc with rfl | hc
      · exact h1
      · exact h1.trans (hj c hc)
    · subst h2; exact List.pairwise_cons.mpr ⟨hj, hl⟩
    · refine List.pairwise_cons.mpr ⟨fun c hc => ?_, ih hl⟩
      rcases Sorted.mem_put hc with rfl | hc
      · show j < k; omega
      · exact hj c hc

/-- Read after write: the Word written, and every other address as before (20_memory R53, R55). -/
theorem Memory.read_write (m : Memory) (x k : Nat) (v : Word) :
    (m.write k v).read x = if x = k then v else m.read x := by
  unfold Memory.write Memory.read
  split_ifs with h1 h2 h2 <;> simp [Sorted.get_remove, Sorted.get_put, h2]
  exact h1.symm

@[simp] theorem Memory.read_nil (x : Nat) : Memory.read [] x = Word.zero := rfl

/-- A write keeps the canonical form. -/
theorem Memory.wf_write {m : Memory} (k : Nat) (v : Word) (h : m.wf) : (m.write k v).wf := by
  unfold Memory.write
  split_ifs with hv
  · exact ⟨Sorted.rising_remove k h.1, fun c hc => h.2 c (Sorted.mem_of_mem_remove hc)⟩
  · refine ⟨Sorted.rising_put k v h.1, fun c hc => ?_⟩
    rcases Sorted.mem_put hc with rfl | hc
    · exact hv
    · exact h.2 c hc

/-- A write below `n` lists nothing at or past `n`. -/
theorem Memory.within_write {m : Memory} {k n : Nat} (v : Word) (hk : k < n) (h : m.Within n) :
    (m.write k v).Within n := by
  unfold Memory.write
  split_ifs
  · exact fun c hc => h c (Sorted.mem_of_mem_remove hc)
  · intro c hc
    rcases Sorted.mem_put hc with rfl | hc
    · exact hk
    · exact h c hc

/-- A bulk load writes its Words to the addresses from `start` on and nothing else (20_memory
R58). -/
theorem Memory.read_writeAll (ws : List Word) (m : Memory) (start x : Nat) :
    (m.writeAll start ws).read x =
      if start ≤ x ∧ x < start + ws.length then ws.getD (x - start) Word.zero else m.read x := by
  induction ws generalizing m start with
  | nil => simp [Memory.writeAll]
  | cons w ws ih =>
    simp only [Memory.writeAll, ih, Memory.read_write, List.length_cons]
    by_cases hx : x = start
    · subst hx; simp
    · by_cases h : start + 1 ≤ x ∧ x < start + 1 + ws.length
      · have : x - start = (x - (start + 1)) + 1 := by omega
        rw [if_pos h, if_pos (by omega), this, List.getD_cons_succ]
      · rw [if_neg h, if_neg hx, if_neg (by omega)]

theorem Memory.wf_writeAll (ws : List Word) {m : Memory} (start : Nat) (h : m.wf) :
    (m.writeAll start ws).wf := by
  induction ws generalizing m start with
  | nil => exact h
  | cons w ws ih => exact ih _ (Memory.wf_write _ _ h)

theorem Memory.within_writeAll (ws : List Word) {m : Memory} {start n : Nat}
    (hn : start + ws.length ≤ n) (h : m.Within n) : (m.writeAll start ws).Within n := by
  induction ws generalizing m start with
  | nil => exact h
  | cons w ws ih =>
    rw [List.length_cons] at hn
    exact ih (by omega) (Memory.within_write _ (by omega) h)

/-- The memory after reset is in canonical form. -/
theorem Memory.wf_reset : State.reset.mem.wf := by decide

end Sys2Proof.Machine
end

