-- ==== Sys2Proof/Laws/State.lean ====
section
/-! SUPPORT. What each named update of the state leaves in each field: one lemma per field per update,
true by unfolding, so that no later proof unfolds a record update. -/

namespace Sys2Proof.Machine

open Sys2Proof

/-! ### raise -/

@[simp] theorem raise_cfg (kind : FaultKind) (word : Option Word) (s : State) : (raise kind word s).cfg =
    s.cfg := rfl
@[simp] theorem raise_a (kind : FaultKind) (word : Option Word) (s : State) : (raise kind word s).a =
    s.a := rfl
@[simp] theorem raise_b (kind : FaultKind) (word : Option Word) (s : State) : (raise kind word s).b =
    s.b := rfl
@[simp] theorem raise_pc (kind : FaultKind) (word : Option Word) (s : State) : (raise kind word s).pc =
    s.pc := rfl
@[simp] theorem raise_icount (kind : FaultKind) (word : Option Word) (s : State) : (raise kind word s).icount =
    s.icount := rfl
@[simp] theorem raise_fsm (kind : FaultKind) (word : Option Word) (s : State) : (raise kind word s).fsm =
    .faulted := rfl
@[simp] theorem raise_mode (kind : FaultKind) (word : Option Word) (s : State) : (raise kind word s).mode =
    s.mode := rfl
@[simp] theorem raise_stop (kind : FaultKind) (word : Option Word) (s : State) : (raise kind word s).stop =
    .fault := rfl
@[simp] theorem raise_ir (kind : FaultKind) (word : Option Word) (s : State) : (raise kind word s).ir =
    s.ir := rfl
@[simp] theorem raise_haltAddr (kind : FaultKind) (word : Option Word) (s : State) : (raise kind word s).haltAddr =
    s.haltAddr := rfl
@[simp] theorem raise_faultKind (kind : FaultKind) (word : Option Word) (s : State) : (raise kind word s).faultKind =
    some kind := rfl
@[simp] theorem raise_faultPc (kind : FaultKind) (word : Option Word) (s : State) : (raise kind word s).faultPc =
    s.pc := rfl
@[simp] theorem raise_faultWord (kind : FaultKind) (word : Option Word) (s : State) : (raise kind word s).faultWord =
    word := rfl
@[simp] theorem raise_mem (kind : FaultKind) (word : Option Word) (s : State) : (raise kind word s).mem =
    s.mem := rfl
@[simp] theorem raise_breakpoints (kind : FaultKind) (word : Option Word) (s : State) : (raise kind word s).breakpoints =
    s.breakpoints := rfl
@[simp] theorem raise_traceEn (kind : FaultKind) (word : Option Word) (s : State) : (raise kind word s).traceEn =
    s.traceEn := rfl
@[simp] theorem raise_cancel (kind : FaultKind) (word : Option Word) (s : State) : (raise kind word s).cancel =
    s.cancel := rfl
@[simp] theorem raise_slots (kind : FaultKind) (word : Option Word) (s : State) : (raise kind word s).slots =
    s.slots := rfl
@[simp] theorem raise_host (kind : FaultKind) (word : Option Word) (s : State) : (raise kind word s).host =
    s.host := rfl
@[simp] theorem raise_waiting (kind : FaultKind) (word : Option Word) (s : State) : (raise kind word s).waiting =
    s.waiting := rfl
@[simp] theorem raise_devOps (kind : FaultKind) (word : Option Word) (s : State) : (raise kind word s).devOps =
    s.devOps := rfl
@[simp] theorem raise_trace (kind : FaultKind) (word : Option Word) (s : State) : (raise kind word s).trace =
    s.trace := rfl
@[simp] theorem raise_replies (kind : FaultKind) (word : Option Word) (s : State) : (raise kind word s).replies =
    s.replies := rfl

/-! ### raiseExec -/

@[simp] theorem raiseExec_cfg (kind : FaultKind) (s : State) : (raiseExec kind s).cfg = s.cfg := rfl
@[simp] theorem raiseExec_a (kind : FaultKind) (s : State) : (raiseExec kind s).a = s.a := rfl
@[simp] theorem raiseExec_b (kind : FaultKind) (s : State) : (raiseExec kind s).b = s.b := rfl
@[simp] theorem raiseExec_pc (kind : FaultKind) (s : State) : (raiseExec kind s).pc = s.pc := rfl
@[simp] theorem raiseExec_icount (kind : FaultKind) (s : State) : (raiseExec kind s).icount =
    s.icount := rfl
@[simp] theorem raiseExec_fsm (kind : FaultKind) (s : State) : (raiseExec kind s).fsm = .faulted := rfl
@[simp] theorem raiseExec_mode (kind : FaultKind) (s : State) : (raiseExec kind s).mode = s.mode := rfl
@[simp] theorem raiseExec_stop (kind : FaultKind) (s : State) : (raiseExec kind s).stop = .fault := rfl
@[simp] theorem raiseExec_ir (kind : FaultKind) (s : State) : (raiseExec kind s).ir = s.ir := rfl
@[simp] theorem raiseExec_haltAddr (kind : FaultKind) (s : State) : (raiseExec kind s).haltAddr =
    s.haltAddr := rfl
@[simp] theorem raiseExec_faultKind (kind : FaultKind) (s : State) : (raiseExec kind s).faultKind =
    some kind := rfl
@[simp] theorem raiseExec_faultPc (kind : FaultKind) (s : State) : (raiseExec kind s).faultPc =
    s.pc := rfl
@[simp] theorem raiseExec_faultWord (kind : FaultKind) (s : State) : (raiseExec kind s).faultWord =
    some s.ir := rfl
@[simp] theorem raiseExec_mem (kind : FaultKind) (s : State) : (raiseExec kind s).mem = s.mem := rfl
@[simp] theorem raiseExec_breakpoints (kind : FaultKind) (s : State) : (raiseExec kind s).breakpoints =
    s.breakpoints := rfl
@[simp] theorem raiseExec_traceEn (kind : FaultKind) (s : State) : (raiseExec kind s).traceEn =
    s.traceEn := rfl
@[simp] theorem raiseExec_cancel (kind : FaultKind) (s : State) : (raiseExec kind s).cancel =
    s.cancel := rfl
@[simp] theorem raiseExec_slots (kind : FaultKind) (s : State) : (raiseExec kind s).slots =
    s.slots := rfl
@[simp] theorem raiseExec_host (kind : FaultKind) (s : State) : (raiseExec kind s).host = s.host := rfl
@[simp] theorem raiseExec_waiting (kind : FaultKind) (s : State) : (raiseExec kind s).waiting =
    s.waiting := rfl
@[simp] theorem raiseExec_devOps (kind : FaultKind) (s : State) : (raiseExec kind s).devOps =
    s.devOps := rfl
@[simp] theorem raiseExec_trace (kind : FaultKind) (s : State) : (raiseExec kind s).trace =
    s.trace := rfl
@[simp] theorem raiseExec_replies (kind : FaultKind) (s : State) : (raiseExec kind s).replies =
    s.replies := rfl

/-! ### clearRecords -/

@[simp] theorem clearRecords_cfg (s : State) : (clearRecords s).cfg = s.cfg := rfl
@[simp] theorem clearRecords_a (s : State) : (clearRecords s).a = s.a := rfl
@[simp] theorem clearRecords_b (s : State) : (clearRecords s).b = s.b := rfl
@[simp] theorem clearRecords_pc (s : State) : (clearRecords s).pc = s.pc := rfl
@[simp] theorem clearRecords_icount (s : State) : (clearRecords s).icount = s.icount := rfl
@[simp] theorem clearRecords_fsm (s : State) : (clearRecords s).fsm = s.fsm := rfl
@[simp] theorem clearRecords_mode (s : State) : (clearRecords s).mode = s.mode := rfl
@[simp] theorem clearRecords_stop (s : State) : (clearRecords s).stop = s.stop := rfl
@[simp] theorem clearRecords_ir (s : State) : (clearRecords s).ir = s.ir := rfl
@[simp] theorem clearRecords_haltAddr (s : State) : (clearRecords s).haltAddr = 0 := rfl
@[simp] theorem clearRecords_faultKind (s : State) : (clearRecords s).faultKind = none := rfl
@[simp] theorem clearRecords_faultPc (s : State) : (clearRecords s).faultPc = 0 := rfl
@[simp] theorem clearRecords_faultWord (s : State) : (clearRecords s).faultWord = none := rfl
@[simp] theorem clearRecords_mem (s : State) : (clearRecords s).mem = s.mem := rfl
@[simp] theorem clearRecords_breakpoints (s : State) : (clearRecords s).breakpoints =
    s.breakpoints := rfl
@[simp] theorem clearRecords_traceEn (s : State) : (clearRecords s).traceEn = s.traceEn := rfl
@[simp] theorem clearRecords_cancel (s : State) : (clearRecords s).cancel = s.cancel := rfl
@[simp] theorem clearRecords_slots (s : State) : (clearRecords s).slots = s.slots := rfl
@[simp] theorem clearRecords_host (s : State) : (clearRecords s).host = s.host := rfl
@[simp] theorem clearRecords_waiting (s : State) : (clearRecords s).waiting = s.waiting := rfl
@[simp] theorem clearRecords_devOps (s : State) : (clearRecords s).devOps = s.devOps := rfl
@[simp] theorem clearRecords_trace (s : State) : (clearRecords s).trace = s.trace := rfl
@[simp] theorem clearRecords_replies (s : State) : (clearRecords s).replies = s.replies := rfl

/-! ### runRequest -/

@[simp] theorem runRequest_cfg (x : Nat) (s : State) : (runRequest x s).cfg = s.cfg := rfl
@[simp] theorem runRequest_a (x : Nat) (s : State) : (runRequest x s).a = s.a := rfl
@[simp] theorem runRequest_b (x : Nat) (s : State) : (runRequest x s).b = s.b := rfl
@[simp] theorem runRequest_pc (x : Nat) (s : State) : (runRequest x s).pc = x := rfl
@[simp] theorem runRequest_icount (x : Nat) (s : State) : (runRequest x s).icount = s.icount := rfl
@[simp] theorem runRequest_fsm (x : Nat) (s : State) : (runRequest x s).fsm = .running := rfl
@[simp] theorem runRequest_mode (x : Nat) (s : State) : (runRequest x s).mode = .run := rfl
@[simp] theorem runRequest_stop (x : Nat) (s : State) : (runRequest x s).stop = .none := rfl
@[simp] theorem runRequest_ir (x : Nat) (s : State) : (runRequest x s).ir = s.ir := rfl
@[simp] theorem runRequest_haltAddr (x : Nat) (s : State) : (runRequest x s).haltAddr = 0 := rfl
@[simp] theorem runRequest_faultKind (x : Nat) (s : State) : (runRequest x s).faultKind = none := rfl
@[simp] theorem runRequest_faultPc (x : Nat) (s : State) : (runRequest x s).faultPc = 0 := rfl
@[simp] theorem runRequest_faultWord (x : Nat) (s : State) : (runRequest x s).faultWord = none := rfl
@[simp] theorem runRequest_mem (x : Nat) (s : State) : (runRequest x s).mem = s.mem := rfl
@[simp] theorem runRequest_breakpoints (x : Nat) (s : State) : (runRequest x s).breakpoints =
    s.breakpoints := rfl
@[simp] theorem runRequest_traceEn (x : Nat) (s : State) : (runRequest x s).traceEn = s.traceEn := rfl
@[simp] theorem runRequest_cancel (x : Nat) (s : State) : (runRequest x s).cancel = s.cancel := rfl
@[simp] theorem runRequest_slots (x : Nat) (s : State) : (runRequest x s).slots = s.slots := rfl
@[simp] theorem runRequest_host (x : Nat) (s : State) : (runRequest x s).host = s.host := rfl
@[simp] theorem runRequest_waiting (x : Nat) (s : State) : (runRequest x s).waiting = s.waiting := rfl
@[simp] theorem runRequest_devOps (x : Nat) (s : State) : (runRequest x s).devOps = s.devOps := rfl
@[simp] theorem runRequest_trace (x : Nat) (s : State) : (runRequest x s).trace = s.trace := rfl
@[simp] theorem runRequest_replies (x : Nat) (s : State) : (runRequest x s).replies = s.replies := rfl

/-! ### stepRequest -/

@[simp] theorem stepRequest_cfg (s : State) : (stepRequest s).cfg = s.cfg := rfl
@[simp] theorem stepRequest_a (s : State) : (stepRequest s).a = s.a := rfl
@[simp] theorem stepRequest_b (s : State) : (stepRequest s).b = s.b := rfl
@[simp] theorem stepRequest_pc (s : State) : (stepRequest s).pc = s.pc := rfl
@[simp] theorem stepRequest_icount (s : State) : (stepRequest s).icount = s.icount := rfl
@[simp] theorem stepRequest_fsm (s : State) : (stepRequest s).fsm = .running := rfl
@[simp] theorem stepRequest_mode (s : State) : (stepRequest s).mode = .step := rfl
@[simp] theorem stepRequest_stop (s : State) : (stepRequest s).stop = .none := rfl
@[simp] theorem stepRequest_ir (s : State) : (stepRequest s).ir = s.ir := rfl
@[simp] theorem stepRequest_haltAddr (s : State) : (stepRequest s).haltAddr = 0 := rfl
@[simp] theorem stepRequest_faultKind (s : State) : (stepRequest s).faultKind = none := rfl
@[simp] theorem stepRequest_faultPc (s : State) : (stepRequest s).faultPc = 0 := rfl
@[simp] theorem stepRequest_faultWord (s : State) : (stepRequest s).faultWord = none := rfl
@[simp] theorem stepRequest_mem (s : State) : (stepRequest s).mem = s.mem := rfl
@[simp] theorem stepRequest_breakpoints (s : State) : (stepRequest s).breakpoints = s.breakpoints := rfl
@[simp] theorem stepRequest_traceEn (s : State) : (stepRequest s).traceEn = s.traceEn := rfl
@[simp] theorem stepRequest_cancel (s : State) : (stepRequest s).cancel = s.cancel := rfl
@[simp] theorem stepRequest_slots (s : State) : (stepRequest s).slots = s.slots := rfl
@[simp] theorem stepRequest_host (s : State) : (stepRequest s).host = s.host := rfl
@[simp] theorem stepRequest_waiting (s : State) : (stepRequest s).waiting = s.waiting := rfl
@[simp] theorem stepRequest_devOps (s : State) : (stepRequest s).devOps = s.devOps := rfl
@[simp] theorem stepRequest_trace (s : State) : (stepRequest s).trace = s.trace := rfl
@[simp] theorem stepRequest_replies (s : State) : (stepRequest s).replies = s.replies := rfl

/-! ### resetRequest -/

@[simp] theorem resetRequest_cfg (s : State) : (resetRequest s).cfg = s.cfg := rfl
@[simp] theorem resetRequest_a (s : State) : (resetRequest s).a = Word.zero := rfl
@[simp] theorem resetRequest_b (s : State) : (resetRequest s).b = Word.zero := rfl
@[simp] theorem resetRequest_pc (s : State) : (resetRequest s).pc = 0 := rfl
@[simp] theorem resetRequest_icount (s : State) : (resetRequest s).icount = 0 := rfl
@[simp] theorem resetRequest_fsm (s : State) : (resetRequest s).fsm = .ready := rfl
@[simp] theorem resetRequest_mode (s : State) : (resetRequest s).mode = .step := rfl
@[simp] theorem resetRequest_stop (s : State) : (resetRequest s).stop = .none := rfl
@[simp] theorem resetRequest_ir (s : State) : (resetRequest s).ir = Word.zero := rfl
@[simp] theorem resetRequest_haltAddr (s : State) : (resetRequest s).haltAddr = 0 := rfl
@[simp] theorem resetRequest_faultKind (s : State) : (resetRequest s).faultKind = none := rfl
@[simp] theorem resetRequest_faultPc (s : State) : (resetRequest s).faultPc = 0 := rfl
@[simp] theorem resetRequest_faultWord (s : State) : (resetRequest s).faultWord = none := rfl
@[simp] theorem resetRequest_mem (s : State) : (resetRequest s).mem = [] := rfl
@[simp] theorem resetRequest_breakpoints (s : State) : (resetRequest s).breakpoints =
    s.breakpoints := rfl
@[simp] theorem resetRequest_traceEn (s : State) : (resetRequest s).traceEn = s.traceEn := rfl
@[simp] theorem resetRequest_cancel (s : State) : (resetRequest s).cancel = s.cancel := rfl
@[simp] theorem resetRequest_slots (s : State) : (resetRequest s).slots = s.slots := rfl
@[simp] theorem resetRequest_host (s : State) : (resetRequest s).host = s.host := rfl
@[simp] theorem resetRequest_waiting (s : State) : (resetRequest s).waiting = s.waiting := rfl
@[simp] theorem resetRequest_devOps (s : State) : (resetRequest s).devOps = s.devOps := rfl
@[simp] theorem resetRequest_trace (s : State) : (resetRequest s).trace = s.trace := rfl
@[simp] theorem resetRequest_replies (s : State) : (resetRequest s).replies = s.replies := rfl

/-! ### advance -/

@[simp] theorem advance_cfg (t : Option Nat) (s : State) : (advance t s).cfg = s.cfg := rfl
@[simp] theorem advance_a (t : Option Nat) (s : State) : (advance t s).a = s.a := rfl
@[simp] theorem advance_b (t : Option Nat) (s : State) : (advance t s).b = s.b := rfl
@[simp] theorem advance_pc (t : Option Nat) (s : State) : (advance t s).pc = t.getD (s.pc + 1) := rfl
@[simp] theorem advance_icount (t : Option Nat) (s : State) : (advance t s).icount = s.icount + 1 := rfl
@[simp] theorem advance_fsm (t : Option Nat) (s : State) : (advance t s).fsm = s.fsm := rfl
@[simp] theorem advance_mode (t : Option Nat) (s : State) : (advance t s).mode = s.mode := rfl
@[simp] theorem advance_stop (t : Option Nat) (s : State) : (advance t s).stop = s.stop := rfl
@[simp] theorem advance_ir (t : Option Nat) (s : State) : (advance t s).ir = s.ir := rfl
@[simp] theorem advance_haltAddr (t : Option Nat) (s : State) : (advance t s).haltAddr =
    s.haltAddr := rfl
@[simp] theorem advance_faultKind (t : Option Nat) (s : State) : (advance t s).faultKind =
    s.faultKind := rfl
@[simp] theorem advance_faultPc (t : Option Nat) (s : State) : (advance t s).faultPc = s.faultPc := rfl
@[simp] theorem advance_faultWord (t : Option Nat) (s : State) : (advance t s).faultWord =
    s.faultWord := rfl
@[simp] theorem advance_mem (t : Option Nat) (s : State) : (advance t s).mem = s.mem := rfl
@[simp] theorem advance_breakpoints (t : Option Nat) (s : State) : (advance t s).breakpoints =
    s.breakpoints := rfl
@[simp] theorem advance_traceEn (t : Option Nat) (s : State) : (advance t s).traceEn = s.traceEn := rfl
@[simp] theorem advance_cancel (t : Option Nat) (s : State) : (advance t s).cancel = s.cancel := rfl
@[simp] theorem advance_slots (t : Option Nat) (s : State) : (advance t s).slots = s.slots := rfl
@[simp] theorem advance_host (t : Option Nat) (s : State) : (advance t s).host = s.host := rfl
@[simp] theorem advance_waiting (t : Option Nat) (s : State) : (advance t s).waiting = s.waiting := rfl
@[simp] theorem advance_devOps (t : Option Nat) (s : State) : (advance t s).devOps = s.devOps := rfl
@[simp] theorem advance_trace (t : Option Nat) (s : State) : (advance t s).trace =
    if s.traceEn then s.trace ++ [⟨s.pc, s.ir, t.getD (s.pc + 1), s.a, s.b, s.icount + 1⟩] else s.trace := rfl
@[simp] theorem advance_replies (t : Option Nat) (s : State) : (advance t s).replies = s.replies := rfl

/-! ### completeAs -/

@[simp] theorem completeAs_cfg (halt : Bool) (t : Option Nat) (s : State) :
    (completeAs halt t s).cfg = s.cfg := by cases halt <;> rfl
@[simp] theorem completeAs_a (halt : Bool) (t : Option Nat) (s : State) :
    (completeAs halt t s).a = s.a := by cases halt <;> rfl
@[simp] theorem completeAs_b (halt : Bool) (t : Option Nat) (s : State) :
    (completeAs halt t s).b = s.b := by cases halt <;> rfl
@[simp] theorem completeAs_mode (halt : Bool) (t : Option Nat) (s : State) :
    (completeAs halt t s).mode = s.mode := by cases halt <;> rfl
@[simp] theorem completeAs_ir (halt : Bool) (t : Option Nat) (s : State) :
    (completeAs halt t s).ir = s.ir := by cases halt <;> rfl
@[simp] theorem completeAs_faultKind (halt : Bool) (t : Option Nat) (s : State) :
    (completeAs halt t s).faultKind = s.faultKind := by cases halt <;> rfl
@[simp] theorem completeAs_faultPc (halt : Bool) (t : Option Nat) (s : State) :
    (completeAs halt t s).faultPc = s.faultPc := by cases halt <;> rfl
@[simp] theorem completeAs_faultWord (halt : Bool) (t : Option Nat) (s : State) :
    (completeAs halt t s).faultWord = s.faultWord := by cases halt <;> rfl
@[simp] theorem completeAs_mem (halt : Bool) (t : Option Nat) (s : State) :
    (completeAs halt t s).mem = s.mem := by cases halt <;> rfl
@[simp] theorem completeAs_breakpoints (halt : Bool) (t : Option Nat) (s : State) :
    (completeAs halt t s).breakpoints = s.breakpoints := by cases halt <;> rfl
@[simp] theorem completeAs_traceEn (halt : Bool) (t : Option Nat) (s : State) :
    (completeAs halt t s).traceEn = s.traceEn := by cases halt <;> rfl
@[simp] theorem completeAs_cancel (halt : Bool) (t : Option Nat) (s : State) :
    (completeAs halt t s).cancel = s.cancel := by cases halt <;> rfl
@[simp] theorem completeAs_slots (halt : Bool) (t : Option Nat) (s : State) :
    (completeAs halt t s).slots = s.slots := by cases halt <;> rfl
@[simp] theorem completeAs_host (halt : Bool) (t : Option Nat) (s : State) :
    (completeAs halt t s).host = s.host := by cases halt <;> rfl
@[simp] theorem completeAs_waiting (halt : Bool) (t : Option Nat) (s : State) :
    (completeAs halt t s).waiting = s.waiting := by cases halt <;> rfl
@[simp] theorem completeAs_devOps (halt : Bool) (t : Option Nat) (s : State) :
    (completeAs halt t s).devOps = s.devOps := by cases halt <;> rfl
@[simp] theorem completeAs_replies (halt : Bool) (t : Option Nat) (s : State) :
    (completeAs halt t s).replies = s.replies := by cases halt <;> rfl
@[simp] theorem completeAs_pc (halt : Bool) (t : Option Nat) (s : State) :
    (completeAs halt t s).pc = t.getD (s.pc + 1) := by cases halt <;> rfl
@[simp] theorem completeAs_icount (halt : Bool) (t : Option Nat) (s : State) :
    (completeAs halt t s).icount = s.icount + 1 := by cases halt <;> rfl
@[simp] theorem completeAs_trace (halt : Bool) (t : Option Nat) (s : State) :
    (completeAs halt t s).trace =
      if s.traceEn then
        s.trace ++ [⟨s.pc, s.ir, t.getD (s.pc + 1), s.a, s.b, s.icount + 1⟩]
      else s.trace := by cases halt <;> rfl
@[simp] theorem completeAs_fsm (halt : Bool) (t : Option Nat) (s : State) :
    (completeAs halt t s).fsm =
      if halt then .halted else if s.mode = .step then .ready else s.fsm := by cases halt <;> rfl
@[simp] theorem completeAs_stop (halt : Bool) (t : Option Nat) (s : State) :
    (completeAs halt t s).stop =
      if halt then .halt else if s.mode = .step then .stepDone else s.stop := by cases halt <;> rfl
@[simp] theorem completeAs_haltAddr (halt : Bool) (t : Option Nat) (s : State) :
    (completeAs halt t s).haltAddr = if halt then t.getD (s.pc + 1) else s.haltAddr := by
  cases halt <;> rfl

/-! ### complete -/

@[simp] theorem complete_cfg (s : State) : (complete s).cfg = s.cfg := rfl
@[simp] theorem complete_a (s : State) : (complete s).a = s.a := rfl
@[simp] theorem complete_b (s : State) : (complete s).b = s.b := rfl
@[simp] theorem complete_pc (s : State) : (complete s).pc = s.pc + 1 := rfl
@[simp] theorem complete_icount (s : State) : (complete s).icount = s.icount + 1 := rfl
@[simp] theorem complete_fsm (s : State) : (complete s).fsm =
    if s.mode = .step then .ready else s.fsm := rfl
@[simp] theorem complete_mode (s : State) : (complete s).mode = s.mode := rfl
@[simp] theorem complete_stop (s : State) : (complete s).stop =
    if s.mode = .step then .stepDone else s.stop := rfl
@[simp] theorem complete_ir (s : State) : (complete s).ir = s.ir := rfl
@[simp] theorem complete_haltAddr (s : State) : (complete s).haltAddr = s.haltAddr := rfl
@[simp] theorem complete_faultKind (s : State) : (complete s).faultKind = s.faultKind := rfl
@[simp] theorem complete_faultPc (s : State) : (complete s).faultPc = s.faultPc := rfl
@[simp] theorem complete_faultWord (s : State) : (complete s).faultWord = s.faultWord := rfl
@[simp] theorem complete_mem (s : State) : (complete s).mem = s.mem := rfl
@[simp] theorem complete_breakpoints (s : State) : (complete s).breakpoints = s.breakpoints := rfl
@[simp] theorem complete_traceEn (s : State) : (complete s).traceEn = s.traceEn := rfl
@[simp] theorem complete_cancel (s : State) : (complete s).cancel = s.cancel := rfl
@[simp] theorem complete_slots (s : State) : (complete s).slots = s.slots := rfl
@[simp] theorem complete_host (s : State) : (complete s).host = s.host := rfl
@[simp] theorem complete_waiting (s : State) : (complete s).waiting = s.waiting := rfl
@[simp] theorem complete_devOps (s : State) : (complete s).devOps = s.devOps := rfl
@[simp] theorem complete_trace (s : State) : (complete s).trace =
    if s.traceEn then s.trace ++ [⟨s.pc, s.ir, s.pc + 1, s.a, s.b, s.icount + 1⟩] else s.trace := rfl
@[simp] theorem complete_replies (s : State) : (complete s).replies = s.replies := rfl

/-! ### completeJump -/

@[simp] theorem completeJump_cfg (t : Nat) (s : State) : (completeJump t s).cfg = s.cfg := rfl
@[simp] theorem completeJump_a (t : Nat) (s : State) : (completeJump t s).a = s.a := rfl
@[simp] theorem completeJump_b (t : Nat) (s : State) : (completeJump t s).b = s.b := rfl
@[simp] theorem completeJump_pc (t : Nat) (s : State) : (completeJump t s).pc = t := rfl
@[simp] theorem completeJump_icount (t : Nat) (s : State) : (completeJump t s).icount =
    s.icount + 1 := rfl
@[simp] theorem completeJump_fsm (t : Nat) (s : State) : (completeJump t s).fsm =
    if s.mode = .step then .ready else s.fsm := rfl
@[simp] theorem completeJump_mode (t : Nat) (s : State) : (completeJump t s).mode = s.mode := rfl
@[simp] theorem completeJump_stop (t : Nat) (s : State) : (completeJump t s).stop =
    if s.mode = .step then .stepDone else s.stop := rfl
@[simp] theorem completeJump_ir (t : Nat) (s : State) : (completeJump t s).ir = s.ir := rfl
@[simp] theorem completeJump_haltAddr (t : Nat) (s : State) : (completeJump t s).haltAddr =
    s.haltAddr := rfl
@[simp] theorem completeJump_faultKind (t : Nat) (s : State) : (completeJump t s).faultKind =
    s.faultKind := rfl
@[simp] theorem completeJump_faultPc (t : Nat) (s : State) : (completeJump t s).faultPc =
    s.faultPc := rfl
@[simp] theorem completeJump_faultWord (t : Nat) (s : State) : (completeJump t s).faultWord =
    s.faultWord := rfl
@[simp] theorem completeJump_mem (t : Nat) (s : State) : (completeJump t s).mem = s.mem := rfl
@[simp] theorem completeJump_breakpoints (t : Nat) (s : State) : (completeJump t s).breakpoints =
    s.breakpoints := rfl
@[simp] theorem completeJump_traceEn (t : Nat) (s : State) : (completeJump t s).traceEn =
    s.traceEn := rfl
@[simp] theorem completeJump_cancel (t : Nat) (s : State) : (completeJump t s).cancel = s.cancel := rfl
@[simp] theorem completeJump_slots (t : Nat) (s : State) : (completeJump t s).slots = s.slots := rfl
@[simp] theorem completeJump_host (t : Nat) (s : State) : (completeJump t s).host = s.host := rfl
@[simp] theorem completeJump_waiting (t : Nat) (s : State) : (completeJump t s).waiting =
    s.waiting := rfl
@[simp] theorem completeJump_devOps (t : Nat) (s : State) : (completeJump t s).devOps = s.devOps := rfl
@[simp] theorem completeJump_trace (t : Nat) (s : State) : (completeJump t s).trace =
    if s.traceEn then s.trace ++ [⟨s.pc, s.ir, t, s.a, s.b, s.icount + 1⟩] else s.trace := rfl
@[simp] theorem completeJump_replies (t : Nat) (s : State) : (completeJump t s).replies =
    s.replies := rfl

/-! ### completeHalt -/

@[simp] theorem completeHalt_cfg (s : State) : (completeHalt s).cfg = s.cfg := rfl
@[simp] theorem completeHalt_a (s : State) : (completeHalt s).a = s.a := rfl
@[simp] theorem completeHalt_b (s : State) : (completeHalt s).b = s.b := rfl
@[simp] theorem completeHalt_pc (s : State) : (completeHalt s).pc = s.pc + 1 := rfl
@[simp] theorem completeHalt_icount (s : State) : (completeHalt s).icount = s.icount + 1 := rfl
@[simp] theorem completeHalt_fsm (s : State) : (completeHalt s).fsm = .halted := rfl
@[simp] theorem completeHalt_mode (s : State) : (completeHalt s).mode = s.mode := rfl
@[simp] theorem completeHalt_stop (s : State) : (completeHalt s).stop = .halt := rfl
@[simp] theorem completeHalt_ir (s : State) : (completeHalt s).ir = s.ir := rfl
@[simp] theorem completeHalt_haltAddr (s : State) : (completeHalt s).haltAddr = s.pc + 1 := rfl
@[simp] theorem completeHalt_faultKind (s : State) : (completeHalt s).faultKind = s.faultKind := rfl
@[simp] theorem completeHalt_faultPc (s : State) : (completeHalt s).faultPc = s.faultPc := rfl
@[simp] theorem completeHalt_faultWord (s : State) : (completeHalt s).faultWord = s.faultWord := rfl
@[simp] theorem completeHalt_mem (s : State) : (completeHalt s).mem = s.mem := rfl
@[simp] theorem completeHalt_breakpoints (s : State) : (completeHalt s).breakpoints =
    s.breakpoints := rfl
@[simp] theorem completeHalt_traceEn (s : State) : (completeHalt s).traceEn = s.traceEn := rfl
@[simp] theorem completeHalt_cancel (s : State) : (completeHalt s).cancel = s.cancel := rfl
@[simp] theorem completeHalt_slots (s : State) : (completeHalt s).slots = s.slots := rfl
@[simp] theorem completeHalt_host (s : State) : (completeHalt s).host = s.host := rfl
@[simp] theorem completeHalt_waiting (s : State) : (completeHalt s).waiting = s.waiting := rfl
@[simp] theorem completeHalt_devOps (s : State) : (completeHalt s).devOps = s.devOps := rfl
@[simp] theorem completeHalt_trace (s : State) : (completeHalt s).trace =
    if s.traceEn then s.trace ++ [⟨s.pc, s.ir, s.pc + 1, s.a, s.b, s.icount + 1⟩] else s.trace := rfl
@[simp] theorem completeHalt_replies (s : State) : (completeHalt s).replies = s.replies := rfl

/-! ### recordOp -/

@[simp] theorem recordOp_cfg (n : Nat) (ep : Endpoint) (op : DevOp) (s : State) : (recordOp n ep op s).cfg =
    s.cfg := rfl
@[simp] theorem recordOp_a (n : Nat) (ep : Endpoint) (op : DevOp) (s : State) : (recordOp n ep op s).a =
    s.a := rfl
@[simp] theorem recordOp_b (n : Nat) (ep : Endpoint) (op : DevOp) (s : State) : (recordOp n ep op s).b =
    s.b := rfl
@[simp] theorem recordOp_pc (n : Nat) (ep : Endpoint) (op : DevOp) (s : State) : (recordOp n ep op s).pc =
    s.pc := rfl
@[simp] theorem recordOp_icount (n : Nat) (ep : Endpoint) (op : DevOp) (s : State) : (recordOp n ep op s).icount =
    s.icount := rfl
@[simp] theorem recordOp_fsm (n : Nat) (ep : Endpoint) (op : DevOp) (s : State) : (recordOp n ep op s).fsm =
    s.fsm := rfl
@[simp] theorem recordOp_mode (n : Nat) (ep : Endpoint) (op : DevOp) (s : State) : (recordOp n ep op s).mode =
    s.mode := rfl
@[simp] theorem recordOp_stop (n : Nat) (ep : Endpoint) (op : DevOp) (s : State) : (recordOp n ep op s).stop =
    s.stop := rfl
@[simp] theorem recordOp_ir (n : Nat) (ep : Endpoint) (op : DevOp) (s : State) : (recordOp n ep op s).ir =
    s.ir := rfl
@[simp] theorem recordOp_haltAddr (n : Nat) (ep : Endpoint) (op : DevOp) (s : State) : (recordOp n ep op s).haltAddr =
    s.haltAddr := rfl
@[simp] theorem recordOp_faultKind (n : Nat) (ep : Endpoint) (op : DevOp) (s : State) : (recordOp n ep op s).faultKind =
    s.faultKind := rfl
@[simp] theorem recordOp_faultPc (n : Nat) (ep : Endpoint) (op : DevOp) (s : State) : (recordOp n ep op s).faultPc =
    s.faultPc := rfl
@[simp] theorem recordOp_faultWord (n : Nat) (ep : Endpoint) (op : DevOp) (s : State) : (recordOp n ep op s).faultWord =
    s.faultWord := rfl
@[simp] theorem recordOp_mem (n : Nat) (ep : Endpoint) (op : DevOp) (s : State) : (recordOp n ep op s).mem =
    s.mem := rfl
@[simp] theorem recordOp_breakpoints (n : Nat) (ep : Endpoint) (op : DevOp) (s : State) : (recordOp n ep op s).breakpoints =
    s.breakpoints := rfl
@[simp] theorem recordOp_traceEn (n : Nat) (ep : Endpoint) (op : DevOp) (s : State) : (recordOp n ep op s).traceEn =
    s.traceEn := rfl
@[simp] theorem recordOp_cancel (n : Nat) (ep : Endpoint) (op : DevOp) (s : State) : (recordOp n ep op s).cancel =
    s.cancel := rfl
@[simp] theorem recordOp_slots (n : Nat) (ep : Endpoint) (op : DevOp) (s : State) : (recordOp n ep op s).slots =
    s.slots.set n (some ep) := rfl
@[simp] theorem recordOp_host (n : Nat) (ep : Endpoint) (op : DevOp) (s : State) : (recordOp n ep op s).host =
    s.host := rfl
@[simp] theorem recordOp_waiting (n : Nat) (ep : Endpoint) (op : DevOp) (s : State) : (recordOp n ep op s).waiting =
    s.waiting := rfl
@[simp] theorem recordOp_devOps (n : Nat) (ep : Endpoint) (op : DevOp) (s : State) : (recordOp n ep op s).devOps =
    s.devOps ++ [op] := rfl
@[simp] theorem recordOp_trace (n : Nat) (ep : Endpoint) (op : DevOp) (s : State) : (recordOp n ep op s).trace =
    s.trace := rfl
@[simp] theorem recordOp_replies (n : Nat) (ep : Endpoint) (op : DevOp) (s : State) : (recordOp n ep op s).replies =
    s.replies := rfl

/-! ### reply -/

@[simp] theorem reply_cfg (r : HostReply) (s : State) : (reply r s).cfg = s.cfg := rfl
@[simp] theorem reply_a (r : HostReply) (s : State) : (reply r s).a = s.a := rfl
@[simp] theorem reply_b (r : HostReply) (s : State) : (reply r s).b = s.b := rfl
@[simp] theorem reply_pc (r : HostReply) (s : State) : (reply r s).pc = s.pc := rfl
@[simp] theorem reply_icount (r : HostReply) (s : State) : (reply r s).icount = s.icount := rfl
@[simp] theorem reply_fsm (r : HostReply) (s : State) : (reply r s).fsm = s.fsm := rfl
@[simp] theorem reply_mode (r : HostReply) (s : State) : (reply r s).mode = s.mode := rfl
@[simp] theorem reply_stop (r : HostReply) (s : State) : (reply r s).stop = s.stop := rfl
@[simp] theorem reply_ir (r : HostReply) (s : State) : (reply r s).ir = s.ir := rfl
@[simp] theorem reply_haltAddr (r : HostReply) (s : State) : (reply r s).haltAddr = s.haltAddr := rfl
@[simp] theorem reply_faultKind (r : HostReply) (s : State) : (reply r s).faultKind = s.faultKind := rfl
@[simp] theorem reply_faultPc (r : HostReply) (s : State) : (reply r s).faultPc = s.faultPc := rfl
@[simp] theorem reply_faultWord (r : HostReply) (s : State) : (reply r s).faultWord = s.faultWord := rfl
@[simp] theorem reply_mem (r : HostReply) (s : State) : (reply r s).mem = s.mem := rfl
@[simp] theorem reply_breakpoints (r : HostReply) (s : State) : (reply r s).breakpoints =
    s.breakpoints := rfl
@[simp] theorem reply_traceEn (r : HostReply) (s : State) : (reply r s).traceEn = s.traceEn := rfl
@[simp] theorem reply_cancel (r : HostReply) (s : State) : (reply r s).cancel = s.cancel := rfl
@[simp] theorem reply_slots (r : HostReply) (s : State) : (reply r s).slots = s.slots := rfl
@[simp] theorem reply_host (r : HostReply) (s : State) : (reply r s).host = s.host := rfl
@[simp] theorem reply_waiting (r : HostReply) (s : State) : (reply r s).waiting = s.waiting := rfl
@[simp] theorem reply_devOps (r : HostReply) (s : State) : (reply r s).devOps = s.devOps := rfl
@[simp] theorem reply_trace (r : HostReply) (s : State) : (reply r s).trace = s.trace := rfl
@[simp] theorem reply_replies (r : HostReply) (s : State) : (reply r s).replies = s.replies ++ [r] := rfl

/-! ### suspend -/

@[simp] theorem suspend_cfg (why : Stop) (s : State) : (suspend why s).cfg = s.cfg := rfl
@[simp] theorem suspend_a (why : Stop) (s : State) : (suspend why s).a = s.a := rfl
@[simp] theorem suspend_b (why : Stop) (s : State) : (suspend why s).b = s.b := rfl
@[simp] theorem suspend_pc (why : Stop) (s : State) : (suspend why s).pc = s.pc := rfl
@[simp] theorem suspend_icount (why : Stop) (s : State) : (suspend why s).icount = s.icount := rfl
@[simp] theorem suspend_fsm (why : Stop) (s : State) : (suspend why s).fsm = .ready := rfl
@[simp] theorem suspend_mode (why : Stop) (s : State) : (suspend why s).mode = s.mode := rfl
@[simp] theorem suspend_stop (why : Stop) (s : State) : (suspend why s).stop = why := rfl
@[simp] theorem suspend_ir (why : Stop) (s : State) : (suspend why s).ir = s.ir := rfl
@[simp] theorem suspend_haltAddr (why : Stop) (s : State) : (suspend why s).haltAddr = s.haltAddr := rfl
@[simp] theorem suspend_faultKind (why : Stop) (s : State) : (suspend why s).faultKind =
    s.faultKind := rfl
@[simp] theorem suspend_faultPc (why : Stop) (s : State) : (suspend why s).faultPc = s.faultPc := rfl
@[simp] theorem suspend_faultWord (why : Stop) (s : State) : (suspend why s).faultWord =
    s.faultWord := rfl
@[simp] theorem suspend_mem (why : Stop) (s : State) : (suspend why s).mem = s.mem := rfl
@[simp] theorem suspend_breakpoints (why : Stop) (s : State) : (suspend why s).breakpoints =
    s.breakpoints := rfl
@[simp] theorem suspend_traceEn (why : Stop) (s : State) : (suspend why s).traceEn = s.traceEn := rfl
@[simp] theorem suspend_cancel (why : Stop) (s : State) : (suspend why s).cancel = s.cancel := rfl
@[simp] theorem suspend_slots (why : Stop) (s : State) : (suspend why s).slots = s.slots := rfl
@[simp] theorem suspend_host (why : Stop) (s : State) : (suspend why s).host = s.host := rfl
@[simp] theorem suspend_waiting (why : Stop) (s : State) : (suspend why s).waiting = s.waiting := rfl
@[simp] theorem suspend_devOps (why : Stop) (s : State) : (suspend why s).devOps = s.devOps := rfl
@[simp] theorem suspend_trace (why : Stop) (s : State) : (suspend why s).trace = s.trace := rfl
@[simp] theorem suspend_replies (why : Stop) (s : State) : (suspend why s).replies = s.replies := rfl

end Sys2Proof.Machine
end

