-- ==== Sys2Proof/Laws/Ops.lean ====
section
/-! SUPPORT. One lemma for each shared operation that says once everything it can do. -/

namespace Sys2Proof.Machine

open Sys2Proof

/-! ### Memory access and operands -/

theorem memRead_cases (s : State) (x : Nat) :
    (x < s.cfg.memWords ∧ memRead s x = .ok (s.mem.read x)) ∨
    (s.cfg.memWords ≤ x ∧ memRead s x = .addressFault x) := by
  unfold memRead
  split_ifs with h
  · exact .inl ⟨h, rfl⟩
  · exact .inr ⟨Nat.le_of_not_lt h, rfl⟩

theorem memWrite_cases (s : State) (x : Nat) (v : Word) :
    (x < s.cfg.memWords ∧ memWrite s x v = .ok { s with mem := s.mem.write x v }) ∨
    (s.cfg.memWords ≤ x ∧ memWrite s x v = .addressFault x) := by
  unfold memWrite
  split_ifs with h
  · exact .inl ⟨h, rfl⟩
  · exact .inr ⟨Nat.le_of_not_lt h, rfl⟩

@[simp] theorem effectiveAddress_eq (x : Nat) : effectiveAddress x = x := rfl

@[simp] theorem slotNumber_eq (x : Nat) : slotNumber x = x := rfl

theorem withOperand_cases (x : Nat) (s : State) (k : Word → State) :
    (x < s.cfg.memWords ∧ withOperand x s k = k (s.mem.read x)) ∨
    (s.cfg.memWords ≤ x ∧ withOperand x s k = raiseExec .addressFault s) := by
  unfold withOperand
  rcases memRead_cases s (effectiveAddress x) with ⟨h, e⟩ | ⟨h, e⟩ <;> rw [e]
  · exact .inl ⟨h, rfl⟩
  · exact .inr ⟨h, rfl⟩

theorem withOperand_of_lt {x : Nat} {s : State} (h : x < s.cfg.memWords) (k : Word → State) :
    withOperand x s k = k (s.mem.read x) := by
  rcases withOperand_cases x s k with ⟨_, e⟩ | ⟨h', _⟩
  · exact e
  · omega

theorem withOperand_of_ge {x : Nat} {s : State} (h : s.cfg.memWords ≤ x) (k : Word → State) :
    withOperand x s k = raiseExec .addressFault s := by
  rcases withOperand_cases x s k with ⟨h', _⟩ | ⟨_, e⟩
  · omega
  · exact e

theorem storeOperand_cases (x : Nat) (v : Word) (s : State) (k : State → State) :
    (x < s.cfg.memWords ∧ storeOperand x v s k = k { s with mem := s.mem.write x v }) ∨
    (s.cfg.memWords ≤ x ∧ storeOperand x v s k = raiseExec .addressFault s) := by
  unfold storeOperand
  rcases memWrite_cases s (effectiveAddress x) v with ⟨h, e⟩ | ⟨h, e⟩ <;> rw [e]
  · exact .inl ⟨h, rfl⟩
  · exact .inr ⟨h, rfl⟩

theorem storeOperand_of_lt {x : Nat} {s : State} (h : x < s.cfg.memWords) (v : Word)
    (k : State → State) : storeOperand x v s k = k { s with mem := s.mem.write x v } := by
  rcases storeOperand_cases x v s k with ⟨_, e⟩ | ⟨h', _⟩
  · exact e
  · omega

theorem storeOperand_of_ge {x : Nat} {s : State} (h : s.cfg.memWords ≤ x) (v : Word)
    (k : State → State) : storeOperand x v s k = raiseExec .addressFault s := by
  rcases storeOperand_cases x v s k with ⟨h', _⟩ | ⟨_, e⟩
  · omega
  · exact e

/-! ### The arbiter -/

theorem portOwner_cases (s : State) :
    (s.fsm = .running ∧ portOwner s = .fsm) ∨ (s.fsm ≠ .running ∧ portOwner s = .host) := by
  unfold portOwner
  split_ifs with h
  · exact .inl ⟨h, rfl⟩
  · exact .inr ⟨h, rfl⟩

/-! ### The device port -/

/-- `t` is `s` but for what a device operation changes: the endpoints' scripts and the record of device
operations, which only grows. Every binding stays. -/
structure DeviceOnly (s t : State) : Prop where
  rest : t = { s with slots := t.slots, devOps := t.devOps }
  length : t.slots.length = s.slots.length
  bound : ∀ n, devBound t n = devBound s n
  grows : s.devOps <+: t.devOps
  quiet : t.devOps = s.devOps → t.slots = s.slots

theorem DeviceOnly.refl (s : State) : DeviceOnly s s :=
  ⟨rfl, rfl, fun _ => rfl, List.prefix_rfl, fun _ => rfl⟩

theorem DeviceOnly.trans {s t u : State} (h : DeviceOnly s t) (k : DeviceOnly t u) :
    DeviceOnly s u := by
  refine ⟨?_, k.length.trans h.length, fun n => (k.bound n).trans (h.bound n), h.grows.trans k.grows,
    fun e => ?_⟩
  · conv_lhs => rw [k.rest, h.rest]
  · have e' : t.devOps = s.devOps :=
      (h.grows.eq_of_length_le (e ▸ k.grows.length_le)).symm
    exact (k.quiet (e.trans e'.symm)).trans (h.quiet e')

/-- With no device operation performed, nothing has changed. -/
theorem DeviceOnly.eq_of_devOps {s t : State} (h : DeviceOnly s t) (e : t.devOps = s.devOps) : t = s := by
  rw [h.rest, e, h.quiet e]

theorem DeviceOnly.cfg_eq {s t : State} (h : DeviceOnly s t) : t.cfg = s.cfg :=
  (congrArg State.cfg h.rest :)

theorem DeviceOnly.a_eq {s t : State} (h : DeviceOnly s t) : t.a = s.a :=
  (congrArg State.a h.rest :)

theorem DeviceOnly.b_eq {s t : State} (h : DeviceOnly s t) : t.b = s.b :=
  (congrArg State.b h.rest :)

theorem DeviceOnly.pc_eq {s t : State} (h : DeviceOnly s t) : t.pc = s.pc :=
  (congrArg State.pc h.rest :)

theorem DeviceOnly.icount_eq {s t : State} (h : DeviceOnly s t) : t.icount = s.icount :=
  (congrArg State.icount h.rest :)

theorem DeviceOnly.fsm_eq {s t : State} (h : DeviceOnly s t) : t.fsm = s.fsm :=
  (congrArg State.fsm h.rest :)

theorem DeviceOnly.mode_eq {s t : State} (h : DeviceOnly s t) : t.mode = s.mode :=
  (congrArg State.mode h.rest :)

theorem DeviceOnly.stop_eq {s t : State} (h : DeviceOnly s t) : t.stop = s.stop :=
  (congrArg State.stop h.rest :)

theorem DeviceOnly.ir_eq {s t : State} (h : DeviceOnly s t) : t.ir = s.ir :=
  (congrArg State.ir h.rest :)

theorem DeviceOnly.haltAddr_eq {s t : State} (h : DeviceOnly s t) : t.haltAddr = s.haltAddr :=
  (congrArg State.haltAddr h.rest :)

theorem DeviceOnly.faultKind_eq {s t : State} (h : DeviceOnly s t) : t.faultKind = s.faultKind :=
  (congrArg State.faultKind h.rest :)

theorem DeviceOnly.faultPc_eq {s t : State} (h : DeviceOnly s t) : t.faultPc = s.faultPc :=
  (congrArg State.faultPc h.rest :)

theorem DeviceOnly.faultWord_eq {s t : State} (h : DeviceOnly s t) : t.faultWord = s.faultWord :=
  (congrArg State.faultWord h.rest :)

theorem DeviceOnly.mem_eq {s t : State} (h : DeviceOnly s t) : t.mem = s.mem :=
  (congrArg State.mem h.rest :)

theorem DeviceOnly.breakpoints_eq {s t : State} (h : DeviceOnly s t) : t.breakpoints = s.breakpoints :=
  (congrArg State.breakpoints h.rest :)

theorem DeviceOnly.traceEn_eq {s t : State} (h : DeviceOnly s t) : t.traceEn = s.traceEn :=
  (congrArg State.traceEn h.rest :)

theorem DeviceOnly.cancel_eq {s t : State} (h : DeviceOnly s t) : t.cancel = s.cancel :=
  (congrArg State.cancel h.rest :)

theorem DeviceOnly.host_eq {s t : State} (h : DeviceOnly s t) : t.host = s.host :=
  (congrArg State.host h.rest :)

theorem DeviceOnly.waiting_eq {s t : State} (h : DeviceOnly s t) : t.waiting = s.waiting :=
  (congrArg State.waiting h.rest :)

theorem DeviceOnly.trace_eq {s t : State} (h : DeviceOnly s t) : t.trace = s.trace :=
  (congrArg State.trace h.rest :)

theorem DeviceOnly.replies_eq {s t : State} (h : DeviceOnly s t) : t.replies = s.replies :=
  (congrArg State.replies h.rest :)

theorem endpointOf_recordOp (n m : Nat) (ep : Endpoint) (op : DevOp) (s : State)
    (h : (endpointOf s n).isSome) :
    endpointOf (recordOp n ep op s) m = if m = n then some ep else endpointOf s m := by
  have hn : n < s.slots.length := by
    by_contra hn
    simp [endpointOf, List.getElem?_eq_none (Nat.le_of_not_lt hn)] at h
  unfold endpointOf
  rw [recordOp_slots, List.getElem?_set]
  split_ifs <;> first | rfl | omega

theorem deviceOnly_recordOp (n : Nat) (ep : Endpoint) (op : DevOp) (s : State)
    (h : (endpointOf s n).isSome) : DeviceOnly s (recordOp n ep op s) := by
  refine ⟨rfl, by simp, fun m => ?_, by simp, fun e => absurd e (by simp)⟩
  unfold devBound
  rw [endpointOf_recordOp n m ep op s h]
  split_ifs with hm
  · subst hm; rw [h]; rfl
  · rfl

theorem devRead_deviceOnly (s : State) (n : Nat) : DeviceOnly s (devRead s n).2 := by
  unfold devRead
  cases h : endpointOf s n with
  | none => exact .refl s
  | some ep => exact deviceOnly_recordOp _ _ _ _ (by simp [h])

theorem devWrite_deviceOnly (s : State) (n : Nat) (w : Word) : DeviceOnly s (devWrite s n w).2 := by
  unfold devWrite
  cases h : endpointOf s n with
  | none => exact .refl s
  | some ep => exact deviceOnly_recordOp _ _ _ _ (by simp [h])

theorem devWriteChar_deviceOnly (s : State) (n c : Nat) : DeviceOnly s (devWriteChar s n c).2 := by
  unfold devWriteChar
  cases h : endpointOf s n with
  | none => exact .refl s
  | some ep => exact deviceOnly_recordOp _ _ _ _ (by simp [h])

/-- On a bound slot `DevRead` gives the endpoint's answer and records it. -/
theorem devRead_of_bound {s : State} {n : Nat} {ep : Endpoint} (h : endpointOf s n = some ep) :
    devRead s n = (readAnswer s n ep,
      recordOp n { ep with reads := ep.reads.tail } (.read n (readAnswer s n ep)) s) := by
  unfold devRead; rw [h]

/-- On a bound slot `DevWrite` gives the endpoint's answer and records it. -/
theorem devWrite_of_bound {s : State} {n : Nat} {ep : Endpoint} (w : Word)
    (h : endpointOf s n = some ep) :
    devWrite s n w = (writeAnswer s n ep,
      recordOp n { ep with writes := ep.writes.tail } (.write n w (writeAnswer s n ep)) s) := by
  unfold devWrite; rw [h]

/-- On a bound slot `DevWriteChar` gives the endpoint's answer and records it. -/
theorem devWriteChar_of_bound {s : State} {n : Nat} {ep : Endpoint} (c : Nat)
    (h : endpointOf s n = some ep) :
    devWriteChar s n c = (writeAnswer s n ep,
      recordOp n { ep with writes := ep.writes.tail } (.writeChar n c (writeAnswer s n ep)) s) := by
  unfold devWriteChar; rw [h]

/-! ### The I/O operations -/

theorem inputWord_cases (n : Nat) (s : State) :
    (∃ v t, DeviceOnly s t ∧ inputWord n s = complete { t with a := v }) ∨
    (∃ t, DeviceOnly s t ∧ inputWord n s = raiseExec .deviceFault t) := by
  have hd := devRead_deviceOnly s n
  unfold inputWord
  split_ifs
  · revert hd
    rcases devRead s n with ⟨_ | v, t⟩ <;> intro hd
    · exact .inr ⟨t, hd, rfl⟩
    · exact .inl ⟨v, t, hd, rfl⟩
  · exact .inr ⟨s, .refl s, rfl⟩

theorem outputWord_cases (n : Nat) (s : State) :
    (∃ t, DeviceOnly s t ∧ outputWord n s = complete t) ∨
    (∃ t, DeviceOnly s t ∧ outputWord n s = raiseExec .deviceFault t) := by
  have hd := devWrite_deviceOnly s n s.a
  unfold outputWord
  split_ifs
  · revert hd
    rcases devWrite s n s.a with ⟨_ | _, t⟩ <;> intro hd
    · exact .inr ⟨t, hd, rfl⟩
    · exact .inl ⟨t, hd, rfl⟩
  · exact .inr ⟨s, .refl s, rfl⟩

/-- The state a `Sent` ends in. -/
def Sent.state : Sent → State
  | .ended t => t
  | .failed t => t
  | .more t => t

theorem sendCodes_deviceOnly (cs : List Nat) (s : State) : DeviceOnly s (sendCodes cs s).state := by
  induction cs generalizing s with
  | nil => exact .refl s
  | cons c cs ih =>
    have hd := devWriteChar_deviceOnly s Config.console c
    unfold sendCodes
    split_ifs
    · exact .refl s
    · revert hd
      rcases devWriteChar s Config.console c with ⟨_ | _, t⟩ <;> intro hd
      · exact hd
      · exact hd.trans (ih t)

theorem printFrom_cases (fuel k : Nat) (s : State) :
    ∃ t, DeviceOnly s t ∧ (printFrom fuel k s = complete t ∨
      printFrom fuel k s = raiseExec .addressFault t ∨
      printFrom fuel k s = raiseExec .deviceFault t) := by
  induction fuel generalizing k s with
  | zero => exact ⟨s, .refl s, .inr (.inl rfl)⟩
  | succ fuel ih =>
    unfold printFrom
    cases memRead s k with
    | addressFault x => exact ⟨s, .refl s, .inr (.inl rfl)⟩
    | ok w =>
      have hd := sendCodes_deviceOnly (textCodes w) s
      simp only
      revert hd
      rcases sendCodes (textCodes w) s with t | t | t <;> intro hd
      · exact ⟨t, hd, .inl rfl⟩
      · exact ⟨t, hd, .inr (.inr rfl)⟩
      · obtain ⟨u, hu, hc⟩ := ih (k + 1) t
        exact ⟨u, DeviceOnly.trans hd hu, hc⟩

/-- The outer loop of `PRT` as 44_io R187 writes it: read the Word at `k`; an `AddressFault` there ends
the instruction, else its codes are sent, and after the last of them the loop goes on at `k + 1`. -/
theorem printText_eq (k : Nat) (s : State) :
    printText k s =
      match memRead s k with
      | .addressFault _ => raiseExec .addressFault s
      | .ok w =>
        match sendCodes (textCodes w) s with
        | .ended t => complete t
        | .failed t => raiseExec .deviceFault t
        | .more t => printText (k + 1) t := by
  rcases memRead_cases s k with ⟨h, e⟩ | ⟨h, e⟩
  · obtain ⟨d, hd⟩ : ∃ d, s.cfg.memWords - k = d + 1 := ⟨s.cfg.memWords - k - 1, by omega⟩
    have hs := sendCodes_deviceOnly (textCodes (s.mem.read k)) s
    unfold printText
    rw [hd, printFrom, e]
    simp only
    revert hs
    rcases sendCodes (textCodes (s.mem.read k)) s with t | t | t <;> intro hs
    · rfl
    · rfl
    · have hc : t.cfg = s.cfg := by have := congrArg State.cfg hs.rest; exact this
      have hf : d = t.cfg.memWords - (k + 1) := by rw [hc]; omega
      exact congrArg (fun f => printFrom f (k + 1) t) hf
  · have hd : s.cfg.memWords - k = 0 := by omega
    unfold printText
    rw [hd, printFrom, e]

end Sys2Proof.Machine
end

