-- ==== Sys2Proof/Laws/Exec.lean ====
section
/-! SUPPORT. What the meaning of any instruction can do, once: the inversion lemma of `exec`. -/

namespace Sys2Proof.Machine

open Sys2Proof

/-- `t` is `s` after the EXECUTE phase of an operation under the contract of 30_encoding R75: `A`, `B`,
one Word of memory below `MEM_WORDS`, and what device operations change. -/
structure Executed (s t : State) : Prop where
  rest : t = { s with a := t.a, b := t.b, mem := t.mem, slots := t.slots, devOps := t.devOps }
  mem : t.mem = s.mem ∨ ∃ x v, x < s.cfg.memWords ∧ t.mem = s.mem.write x v
  length : t.slots.length = s.slots.length
  bound : ∀ n, devBound t n = devBound s n
  grows : s.devOps <+: t.devOps

theorem Executed.cfg_eq {s t : State} (h : Executed s t) : t.cfg = s.cfg :=
  (congrArg State.cfg h.rest :)

theorem Executed.pc_eq {s t : State} (h : Executed s t) : t.pc = s.pc :=
  (congrArg State.pc h.rest :)

theorem Executed.icount_eq {s t : State} (h : Executed s t) : t.icount = s.icount :=
  (congrArg State.icount h.rest :)

theorem Executed.fsm_eq {s t : State} (h : Executed s t) : t.fsm = s.fsm :=
  (congrArg State.fsm h.rest :)

theorem Executed.mode_eq {s t : State} (h : Executed s t) : t.mode = s.mode :=
  (congrArg State.mode h.rest :)

theorem Executed.stop_eq {s t : State} (h : Executed s t) : t.stop = s.stop :=
  (congrArg State.stop h.rest :)

theorem Executed.ir_eq {s t : State} (h : Executed s t) : t.ir = s.ir :=
  (congrArg State.ir h.rest :)

theorem Executed.haltAddr_eq {s t : State} (h : Executed s t) : t.haltAddr = s.haltAddr :=
  (congrArg State.haltAddr h.rest :)

theorem Executed.faultKind_eq {s t : State} (h : Executed s t) : t.faultKind = s.faultKind :=
  (congrArg State.faultKind h.rest :)

theorem Executed.faultPc_eq {s t : State} (h : Executed s t) : t.faultPc = s.faultPc :=
  (congrArg State.faultPc h.rest :)

theorem Executed.faultWord_eq {s t : State} (h : Executed s t) : t.faultWord = s.faultWord :=
  (congrArg State.faultWord h.rest :)

theorem Executed.breakpoints_eq {s t : State} (h : Executed s t) : t.breakpoints = s.breakpoints :=
  (congrArg State.breakpoints h.rest :)

theorem Executed.traceEn_eq {s t : State} (h : Executed s t) : t.traceEn = s.traceEn :=
  (congrArg State.traceEn h.rest :)

theorem Executed.cancel_eq {s t : State} (h : Executed s t) : t.cancel = s.cancel :=
  (congrArg State.cancel h.rest :)

theorem Executed.host_eq {s t : State} (h : Executed s t) : t.host = s.host :=
  (congrArg State.host h.rest :)

theorem Executed.waiting_eq {s t : State} (h : Executed s t) : t.waiting = s.waiting :=
  (congrArg State.waiting h.rest :)

theorem Executed.trace_eq {s t : State} (h : Executed s t) : t.trace = s.trace :=
  (congrArg State.trace h.rest :)

theorem Executed.replies_eq {s t : State} (h : Executed s t) : t.replies = s.replies :=
  (congrArg State.replies h.rest :)

theorem DeviceOnly.executed {s t : State} (h : DeviceOnly s t) (v w : Word) :
    Executed s { t with a := v, b := w } := by
  obtain ⟨hr, hl, hb, hg, -⟩ := h
  refine ⟨?_, .inl ?_, hl, fun n => hb n, hg⟩
  · conv_lhs => rw [hr]
    rw [hr]
  · show t.mem = s.mem
    rw [hr]

theorem Executed.refl (s : State) (v w : Word) : Executed s { s with a := v, b := w } :=
  (DeviceOnly.refl s).executed v w

theorem Executed.store (s : State) {x : Nat} (v : Word) (h : x < s.cfg.memWords) :
    Executed s { s with mem := s.mem.write x v } :=
  ⟨rfl, .inr ⟨x, v, h, rfl⟩, rfl, fun _ => rfl, List.prefix_rfl⟩

theorem Executed.storeWith (s : State) {x : Nat} (v a b : Word) (h : x < s.cfg.memWords) :
    Executed s { s with a := a, b := b, mem := s.mem.write x v } :=
  ⟨rfl, .inr ⟨x, v, h, rfl⟩, rfl, fun _ => rfl, List.prefix_rfl⟩

/-- An EXECUTE phase that began with device operations. -/
theorem Executed.after {s t u : State} (k : Executed t u) (h : DeviceOnly s t) : Executed s u := by
  refine ⟨?_, ?_, k.length.trans h.length, fun n => (k.bound n).trans (h.bound n), h.grows.trans k.grows⟩
  · conv_lhs => rw [k.rest, h.rest]
  · have := k.mem
    rwa [h.mem_eq, h.cfg_eq] at this

/-- How the cycle of an instruction that does not fault ends, once its EXECUTE phase has left the
state `t`. -/
inductive Completes (i : Instr) (t : State) : State → Prop where
  /-- Not the halt operation, and no jump target. -/
  | next : i.operation ≠ .hlt → Completes i t (complete t)
  /-- Not the halt operation, with its `ADDR` as jump target. -/
  | jumped : i.operation ≠ .hlt → Completes i t (completeJump i.addr t)
  /-- The halt operation. -/
  | halted : i.operation = .hlt → Completes i t (completeHalt t)

/-- What `exec` can do: for every instruction and every state it answers a next state. Either the cycle
completes from a state of the operation contract, or it faults and has changed nothing but what device
operations change (60_exceptions R208). -/
inductive ExecEnds (i : Instr) (s : State) : State → Prop where
  | completed {t u : State} : Executed s t → Completes i t u → ExecEnds i s u
  | faulted {t : State} (kind : FaultKind) :
      kind ≠ .decodeFault → DeviceOnly s t → ExecEnds i s (raiseExec kind t)

theorem ExecEnds.address (i : Instr) (s : State) : ExecEnds i s (raiseExec .addressFault s) :=
  .faulted _ (by decide) (.refl s)

theorem ExecEnds.device (i : Instr) {s t : State} (h : DeviceOnly s t) :
    ExecEnds i s (raiseExec .deviceFault t) :=
  .faulted _ (by decide) h

theorem execEnds_withOperand (i : Instr) (x : Nat) (s : State) (f g : Word → Word)
    (h : i.operation ≠ .hlt) :
    ExecEnds i s (withOperand x s fun v => complete { s with a := f v, b := g v }) := by
  rcases withOperand_cases x s fun v => complete { s with a := f v, b := g v } with ⟨-, e⟩ | ⟨-, e⟩ <;>
    rw [e]
  · exact .completed (.refl s _ _) (.next h)
  · exact .address i s

theorem execEnds_storeOperand (i : Instr) (x : Nat) (v : Word) (s : State)
    (h : i.operation ≠ .hlt) : ExecEnds i s (storeOperand x v s complete) := by
  rcases storeOperand_cases x v s complete with ⟨hx, e⟩ | ⟨-, e⟩ <;> rw [e]
  · exact .completed (.store s v hx) (.next h)
  · exact .address i s

theorem execEnds_branch (i : Instr) (taken : Bool) (s : State) (h : i.operation ≠ .hlt) :
    ExecEnds i s (branch taken i.addr s) := by
  cases taken
  · exact .completed (.refl s s.a s.b) (.next h)
  · exact .completed (.refl s s.a s.b) (.jumped h)

theorem exec_ends (i : Instr) (s : State) : ∃ u, exec i s = .next u ∧ ExecEnds i s u := by
  cases i with
  | hlt x => exact ⟨_, rfl, .completed (.refl s s.a s.b) (.halted rfl)⟩
  | nop x =>
    exact ⟨_, rfl, .completed (.refl s s.a s.b) (.next (by simp [Instr.operation]))⟩
  | lda x => exact ⟨_, rfl, execEnds_withOperand _ x s id (fun _ => s.b) (by simp [Instr.operation])⟩
  | ldb x => exact ⟨_, rfl, execEnds_withOperand _ x s (fun _ => s.a) id (by simp [Instr.operation])⟩
  | sta x => exact ⟨_, rfl, execEnds_storeOperand _ x s.a s (by simp [Instr.operation])⟩
  | stb x => exact ⟨_, rfl, execEnds_storeOperand _ x s.b s (by simp [Instr.operation])⟩
  | xab x => exact ⟨_, rfl, .completed (.refl s s.b s.a) (.next (by simp [Instr.operation]))⟩
  | add x =>
    exact ⟨_, rfl, execEnds_withOperand _ x s _ (fun _ => s.b) (by simp [Instr.operation])⟩
  | sub x =>
    exact ⟨_, rfl, execEnds_withOperand _ x s _ (fun _ => s.b) (by simp [Instr.operation])⟩
  | mul x => exact ⟨_, rfl, execEnds_withOperand _ x s _ _ (by simp [Instr.operation])⟩
  | jmp x => exact ⟨_, rfl, execEnds_branch (.jmp x) true s (by simp [Instr.operation])⟩
  | jaz x => exact ⟨_, rfl, execEnds_branch (.jaz x) _ s (by simp [Instr.operation])⟩
  | jan x => exact ⟨_, rfl, execEnds_branch (.jan x) _ s (by simp [Instr.operation])⟩
  | inp x =>
    refine ⟨_, rfl, ?_⟩
    rcases inputWord_cases (slotNumber x) s with ⟨v, t, ht, e⟩ | ⟨t, ht, e⟩ <;> rw [e]
    · exact .completed (ht.executed v t.b) (.next (by simp [Instr.operation]))
    · exact .device _ ht
  | out x =>
    refine ⟨_, rfl, ?_⟩
    rcases outputWord_cases (slotNumber x) s with ⟨t, ht, e⟩ | ⟨t, ht, e⟩ <;> rw [e]
    · exact .completed (ht.executed t.a t.b) (.next (by simp [Instr.operation]))
    · exact .device _ ht
  | prt x =>
    refine ⟨_, rfl, ?_⟩
    split_ifs
    · obtain ⟨t, ht, e | e | e⟩ := printFrom_cases (s.cfg.memWords - effectiveAddress x)
        (effectiveAddress x) s <;> rw [printText, e]
      · exact .completed (ht.executed t.a t.b) (.next (by simp [Instr.operation]))
      · exact .faulted _ (by decide) ht
      · exact .device _ ht
    · exact .device _ (.refl s)

/-! ### Operations outside the reference set -/

/-- What an operation outside the reference set can do: the same as `ExecEnds` says of an instruction
(30_encoding R75). -/
inductive OtherEnds (halt : Bool) (s : State) : State → Prop where
  | completed {t : State} (target : Option Nat) : Executed s t →
      (∀ x, target = some x → x < Config.amod) → OtherEnds halt s (completeAs halt target t)
  | faulted {t : State} (kind : FaultKind) :
      kind ≠ .decodeFault → DeviceOnly s t → OtherEnds halt s (raiseExec kind t)

/-- What follows after device operations. -/
theorem OtherEnds.after {halt : Bool} {s t u : State} (h : DeviceOnly s t) (k : OtherEnds halt t u) :
    OtherEnds halt s u := by
  cases k with
  | completed target hE hx => exact .completed target (hE.after h) hx
  | faulted kind hk hD => exact .faulted kind hk (h.trans hD)

/-- The state an operation has left at its end. -/
def Reached.state : Reached → State
  | .fault _ s => s
  | .result _ s => s

/-- A fault that an operation ends in is none of the decoder's (30_encoding R75). -/
def Reached.FaultKindOk : Reached → Prop
  | .fault kind _ => kind ≠ .decodeFault
  | .result _ _ => True

/-- What following an operation can do: device operations, and nothing else. -/
theorem reachOther_deviceOnly (act : OpAct) (s : State) :
    DeviceOnly s (reachOther act s).state ∧ (reachOther act s).FaultKindOk := by
  have address : ∀ s : State, (Reached.fault .addressFault s).FaultKindOk := fun _ h => by cases h
  have device : ∀ s : State, (Reached.fault .deviceFault s).FaultKindOk := fun _ h => by cases h
  induction act generalizing s with
  | fault kind => exact ⟨.refl s, by cases kind <;> exact fun h => by cases h⟩
  | finish r => exact ⟨.refl s, trivial⟩
  | memRead x next ih =>
    unfold reachOther
    cases memRead s x with
    | ok v => exact ih v s
    | addressFault _ => exact ⟨.refl s, address s⟩
  | devBound n next ih => exact ih _ s
  | devRead n next ih =>
    unfold reachOther
    split_ifs
    · exact ⟨(devRead_deviceOnly s n).trans (ih _ _).1, (ih _ _).2⟩
    · exact ⟨.refl s, device s⟩
  | devWrite n v next ih =>
    unfold reachOther
    split_ifs
    · exact ⟨(devWrite_deviceOnly s n _).trans (ih _ _).1, (ih _ _).2⟩
    · exact ⟨.refl s, device s⟩
  | devWriteChar n c next ih =>
    unfold reachOther
    split_ifs
    · exact ⟨(devWriteChar_deviceOnly s n _).trans (ih _ _).1, (ih _ _).2⟩
    · exact ⟨.refl s, device s⟩

theorem finishOther_ends (halt : Bool) (r : OpResult) (s : State) :
    OtherEnds halt s (finishOther halt r s) := by
  have target : ∀ x, r.target.map (·.val) = some x → x < Config.amod := by
    intro x hx
    obtain ⟨y, -, rfl⟩ := Option.map_eq_some_iff.mp hx
    exact y.2
  unfold finishOther
  rcases r.store with _ | ⟨x, v⟩
  · exact .completed _ (.refl s _ _) target
  · dsimp only
    rcases memWrite_cases s x (ovf s.cfg.ovf v) with ⟨h, e⟩ | ⟨-, e⟩ <;> rw [e]
    · exact .completed _ (.storeWith s _ _ _ h) target
    · exact .faulted _ (by decide) (.refl s)

theorem performOther_ends (halt : Bool) (act : OpAct) (s : State) :
    OtherEnds halt s (performOther halt act s) := by
  have h := reachOther_deviceOnly act s
  unfold performOther
  cases e : reachOther act s with
  | fault kind t => rw [e] at h; exact .faulted kind h.2 h.1
  | result r t => rw [e] at h; exact (finishOther_ends halt r t).after h.1

theorem execOther_ends (n : Nat) (halt : Bool) (x : Nat) (s : State) :
    OtherEnds halt s (execOther n halt x s) := performOther_ends halt _ s

/-! ### The EXECUTE phase reads no control state -/

/-- The state whose data (`A`, `B`, `PC`, memory, the device slots and the record of device operations,
with the parameters) are those of `s`, and whose everything else is that of `c`. -/
def ctl (c s : State) : State :=
  { c with
    cfg := s.cfg, a := s.a, b := s.b, pc := s.pc, mem := s.mem, slots := s.slots, devOps := s.devOps }

theorem ctl_self (s : State) : ctl s s = s := rfl

/-- The ends of a cycle that reaches EXECUTE. -/
inductive CycleEnd where
  | done (halt : Bool) (target : Option Nat)
  | fault (kind : FaultKind)

/-- The end of the cycle, from the state EXECUTE leaves. -/
def CycleEnd.apply : CycleEnd → State → State
  | .done halt target => completeAs halt target
  | .fault kind => raiseExec kind

theorem devRead_ctl (c s : State) (n : Nat) :
    devRead (ctl c s) n = ((devRead s n).1, ctl c (devRead s n).2) := by
  unfold devRead
  have h : endpointOf (ctl c s) n = endpointOf s n := rfl
  rw [h]
  cases endpointOf s n <;> rfl

theorem devWrite_ctl (c s : State) (n : Nat) (w : Word) :
    devWrite (ctl c s) n w = ((devWrite s n w).1, ctl c (devWrite s n w).2) := by
  unfold devWrite
  have h : endpointOf (ctl c s) n = endpointOf s n := rfl
  rw [h]
  cases endpointOf s n <;> rfl

theorem devWriteChar_ctl (c s : State) (n code : Nat) :
    devWriteChar (ctl c s) n code = ((devWriteChar s n code).1, ctl c (devWriteChar s n code).2) := by
  unfold devWriteChar
  have h : endpointOf (ctl c s) n = endpointOf s n := rfl
  rw [h]
  cases endpointOf s n <;> rfl

/-- The same end of sending, in another state. -/
def Sent.map (f : State → State) : Sent → Sent
  | .ended t => .ended (f t)
  | .failed t => .failed (f t)
  | .more t => .more (f t)

theorem sendCodes_ctl (c : State) (cs : List Nat) (s : State) :
    sendCodes cs (ctl c s) = (sendCodes cs s).map (ctl c) := by
  induction cs generalizing s with
  | nil => rfl
  | cons code cs ih =>
    simp only [sendCodes, devWriteChar_ctl]
    split_ifs
    · rfl
    · rcases devWriteChar s Config.console code with ⟨_ | _, t⟩
      · rfl
      · exact ih t

theorem printFrom_ctl (fuel k : Nat) (s : State) :
    ∃ e t, printFrom fuel k s = CycleEnd.apply e t ∧
      ∀ c, printFrom fuel k (ctl c s) = CycleEnd.apply e (ctl c t) := by
  induction fuel generalizing k s with
  | zero => exact ⟨.fault .addressFault, s, rfl, fun _ => rfl⟩
  | succ fuel ih =>
    have hm : ∀ c, memRead (ctl c s) k = memRead s k := fun _ => rfl
    simp only [printFrom, hm, sendCodes_ctl]
    rcases memRead s k with w | x
    · dsimp only
      generalize sendCodes (textCodes w) s = r
      rcases r with t | t | t
      · exact ⟨.done false none, t, rfl, fun _ => rfl⟩
      · exact ⟨.fault .deviceFault, t, rfl, fun _ => rfl⟩
      · exact ih (k + 1) t
    · exact ⟨.fault .addressFault, s, rfl, fun _ => rfl⟩

/-- EXECUTE is a function of the data alone (30_encoding R75): from two states with the same data it
leaves the same data, and the cycle ends in the same way. -/
theorem exec_reads_only_data (i : Instr) (s : State) :
    ∃ e t, exec i s = .next (CycleEnd.apply e t) ∧
      ∀ c, exec i (ctl c s) = .next (CycleEnd.apply e (ctl c t)) := by
  have operand : ∀ (x : Nat) (f g : Word → Word), ∃ e t,
      withOperand x s (fun v => complete { s with a := f v, b := g v }) = CycleEnd.apply e t ∧
      ∀ c, withOperand x (ctl c s) (fun v => complete { ctl c s with a := f v, b := g v }) =
        CycleEnd.apply e (ctl c t) := by
    intro x f g
    have hm : ∀ c, memRead (ctl c s) x = memRead s x := fun _ => rfl
    simp only [withOperand, effectiveAddress, hm]
    rcases memRead s x with v | y
    · exact ⟨.done false none, { s with a := f v, b := g v }, rfl, fun _ => rfl⟩
    · exact ⟨.fault .addressFault, s, rfl, fun _ => rfl⟩
  have store : ∀ (x : Nat) (v : Word), ∃ e t, storeOperand x v s complete = CycleEnd.apply e t ∧
      ∀ c, storeOperand x v (ctl c s) complete = CycleEnd.apply e (ctl c t) := by
    intro x v
    rcases Nat.lt_or_ge x s.cfg.memWords with h | h
    · refine ⟨.done false none, { s with mem := s.mem.write x v }, storeOperand_of_lt h _ _, fun c => ?_⟩
      rw [storeOperand_of_lt (s := ctl c s) h]; rfl
    · exact ⟨.fault .addressFault, s, storeOperand_of_ge h _ _, fun c =>
        storeOperand_of_ge (s := ctl c s) h _ _⟩
  have jump : ∀ (b : Bool) (x : Nat), ∃ e t, branch b x s = CycleEnd.apply e t ∧
      ∀ c, branch b x (ctl c s) = CycleEnd.apply e (ctl c t) := by
    intro b x
    cases b
    · exact ⟨.done false none, s, rfl, fun _ => rfl⟩
    · exact ⟨.done false (some x), s, rfl, fun _ => rfl⟩
  have lift : ∀ {i : Instr} {p : State → State}, (∀ u, exec i u = .next (p u)) →
      (∃ e t, p s = CycleEnd.apply e t ∧ ∀ c, p (ctl c s) = CycleEnd.apply e (ctl c t)) →
      ∃ e t, exec i s = .next (CycleEnd.apply e t) ∧
        ∀ c, exec i (ctl c s) = .next (CycleEnd.apply e (ctl c t)) := by
    rintro i p hp ⟨e, t, h1, h2⟩
    exact ⟨e, t, by rw [hp, h1], fun c => by rw [hp, h2]⟩
  cases i with
  | hlt x => exact ⟨.done true none, s, rfl, fun _ => rfl⟩
  | nop x => exact ⟨.done false none, s, rfl, fun _ => rfl⟩
  | lda x => exact lift (fun _ => rfl) (operand x id fun _ => s.b)
  | ldb x => exact lift (fun _ => rfl) (operand x (fun _ => s.a) id)
  | sta x => exact lift (p := fun u => storeOperand x u.a u complete) (fun _ => rfl) (store x s.a)
  | stb x => exact lift (p := fun u => storeOperand x u.b u complete) (fun _ => rfl) (store x s.b)
  | xab x => exact ⟨.done false none, { s with a := s.b, b := s.a }, rfl, fun _ => rfl⟩
  | add x => exact lift (fun _ => rfl) (operand x (aluAdd s.cfg.ovf s.a) fun _ => s.b)
  | sub x => exact lift (fun _ => rfl) (operand x (aluSub s.cfg.ovf s.a) fun _ => s.b)
  | mul x => exact lift (fun _ => rfl) (operand x (aluMulHigh s.a) (aluMulLow s.a))
  | jmp x => exact ⟨.done false (some x), s, rfl, fun _ => rfl⟩
  | jaz x => exact lift (p := fun u => branch (isZero u.a) x u) (fun _ => rfl) (jump _ x)
  | jan x => exact lift (p := fun u => branch (isNegative u.a) x u) (fun _ => rfl) (jump _ x)
  | inp x =>
    refine lift (p := inputWord x) (fun _ => rfl) ?_
    have hb : ∀ c, devBound (ctl c s) x = devBound s x := fun _ => rfl
    simp only [inputWord, hb, devRead_ctl]
    split_ifs
    · rcases devRead s x with ⟨_ | v, t⟩
      · exact ⟨.fault .deviceFault, t, rfl, fun _ => rfl⟩
      · exact ⟨.done false none, { t with a := v }, rfl, fun _ => rfl⟩
    · exact ⟨.fault .deviceFault, s, rfl, fun _ => rfl⟩
  | out x =>
    refine lift (p := outputWord x) (fun _ => rfl) ?_
    have hb : ∀ c, devBound (ctl c s) x = devBound s x := fun _ => rfl
    have ha : ∀ c, (ctl c s).a = s.a := fun _ => rfl
    simp only [outputWord, hb, ha, devWrite_ctl]
    split_ifs
    · rcases devWrite s x s.a with ⟨_ | _, t⟩
      · exact ⟨.fault .deviceFault, t, rfl, fun _ => rfl⟩
      · exact ⟨.done false none, t, rfl, fun _ => rfl⟩
    · exact ⟨.fault .deviceFault, s, rfl, fun _ => rfl⟩
  | prt x =>
    refine lift (p := fun u => if devBound u Config.console then printText x u
      else raiseExec .deviceFault u) (fun _ => rfl) ?_
    have hb : ∀ c, devBound (ctl c s) Config.console = devBound s Config.console := fun _ => rfl
    simp only [hb]
    split_ifs
    · exact printFrom_ctl _ x s
    · exact ⟨.fault .deviceFault, s, rfl, fun _ => rfl⟩

theorem finishOther_ctl (halt : Bool) (r : OpResult) (s : State) :
    ∃ e t, finishOther halt r s = CycleEnd.apply e t ∧
      ∀ c, finishOther halt r (ctl c s) = CycleEnd.apply e (ctl c t) := by
  unfold finishOther
  have hc : ∀ c, (ctl c s).cfg = s.cfg := fun _ => rfl
  simp only [hc, memWrite]
  rcases r.store with _ | ⟨x, v⟩
  · exact ⟨.done halt (r.target.map (·.val)), { s with a := ovf s.cfg.ovf r.a, b := ovf s.cfg.ovf r.b }, rfl,
      fun _ => rfl⟩
  · dsimp only
    split_ifs
    · exact ⟨.done halt (r.target.map (·.val)), { s with
        a := ovf s.cfg.ovf r.a, b := ovf s.cfg.ovf r.b, mem := s.mem.write x (ovf s.cfg.ovf v) }, rfl,
        fun _ => rfl⟩
    · exact ⟨.fault .addressFault, s, rfl, fun _ => rfl⟩

/-- The same end, in another state. -/
def Reached.map (f : State → State) : Reached → Reached
  | .fault kind s => .fault kind (f s)
  | .result r s => .result r (f s)

/-- Following an operation reads the data alone (30_encoding R75). -/
theorem reachOther_ctl (c : State) (act : OpAct) (s : State) :
    reachOther act (ctl c s) = (reachOther act s).map (ctl c) := by
  have hb : ∀ (s : State) (n : Nat), devBound (ctl c s) n = devBound s n := fun _ _ => rfl
  have hc : ∀ s : State, (ctl c s).cfg = s.cfg := fun _ => rfl
  have hm : ∀ (s : State) (x : Nat), memRead (ctl c s) x = memRead s x := fun _ _ => rfl
  induction act generalizing s with
  | fault kind => rfl
  | finish r => rfl
  | memRead x next ih =>
    simp only [reachOther, hm]
    cases memRead s x with
    | ok v => exact ih v s
    | addressFault _ => rfl
  | devBound n next ih =>
    simp only [reachOther, hb]
    exact ih _ s
  | devRead n next ih =>
    simp only [reachOther, hb, devRead_ctl]
    split_ifs
    · exact ih _ _
    · rfl
  | devWrite n v next ih =>
    simp only [reachOther, hb, hc, devWrite_ctl]
    split_ifs
    · exact ih _ _
    · rfl
  | devWriteChar n c next ih =>
    simp only [reachOther, hb, devWriteChar_ctl]
    split_ifs
    · exact ih _ _
    · rfl

theorem performOther_ctl (halt : Bool) (act : OpAct) (s : State) :
    ∃ e t, performOther halt act s = CycleEnd.apply e t ∧
      ∀ c, performOther halt act (ctl c s) = CycleEnd.apply e (ctl c t) := by
  unfold performOther
  simp only [reachOther_ctl]
  cases reachOther act s with
  | fault kind t => exact ⟨.fault kind, t, rfl, fun _ => rfl⟩
  | result r t => exact finishOther_ctl halt r t

/-- The same of an operation outside the reference set. -/
theorem execOther_reads_only_data (n : Nat) (halt : Bool) (x : Nat) (s : State) :
    ∃ e t, execOther n halt x s = CycleEnd.apply e t ∧
      ∀ c, execOther n halt x (ctl c s) = CycleEnd.apply e (ctl c t) :=
  performOther_ctl halt _ s

end Sys2Proof.Machine
end

