-- ==== Sys2Proof/Laws/PerInstr.lean ====
section
/-! SUPPORT. Statements made per instruction: the family `EncodedFields`. -/

namespace Sys2Proof.Laws

open Sys2Proof

/-- The `(OP, MOD)` of the reference table for an operation, written out from 30_encoding R78. -/
def opcodeOf : Operation → Nat × Nat
  | .hlt => (0, 0) | .nop => (1, 0)
  | .lda => (10, 0) | .ldb => (11, 0) | .sta => (12, 0) | .stb => (13, 0) | .xab => (14, 0)
  | .add => (20, 0) | .sub => (21, 0) | .mul => (22, 0)
  | .jmp => (30, 0) | .jaz => (31, 0) | .jan => (32, 0)
  | .inp => (50, 0) | .out => (51, 0) | .prt => (54, 75)

/-- The family: a well-formed instruction has an encoding, with the sign `+`, the `OP` and `MOD` of its
row and its own `ADDR` (30_encoding R71, R78). -/
def EncodedFields.Statement (i : Instr) : Prop :=
  i.WellFormed → ∃ w, encode i = some w ∧ 0 ≤ w.val ∧
    opField w = (opcodeOf i.operation).1 ∧ modField w = (opcodeOf i.operation).2 ∧
    addrField w = i.addr

/-- The family's one proof, from the instruction's row of the reference table. -/
theorem encodedFields_of_row (i : Instr) (r : OpRow)
    (hr : refTable.find? (fun r => r.entry == .ref i.operation) = some r)
    (ho : r.op = (opcodeOf i.operation).1) (hm : r.mod = (opcodeOf i.operation).2)
    (h1 : r.op < 100) (h2 : r.mod < 100) : EncodedFields.Statement i := by
  intro hw
  obtain ⟨w, -, hv⟩ := Word.ofInt?_assemble h1 h2 hw
  have hmag : w.mag = assemble r.op r.mod i.addr := by unfold Word.mag; rw [hv]; rfl
  obtain ⟨e1, e2, e3⟩ := fields_of_mag h1 h2 hw hmag
  exact ⟨w, encodeWith_eq_some.mpr ⟨hw, r, hr, hv⟩, by omega, e1.trans ho, e2.trans hm, e3⟩

theorem EncodedFields.hlt (x : Nat) : EncodedFields.Statement (.hlt x) :=
  encodedFields_of_row _ ⟨0, 0, .ref .hlt⟩ rfl rfl rfl (by decide) (by decide)

theorem EncodedFields.nop (x : Nat) : EncodedFields.Statement (.nop x) :=
  encodedFields_of_row _ ⟨1, 0, .ref .nop⟩ rfl rfl rfl (by decide) (by decide)

theorem EncodedFields.lda (x : Nat) : EncodedFields.Statement (.lda x) :=
  encodedFields_of_row _ ⟨10, 0, .ref .lda⟩ rfl rfl rfl (by decide) (by decide)

theorem EncodedFields.ldb (x : Nat) : EncodedFields.Statement (.ldb x) :=
  encodedFields_of_row _ ⟨11, 0, .ref .ldb⟩ rfl rfl rfl (by decide) (by decide)

theorem EncodedFields.sta (x : Nat) : EncodedFields.Statement (.sta x) :=
  encodedFields_of_row _ ⟨12, 0, .ref .sta⟩ rfl rfl rfl (by decide) (by decide)

theorem EncodedFields.stb (x : Nat) : EncodedFields.Statement (.stb x) :=
  encodedFields_of_row _ ⟨13, 0, .ref .stb⟩ rfl rfl rfl (by decide) (by decide)

theorem EncodedFields.xab (x : Nat) : EncodedFields.Statement (.xab x) :=
  encodedFields_of_row _ ⟨14, 0, .ref .xab⟩ rfl rfl rfl (by decide) (by decide)

theorem EncodedFields.add (x : Nat) : EncodedFields.Statement (.add x) :=
  encodedFields_of_row _ ⟨20, 0, .ref .add⟩ rfl rfl rfl (by decide) (by decide)

theorem EncodedFields.sub (x : Nat) : EncodedFields.Statement (.sub x) :=
  encodedFields_of_row _ ⟨21, 0, .ref .sub⟩ rfl rfl rfl (by decide) (by decide)

theorem EncodedFields.mul (x : Nat) : EncodedFields.Statement (.mul x) :=
  encodedFields_of_row _ ⟨22, 0, .ref .mul⟩ rfl rfl rfl (by decide) (by decide)

theorem EncodedFields.jmp (x : Nat) : EncodedFields.Statement (.jmp x) :=
  encodedFields_of_row _ ⟨30, 0, .ref .jmp⟩ rfl rfl rfl (by decide) (by decide)

theorem EncodedFields.jaz (x : Nat) : EncodedFields.Statement (.jaz x) :=
  encodedFields_of_row _ ⟨31, 0, .ref .jaz⟩ rfl rfl rfl (by decide) (by decide)

theorem EncodedFields.jan (x : Nat) : EncodedFields.Statement (.jan x) :=
  encodedFields_of_row _ ⟨32, 0, .ref .jan⟩ rfl rfl rfl (by decide) (by decide)

theorem EncodedFields.inp (x : Nat) : EncodedFields.Statement (.inp x) :=
  encodedFields_of_row _ ⟨50, 0, .ref .inp⟩ rfl rfl rfl (by decide) (by decide)

theorem EncodedFields.out (x : Nat) : EncodedFields.Statement (.out x) :=
  encodedFields_of_row _ ⟨51, 0, .ref .out⟩ rfl rfl rfl (by decide) (by decide)

theorem EncodedFields.prt (x : Nat) : EncodedFields.Statement (.prt x) :=
  encodedFields_of_row _ ⟨54, 75, .ref .prt⟩ rfl rfl rfl (by decide) (by decide)

end Sys2Proof.Laws
end

