-- ==== Sys2Proof/Laws/Step.lean ====
section
/-! SUPPORT. What a cycle and a step of the machine can do, once. -/

namespace Sys2Proof.Machine

open Sys2Proof

/-- `s` after a successful FETCH (40_dispatch_fsm R113). -/
def fetched (s : State) : State := { s with ir := s.mem.read s.pc }

theorem check_cases (s : State) :
    (check s = none ∧ (s.mode = .run → s.cancel = false ∧ breakArmed s.breakpoints s.pc = false)) ∨
    (s.mode = .run ∧ s.cancel = true ∧ check s = some .cancelled) ∨
    (s.mode = .run ∧ s.cancel = false ∧ breakArmed s.breakpoints s.pc = true ∧ check s = some .breakpoint) := by
  unfold check
  cases s.mode
  · cases s.cancel
    · cases breakArmed s.breakpoints s.pc <;> simp
    · simp
  · simp

theorem breakArmed_iff {l : List (Nat × Bool)} {x : Nat} : breakArmed l x = true ↔ (x, true) ∈ l := by
  simp only [breakArmed, List.any_eq_true, Bool.and_eq_true, beq_iff_eq]
  constructor
  · rintro ⟨p, hp, rfl, h⟩
    rw [← h]; exact hp
  · intro h; exact ⟨_, h, rfl, rfl⟩

theorem check_of_unchecked {s : State} (h : s.Unchecked) : check s = none := by
  unfold check
  rcases h with h | ⟨hc, hb⟩
  · rw [h]
  · rw [hc, Bool.eq_false_iff.mpr fun h => hb (breakArmed_iff.mp h)]
    cases s.mode <;> rfl

theorem fetch_of_lt {s : State} (h : s.pc < s.cfg.memWords) : fetch s = .ok (fetched s) := by
  unfold fetch
  rcases memRead_cases s s.pc with ⟨_, e⟩ | ⟨h', _⟩
  · rw [e]; rfl
  · omega

theorem fetch_of_ge {s : State} (h : s.cfg.memWords ≤ s.pc) : fetch s = .addressFault s.pc := by
  unfold fetch
  rcases memRead_cases s s.pc with ⟨h', _⟩ | ⟨_, e⟩
  · omega
  · rw [e]

/-- How a cycle ends (40_dispatch_fsm R101, T4 to T9; 60_exceptions R206). -/
inductive CycleEnds (s : State) : State → Prop where
  | suspended (why : Stop) : s.mode = .run → why = .cancelled ∨ why = .breakpoint →
      check s = some why → CycleEnds s (suspend why s)
  | fetchFault : check s = none → s.cfg.memWords ≤ s.pc →
      CycleEnds s (raise .addressFault none s)
  | decodeFault (why : DecodeReject) : check s = none → s.pc < s.cfg.memWords →
      decodeWith s.cfg.optable (s.mem.read s.pc) = .reject why →
      CycleEnds s (raise .decodeFault (some (s.mem.read s.pc)) (fetched s))
  | executed {u : State} (i : Instr) : check s = none → s.pc < s.cfg.memWords →
      decodeWith s.cfg.optable (s.mem.read s.pc) = .instr i →
      exec i (fetched s) = .next u → ExecEnds i (fetched s) u → CycleEnds s u
  | other {u : State} (n : Nat) (halt : Bool) (x : Nat) : check s = none → s.pc < s.cfg.memWords →
      decodeWith s.cfg.optable (s.mem.read s.pc) = .other n halt x →
      u = execOther n halt x (fetched s) → OtherEnds halt (fetched s) u → CycleEnds s u

theorem cycle_ends (s : State) : ∃ u, cycle s = .next u ∧ CycleEnds s u := by
  unfold cycle
  rcases check_cases s with ⟨hc, -⟩ | ⟨hm, -, hc⟩ | ⟨hm, -, -, hc⟩
  · rw [hc]
    rcases Nat.lt_or_ge s.pc s.cfg.memWords with h | h
    · rw [fetch_of_lt h]
      simp only [decodeAndExecute]
      cases hd : decodeWith (fetched s).cfg.optable (fetched s).ir with
      | reject why => exact ⟨_, rfl, .decodeFault why hc h hd⟩
      | instr i =>
        obtain ⟨u, hu, he⟩ := exec_ends i (fetched s)
        exact ⟨u, hu, .executed i hc h hd hu he⟩
      | other n halt x => exact ⟨_, rfl, .other n halt x hc h hd rfl (execOther_ends n halt x _)⟩
    · rw [fetch_of_ge h]
      exact ⟨_, rfl, .fetchFault hc h⟩
  · rw [hc]; exact ⟨_, rfl, .suspended _ hm (.inl rfl) hc⟩
  · rw [hc]; exact ⟨_, rfl, .suspended _ hm (.inr rfl) hc⟩

/-- The cycle of a Word that decodes is the meaning of its instruction (40_dispatch_fsm R111). -/
theorem cycle_of_instr {s : State} {i : Instr} (hc : check s = none) (h : s.pc < s.cfg.memWords)
    (hd : decodeWith s.cfg.optable (s.mem.read s.pc) = .instr i) : cycle s = exec i (fetched s) := by
  have hd' : decodeWith (fetched s).cfg.optable (fetched s).ir = .instr i := hd
  simp only [cycle, hc, fetch_of_lt h, decodeAndExecute, hd']

/-- The cycle of a Word that decodes to an operation outside the reference set. -/
theorem cycle_of_other {s : State} {n : Nat} {halt : Bool} {x : Nat} (hc : check s = none)
    (h : s.pc < s.cfg.memWords)
    (hd : decodeWith s.cfg.optable (s.mem.read s.pc) = .other n halt x) :
    cycle s = .next (execOther n halt x (fetched s)) := by
  have hd' : decodeWith (fetched s).cfg.optable (fetched s).ir = .other n halt x := hd
  simp only [cycle, hc, fetch_of_lt h, decodeAndExecute, hd']

/-- What happens at a boundary: an event of the host, a cycle, or the wait for the host. -/
theorem takeEvent_cases (s : State) :
    (∃ e rest, s.host = some e :: rest ∧ takeEvent s = .next (accept e { s with host := rest })) ∨
    ∃ rest, (s.host = none :: rest ∨ (s.host = [] ∧ rest = [])) ∧
      takeEvent s = runOrWait { s with host := rest } := by
  unfold takeEvent
  rcases h : s.host with _ | ⟨_ | e, rest⟩
  · exact .inr ⟨[], .inr ⟨rfl, rfl⟩, congrArg (fun l => runOrWait { s with host := l }) h⟩
  · exact .inr ⟨rest, .inl rfl, rfl⟩
  · exact .inl ⟨e, rest, rfl, rfl⟩

/-- What one step is (00_scope R10): a waiting memory request served, or what happens at the
boundary. -/
theorem step_cases (s : State) :
    (s.fsm ≠ .running ∧ ∃ r rest, s.waiting = r :: rest ∧
      step s = .next (serveMem r { s with waiting := rest })) ∨
    ((s.fsm = .running ∨ s.waiting = []) ∧ step s = takeEvent s) := by
  unfold step transition
  rcases portOwner_cases s with ⟨hr, hp⟩ | ⟨hr, hp⟩ <;> rw [hp]
  · exact .inr ⟨.inl hr, rfl⟩
  · rcases hw : s.waiting with _ | ⟨r, rest⟩
    · exact .inr ⟨.inr rfl, rfl⟩
    · exact .inl ⟨hr, r, rest, rfl, rfl⟩

/-- The converse of `step_cases`, for a given next state: the four things a step can have been. -/
theorem step_inv {s s' : State} (h : step s = .next s') :
    (s.fsm ≠ .running ∧ ∃ r l, s.waiting = r :: l ∧ s' = serveMem r { s with waiting := l }) ∨
    (∃ e rest, s.Takes e rest ∧ s' = accept e { s with host := rest }) ∨
    (s.fsm = .running ∧ ∃ rest, s.NoRequest rest ∧ CycleEnds { s with host := rest } s') ∨
    (s.fsm ≠ .running ∧ s.waiting = [] ∧ ∃ rest, s.NoRequest rest ∧ s' = { s with host := rest }) := by
  rcases step_cases s with ⟨hr, r, l, hw, e⟩ | ⟨hb, e⟩ <;> rw [e] at h
  · injection h with h
    exact .inl ⟨hr, r, l, hw, h.symm⟩
  rcases takeEvent_cases s with ⟨ev, rest, hh, e⟩ | ⟨rest, hn, e⟩ <;> rw [e] at h
  · injection h with h
    exact .inr (.inl ⟨ev, rest, ⟨hh, hb⟩, h.symm⟩)
  unfold runOrWait at h
  split_ifs at h with hr
  · obtain ⟨u, hu, hc⟩ := cycle_ends { s with host := rest }
    rw [hu] at h
    injection h with h
    exact .inr (.inr (.inl ⟨hr, rest, hn, h ▸ hc⟩))
  · injection h with h
    exact .inr (.inr (.inr ⟨hr, hb.resolve_left hr, rest, hn, h.symm⟩))

/-- In `RUNNING` with no request at this boundary, a step is a cycle. -/
theorem step_of_running {s : State} {rest : List (Option HostEvent)} (hr : s.fsm = .running)
    (hn : s.NoRequest rest) : step s = cycle { s with host := rest } := by
  rcases step_cases s with ⟨h, _⟩ | ⟨-, e⟩
  · exact absurd hr h
  · rw [e, takeEvent]
    rcases hn with h | ⟨h, rfl⟩
    · simp only [h, runOrWait, if_pos hr]
    · simp only [h, runOrWait, if_pos hr]
      rw [← h]

/-- A run of `k + 1` steps goes on from the state the first one leaves. -/
theorem run_succ {s t : State} (h : step s = .next t) (k : Nat) :
    Host.Core.run core (k + 1) s = Host.Core.run core k t := by
  have h' : core.step s = .next t := h
  simp only [Host.Core.run, h']

/-- A step that takes an event of the host. -/
theorem step_of_takes {s : State} {e : HostEvent} {rest : List (Option HostEvent)}
    (h : s.Takes e rest) : step s = .next (accept e { s with host := rest }) := by
  rcases step_cases s with ⟨hr, r, l, hw, -⟩ | ⟨-, e'⟩
  · rcases h.2 with h | h
    · exact absurd h hr
    · rw [h] at hw; cases hw
  · rw [e', takeEvent, h.1]

/-- What serving a memory request does: it writes memory or not, and gives one answer. -/
theorem serveMem_cases (r : MemRequest) (s : State) :
    (∃ x, serveMem r s = reply x s) ∨
    (∃ x v, r = .deposit x v ∧ x < s.cfg.memWords ∧
      serveMem r s = reply .done { s with mem := s.mem.write x v }) ∨
    (∃ x ws, r = .bulkLoad x ws ∧ x + ws.length ≤ s.cfg.memWords ∧
      serveMem r s = reply .done { s with mem := s.mem.writeAll x ws }) := by
  cases r with
  | deposit x v =>
    unfold serveMem
    rcases memWrite_cases s x v with ⟨h, e⟩ | ⟨-, e⟩ <;> simp only [e]
    · exact .inr (.inl ⟨x, v, rfl, h, rfl⟩)
    · exact .inl ⟨_, rfl⟩
  | examine x =>
    unfold serveMem
    rcases memRead_cases s x with ⟨-, e⟩ | ⟨-, e⟩ <;> simp only [e] <;> exact .inl ⟨_, rfl⟩
  | bulkLoad x ws =>
    unfold serveMem
    by_cases h : x + ws.length ≤ s.cfg.memWords
    · exact .inr (.inr ⟨x, ws, rfl, h, if_pos h⟩)
    · exact .inl ⟨_, if_neg h⟩

end Sys2Proof.Machine
end

