-- ==== Sys2Proof/Laws/Pinned.lean ====
section
/-! SUPPORT. Which tables run the example of 30_encoding R76. -/

namespace Sys2Proof.Machine

open Sys2Proof

/-- The machine of the example in its first cycle, with these codes sent and the script gone on to
`later` (95_test_vectors 1.1). -/
def exampleSent (p : Params) (codes : List Nat) (later : List Bool) : State :=
  { fetched (exampleStart p) with
    slots := [some ⟨[], later⟩, none, none]
    devOps := codes.map (.writeChar Config.console · true) }

/-- One text Word of the example printed. -/
theorem exampleSent_word (p : Params) (k : Nat) (w : Word) (codes sent : List Nat) (later : List Bool)
    (hk : k < 4096) (hw : (exampleStart p).mem.read k = w) (hc : textCodes w = codes) :
    printText k (exampleSent p sent later) =
      match sendCodes codes (exampleSent p sent later) with
      | .ended t => complete t
      | .failed t => raiseExec .deviceFault t
      | .more t => printText (k + 1) t := by
  rw [printText_eq, memRead, if_pos (show k < (exampleSent p sent later).cfg.memWords from hk)]
  subst hc hw
  rfl

theorem exampleSent_print (p : Params) :
    printText 2 (exampleSent p [] (List.replicate 11 true)) =
      complete (exampleSent p [30, 25, 34, 34, 42, 20, 52, 42, 45, 34, 24] []) := by
  rw [exampleSent_word p 2 (Word.of 30253434) [30, 25, 34, 34] _ _ (by decide) rfl (by decide)]
  show printText 3 (exampleSent p [30, 25, 34, 34] (List.replicate 7 true)) = _
  rw [exampleSent_word p 3 (Word.of 42205242) [42, 20, 52, 42] _ _ (by decide) rfl (by decide)]
  show printText 4 (exampleSent p [30, 25, 34, 34, 42, 20, 52, 42] (List.replicate 3 true)) = _
  rw [exampleSent_word p 4 (Word.of 45342437) [45, 34, 24, 37] _ _ (by decide) rfl (by decide)]
  rfl

/-- Every table with `HLT` and `PRT` at the two pinned pairs runs the example, under either policy. -/
theorem runsExample_of_rows {p : Params} (h : lookupOp p.optable 0 0 = some (.ref .hlt))
    (hp : lookupOp p.optable 54 75 = some (.ref .prt)) : runsExample p = true := by
  have first : decodeWith p.optable (Word.of 54750002) = .instr (.prt 2) :=
    decodeWith_instr_iff.mpr ⟨by decide, hp, rfl⟩
  have second : decodeWith p.optable (Word.of 0) = .instr (.hlt 0) :=
    decodeWith_instr_iff.mpr ⟨by decide, h, rfl⟩
  have print := exampleSent_print p
  generalize hu : complete (exampleSent p [30, 25, 34, 34, 42, 20, 52, 42, 45, 34, 24] []) = u at print
  have e1 : step (exampleStart p) = .next u :=
    ((step_of_running (s := exampleStart p) rfl (.inr ⟨rfl, rfl⟩)).trans
      (cycle_of_instr (s := exampleStart p) rfl (show 0 < 4096 by decide) first)).trans
      (congrArg Host.Outcome.next print)
  have e2 : step u = exec (.hlt 0) (fetched u) := by
    subst hu
    exact (step_of_running rfl (.inr ⟨rfl, rfl⟩)).trans
      (cycle_of_instr rfl (show 1 < 4096 by decide) second)
  have t1 : setsTarget (exampleStart p) = false := by
    have h : decodeWith (exampleStart p).cfg.optable
        ((exampleStart p).mem.read (exampleStart p).pc) = .instr (.prt 2) := first
    unfold setsTarget
    rw [h]
    rfl
  have t2 : setsTarget u = false := by
    have h : decodeWith u.cfg.optable (u.mem.read u.pc) = .instr (.hlt 0) := by
      subst hu
      exact second
    unfold setsTarget
    rw [h]
    rfl
  have b : exampleBetween u = true := by
    subst hu
    rfl
  unfold runsExample
  rw [t1, e1]
  dsimp only
  rw [t2, b, e2]
  subst hu
  rfl

end Sys2Proof.Machine
end

