-- ==== Sys2Proof/Machine/Vectors.lean ====
section
/-! DEFINITION. The arithmetic vectors that a model must carry (spec/43_arithmetic.md R170): every line of
the two tables of spec/95_test_vectors.md 2.3, and so every overflow vector, of both signs, at the boundary
and at the extreme. -/

namespace Sys2Proof.Machine

open Sys2Proof

/-- A line for `ADD` or `SUB`: `A` before, the operand, and `A` after under each policy. -/
structure OvfVector where
  a : Word
  y : Word
  wrap : Word
  saturate : Word
deriving DecidableEq, Repr

/-- `A` after, under a policy. -/
def OvfVector.result (v : OvfVector) : OvfPolicy → Word
  | .wrap => v.wrap
  | .saturate => v.saturate

/-- A line for `MUL`: `A` before, the operand, and `A` and `B` after, under either policy. -/
structure MulVector where
  a : Word
  y : Word
  high : Word
  low : Word
deriving DecidableEq, Repr

/-- The lines for `ADD` (95_test_vectors 2.3). -/
def addVectors : List OvfVector :=
  [⟨Word.of 2, Word.of 1, Word.of 3, Word.of 3⟩,
   ⟨Word.of (-5), Word.of 3, Word.of (-2), Word.of (-2)⟩,
   ⟨Word.of 5, Word.of (-5), Word.of 0, Word.of 0⟩,
   ⟨Word.of 99999998, Word.of 1, Word.of 99999999, Word.of 99999999⟩,
   ⟨Word.of 99999999, Word.of 1, Word.of 0, Word.of 99999999⟩,
   ⟨Word.of 99999999, Word.of 99999999, Word.of 99999998, Word.of 99999999⟩,
   ⟨Word.of (-99999999), Word.of (-1), Word.of 0, Word.of (-99999999)⟩,
   ⟨Word.of (-99999999), Word.of (-99999999), Word.of (-99999998), Word.of (-99999999)⟩,
   ⟨Word.of 50000000, Word.of 50000000, Word.of 0, Word.of 99999999⟩,
   ⟨Word.of 99999999, Word.of (-99999999), Word.of 0, Word.of 0⟩]

/-- The lines for `SUB` (95_test_vectors 2.3). -/
def subVectors : List OvfVector :=
  [⟨Word.of 3, Word.of 1, Word.of 2, Word.of 2⟩,
   ⟨Word.of 1, Word.of 1, Word.of 0, Word.of 0⟩,
   ⟨Word.of 0, Word.of 99999999, Word.of (-99999999), Word.of (-99999999)⟩,
   ⟨Word.of (-69135600), Word.of 99999999, Word.of (-69135599), Word.of (-99999999)⟩,
   ⟨Word.of 99999999, Word.of (-1), Word.of 0, Word.of 99999999⟩,
   ⟨Word.of (-1), Word.of 99999999, Word.of 0, Word.of (-99999999)⟩,
   ⟨Word.of (-99999999), Word.of (-99999999), Word.of 0, Word.of 0⟩]

/-- The lines for `MUL` (95_test_vectors 2.3). -/
def mulVectors : List MulVector :=
  [⟨Word.of 7, Word.of (-6), Word.of 0, Word.of (-42)⟩,
   ⟨Word.of 0, Word.of (-99999999), Word.of 0, Word.of 0⟩,
   ⟨Word.of (-10000), Word.of (-10000), Word.of 1, Word.of 0⟩,
   ⟨Word.of (-12345678), Word.of 200, Word.of (-24), Word.of (-69135600)⟩,
   ⟨Word.of 99999999, Word.of 99999999, Word.of 99999998, Word.of 1⟩,
   ⟨Word.of 99999999, Word.of (-99999999), Word.of (-99999998), Word.of (-1)⟩,
   ⟨Word.of 10000, Word.of (-10000), Word.of (-1), Word.of 0⟩,
   ⟨Word.of 12345678, Word.of 1, Word.of 0, Word.of 12345678⟩]

end Sys2Proof.Machine
end

