-- ==== Sys2Proof/Laws/Vectors.lean ====
section
/-! SUPPORT. The machine meets every arithmetic vector it carries (spec/43_arithmetic.md R170): the
instructions, in any state, under either policy. -/

namespace Sys2Proof.Machine

open Sys2Proof

theorem aluAdd_vectors : ∀ v ∈ addVectors,
    aluAdd .wrap v.a v.y = v.wrap ∧ aluAdd .saturate v.a v.y = v.saturate := by decide

theorem aluSub_vectors : ∀ v ∈ subVectors,
    aluSub .wrap v.a v.y = v.wrap ∧ aluSub .saturate v.a v.y = v.saturate := by decide

theorem aluMul_vectors : ∀ v ∈ mulVectors,
    aluMulHigh v.a v.y = v.high ∧ aluMulLow v.a v.y = v.low := by decide

theorem exec_add_vectors {v : OvfVector} (hv : v ∈ addVectors) {addr : Nat} {s : State}
    (h : addr < s.cfg.memWords) (ha : s.a = v.a) (hy : s.mem.read addr = v.y) :
    exec (.add addr) s = .next (complete { s with a := v.result s.cfg.ovf }) := by
  have e : aluAdd s.cfg.ovf v.a v.y = v.result s.cfg.ovf := by
    cases s.cfg.ovf
    · exact (aluAdd_vectors v hv).1
    · exact (aluAdd_vectors v hv).2
  rw [← e]
  simp only [exec, execAdd, withOperand_of_lt h, ha, hy]

theorem exec_sub_vectors {v : OvfVector} (hv : v ∈ subVectors) {addr : Nat} {s : State}
    (h : addr < s.cfg.memWords) (ha : s.a = v.a) (hy : s.mem.read addr = v.y) :
    exec (.sub addr) s = .next (complete { s with a := v.result s.cfg.ovf }) := by
  have e : aluSub s.cfg.ovf v.a v.y = v.result s.cfg.ovf := by
    cases s.cfg.ovf
    · exact (aluSub_vectors v hv).1
    · exact (aluSub_vectors v hv).2
  rw [← e]
  simp only [exec, execSub, withOperand_of_lt h, ha, hy]

theorem exec_mul_vectors {v : MulVector} (hv : v ∈ mulVectors) {addr : Nat} {s : State}
    (h : addr < s.cfg.memWords) (ha : s.a = v.a) (hy : s.mem.read addr = v.y) :
    exec (.mul addr) s = .next (complete { s with a := v.high, b := v.low }) := by
  rw [← (aluMul_vectors v hv).1, ← (aluMul_vectors v hv).2]
  simp only [exec, execMul, withOperand_of_lt h, ha, hy]

end Sys2Proof.Machine
end

