-- ==== Sys2Proof/Tests/Slice0.lean ====
section
/-! SUPPORT. The model's own tests. Expected values come from spec/95_test_vectors.md and from the encodings
of spec/30_encoding.md R78, not from the model. Each test is one step or one evaluation. The last part shows, for
every obligation with hypotheses, concrete states and operands that meet them. -/

namespace Sys2Proof.Tests

open Sys2Proof Sys2Proof.Machine

/-! ### Helpers -/

/-- All operations. -/
def operations : List Operation :=
  [.hlt, .nop, .lda, .ldb, .sta, .stb, .xab, .add, .sub, .mul, .jmp, .jaz, .jan, .inp, .out, .prt]

/-- The start of the lines of 95_test_vectors section 2: `PC = 100`, and a Step has been accepted. -/
def start (a b : Word) (mem : Memory) : State :=
  { State.reset with a := a, b := b, pc := 100, mem := mem, fsm := .running, mode := .step }

/-- The same, with the endpoints `console`, `reader` and `punch` on the three slots. -/
def startIo (mem : Memory) (console reader punch : Option Endpoint) : State :=
  { start (Word.of 42) Word.zero mem with slots := [console, reader, punch] }

/-- A state in the middle of a run, at address 100. -/
def running (w : Word) : State :=
  { State.reset with pc := 100, mem := Memory.write [] 100 w, fsm := .running, mode := .run, traceEn := true }

/-- What `f` reads of the state after one step. -/
def after {α : Type} (s : State) (f : State → α) : Option α :=
  match step s with
  | .next t => some (f t)
  | .fault _ => none
  | .refused _ => none

/-- `PC`, `ICOUNT`, `STATE`, `STOP`. -/
structure Flow where
  pc : Nat
  icount : Nat
  fsm : Fsm
  stop : Stop
deriving DecidableEq, Repr

/-- Where the program is, and what the FSM does. -/
def flow (t : State) : Flow := ⟨t.pc, t.icount, t.fsm, t.stop⟩

/-- `FAULT_KIND`, `FAULT_PC`, `FAULT_WORD`, `PC`, `ICOUNT`. -/
structure Record where
  kind : Option FaultKind
  faultPc : Nat
  word : Option Word
  pc : Nat
  icount : Nat
deriving DecidableEq, Repr

/-- The fault record, with `PC` and `ICOUNT`. -/
def record (t : State) : Record := ⟨t.faultKind, t.faultPc, t.faultWord, t.pc, t.icount⟩

/-! ### Well-formedness: the checks refuse what is ill formed -/

theorem test_wellFormed_instr_refuses :
    ∀ o ∈ operations, (o.instr 9999).WellFormed ∧ ¬ (o.instr 10000).WellFormed := by decide

theorem test_wellFormed_opRow_refuses :
    OpRow.WellFormed ⟨99, 99, .ref .nop⟩ ∧ ¬ OpRow.WellFormed ⟨100, 0, .ref .nop⟩ ∧
    ¬ OpRow.WellFormed ⟨0, 100, .ref .nop⟩ := by decide

theorem test_wellFormed_opTable_refuses :
    OpTable.WellFormed refTable ∧ OpTable.WellFormed [⟨1, 0, .ref .nop⟩, ⟨1, 1, .ref .nop⟩] ∧
    ¬ OpTable.WellFormed [⟨1, 0, .ref .nop⟩, ⟨1, 0, .ref .hlt⟩] ∧ ¬ OpTable.WellFormed [⟨100, 0, .ref .nop⟩] := by
  decide

theorem test_wellFormed_params_refuses :
    refParams.WellFormed ∧ Params.WellFormed { refParams with memWords := 1 } ∧
    Params.WellFormed { refParams with memWords := 10000 } ∧
    ¬ Params.WellFormed { refParams with memWords := 0 } ∧
    ¬ Params.WellFormed { refParams with memWords := 10001 } := by decide

theorem test_wellFormed_params_refuses_tables :
    ¬ Params.WellFormed { refParams with optable := ⟨0, 100, .ref .nop⟩ :: refTable } ∧
    ¬ Params.WellFormed { refParams with optable := refTable.tail } ∧
    ¬ Params.WellFormed { refParams with optable := refTable.dropLast } ∧
    Params.WellFormed { refParams with optable := ⟨99, 99, .other 7 false⟩ :: refTable } := by decide

theorem test_refTable_pinned : OpTable.Pinned refTable ∧ OpTable.OneHalt refTable := by decide

/-- 95_test_vectors 1.1, under both policies and with one Word of memory. -/
theorem test_legal_params :
    Params.Legal refParams ∧ Params.Legal { refParams with ovf := .saturate } ∧
    Params.Legal { refParams with memWords := 1 } := by decide

/-- Pinned rows that do not run the example: no print, a halt, `B` changed, a jump or a fault at
`(54, 75)`, no halt at `(00, 00)`. -/
theorem test_runsExample_refuses :
    (∀ o ∈ [.nop, .hlt, .ldb, .jmp, .out],
      runsExample { refParams with optable := [⟨0, 0, .ref .hlt⟩, ⟨54, 75, .ref o⟩] } = false) ∧
    runsExample { refParams with optable := [⟨0, 0, .ref .nop⟩, ⟨54, 75, .ref .prt⟩] } = false ∧
    ¬ Params.Legal { refParams with optable := [⟨0, 0, .ref .nop⟩, ⟨54, 75, .ref .prt⟩] } := by decide

theorem test_word_range_refuses :
    Word.ofInt? 100000000 = none ∧ Word.ofInt? (-100000000) = none ∧
    Word.ofInt? 99999999 = some (Word.of 99999999) ∧
    Word.ofInt? (-99999999) = some (Word.of (-99999999)) := by decide

/-! ### Decoding, from the encodings of 30_encoding R78 and 95_test_vectors 2.1 -/

theorem test_decode_control :
    decode (Word.of 00009999) = .instr (.hlt 9999) ∧ decode (Word.of 01001234) = .instr (.nop 1234) ∧
    decode (Word.of 30000100) = .instr (.jmp 100) ∧ decode (Word.of 31000005) = .instr (.jaz 5) ∧
    decode (Word.of 32009999) = .instr (.jan 9999) := by decide

theorem test_decode_load_store :
    decode (Word.of 10000007) = .instr (.lda 7) ∧ decode (Word.of 11000020) = .instr (.ldb 20) ∧
    decode (Word.of 12005000) = .instr (.sta 5000) ∧ decode (Word.of 13000015) = .instr (.stb 15) ∧
    decode (Word.of 14004095) = .instr (.xab 4095) := by decide

theorem test_decode_arithmetic :
    decode (Word.of 20000008) = .instr (.add 8) ∧ decode (Word.of 21000008) = .instr (.sub 8) ∧
    decode (Word.of 22000008) = .instr (.mul 8) := by decide

theorem test_decode_io :
    decode (Word.of 50000001) = .instr (.inp 1) ∧ decode (Word.of 51000002) = .instr (.out 2) ∧
    decode (Word.of 54750002) = .instr (.prt 2) := by decide

theorem test_decode_rejects :
    decode (Word.of 99000000) = .reject (.noEntry 99 0) ∧
    decode (Word.of 54000002) = .reject (.noEntry 54 0) ∧
    decode (Word.of 10010005) = .reject (.noEntry 10 1) ∧
    decode (Word.of 00750000) = .reject (.noEntry 0 75) ∧
    decode (Word.of 30253434) = .reject (.noEntry 30 25) ∧
    decode (Word.of 99999999) = .reject (.noEntry 99 99) ∧
    decode (Word.of (-1)) = .reject .negative ∧
    decode (Word.of (-54750002)) = .reject .negative := by decide

theorem test_encode :
    encode (.hlt 0) = some (Word.of 0) ∧ encode (.sta 4095) = some (Word.of 12004095) ∧
    encode (.out 2) = some (Word.of 51000002) ∧ encode (.prt 9999) = some (Word.of 54759999) ∧
    encode (.jan 10000) = none := by decide

/-- Eight bits give each digit one bit; 32 bits give each digit four (log 1). -/
theorem test_decodeTableWord :
    decodeTableWord 8 0x00 = some (.hlt 0) ∧ decodeTableWord 8 0x40 = some (.nop 0) ∧
    decodeTableWord 8 0x80 = some (.lda 0) ∧ decodeTableWord 8 0xC0 = some (.ldb 0) ∧
    decodeTableWord 32 0x54750002 = some (.prt 2) ∧ decodeTableWord 32 0x5475000A = none ∧
    decodeTableWord 32 0x54740002 = none ∧ decodeTableWord 8 0x10000 = none := by decide

/-- The very next step runs the presented instruction: `LDA 0` loads `M[0]`, which is itself. -/
theorem test_withFetchWord :
    after (State.reset.withFetchWord 8 0x80) (fun t => (t.a, flow t)) =
      some (Word.of 10000000, ⟨1, 1, .ready, .stepDone⟩) ∧
    after (State.reset.withFetchWord 32 0x30000100) flow = some ⟨100, 1, .ready, .stepDone⟩ := by
  decide

/-! ### Control, 95_test_vectors 2.2 -/

theorem test_hlt :
    after (start Word.zero Word.zero []) (fun t => (flow t, t.haltAddr)) =
      some (⟨101, 1, .halted, .halt⟩, 101) := by decide

/-- At the last Word, in a run: `PC` and `HALT_ADDR` are one past memory. -/
theorem test_hlt_at_end :
    after { start Word.zero Word.zero [] with pc := 4095, mode := .run }
      (fun t => (flow t, t.haltAddr)) = some (⟨4096, 1, .halted, .halt⟩, 4096) := by decide

theorem test_nop :
    after (start (Word.of 3) (Word.of 4) [(100, Word.of 01000000)]) (fun t => (t.a, t.b, flow t)) =
      some (Word.of 3, Word.of 4, ⟨101, 1, .ready, .stepDone⟩) := by decide

theorem test_jmp :
    after (start Word.zero Word.zero [(100, Word.of 30005000)]) flow =
      some ⟨5000, 1, .ready, .stepDone⟩ := by decide

theorem test_jaz :
    after (start (Word.of 0) Word.zero [(100, Word.of 31000005)]) flow =
      some ⟨5, 1, .ready, .stepDone⟩ ∧
    after (start (Word.of 2) Word.zero [(100, Word.of 31000005)]) flow =
      some ⟨101, 1, .ready, .stepDone⟩ ∧
    after (start (Word.of (-1)) Word.zero [(100, Word.of 31000005)]) flow =
      some ⟨101, 1, .ready, .stepDone⟩ := by decide

theorem test_jan :
    after (start (Word.of (-1)) Word.zero [(100, Word.of 32000020)]) flow =
      some ⟨20, 1, .ready, .stepDone⟩ ∧
    after (start (Word.of 0) Word.zero [(100, Word.of 32000020)]) flow =
      some ⟨101, 1, .ready, .stepDone⟩ ∧
    after (start (Word.of 1) Word.zero [(100, Word.of 32000020)]) flow =
      some ⟨101, 1, .ready, .stepDone⟩ := by decide

/-! ### Arithmetic, 95_test_vectors 2.3 -/

/-- The model carries all 25 lines of 95_test_vectors 2.3 (43_arithmetic R170; Machine/Vectors.lean), and each
holds. -/
theorem test_vectors_carried :
    addVectors.length = 10 ∧ subVectors.length = 7 ∧ mulVectors.length = 8 := by decide

theorem test_add_vectors : ∀ v ∈ addVectors, ∀ p ∈ [OvfPolicy.wrap, .saturate],
    aluAdd p v.a v.y = v.result p := by decide

theorem test_sub_vectors : ∀ v ∈ subVectors, ∀ p ∈ [OvfPolicy.wrap, .saturate],
    aluSub p v.a v.y = v.result p := by decide

theorem test_mul_vectors : ∀ v ∈ mulVectors,
    aluMulHigh v.a v.y = v.high ∧ aluMulLow v.a v.y = v.low := by decide

theorem test_add :
    after (start (Word.of 99999999) (Word.of 4) [(8, Word.of 1), (100, Word.of 20000008)])
      (fun t => (t.a, t.b, t.pc)) = some (Word.of 0, Word.of 4, 101) := by decide

theorem test_add_past_memory :
    after (start (Word.of 5) Word.zero [(100, Word.of 20004096)]) (fun t => (t.a, record t)) =
      some (Word.of 5, ⟨some .addressFault, 100, some (Word.of 20004096), 100, 0⟩) := by decide

theorem test_sub :
    after (start (Word.of 0) (Word.of 4) [(8, Word.of 99999999), (100, Word.of 21000008)])
      (fun t => (t.a, t.b, t.pc)) = some (Word.of (-99999999), Word.of 4, 101) := by decide

theorem test_mul :
    after (start (Word.of (-12345678)) (Word.of 4) [(8, Word.of 200), (100, Word.of 22000008)])
      (fun t => (t.a, t.b, t.pc)) = some (Word.of (-24), Word.of (-69135600), 101) := by decide

/-! ### Load, store, exchange, 95_test_vectors 2.4 -/

/-- A load of its own Word. -/
theorem test_lda :
    after (start Word.zero Word.zero [(100, Word.of 10000100)]) (fun t => (t.a, t.pc)) =
      some (Word.of 10000100, 101) := by decide

theorem test_ldb :
    after (start Word.zero Word.zero [(20, Word.of (-42)), (100, Word.of 11000020)])
      (fun t => (t.a, t.b)) = some (Word.of 0, Word.of (-42)) := by decide

/-- A store to the next instruction's address. -/
theorem test_sta :
    after (start (Word.of 9) (Word.of 8) [(100, Word.of 12000101)]) (fun t => t.mem) =
      some [(100, Word.of 12000101), (101, Word.of 9)] := by decide

theorem test_sta_past_memory :
    after (start (Word.of 5) Word.zero [(100, Word.of 12005000)]) (fun t => (t.mem, record t)) =
      some ([(100, Word.of 12005000)], ⟨some .addressFault, 100, some (Word.of 12005000), 100, 0⟩) := by
  decide

/-- A stored zero takes the entry out. -/
theorem test_stb :
    after (start (Word.of 9) (Word.of (-69135600)) [(100, Word.of 13000015)]) (fun t => t.mem) =
      some [(15, Word.of (-69135600)), (100, Word.of 13000015)] ∧
    after (start (Word.of 9) Word.zero [(15, Word.of 3), (100, Word.of 13000015)]) (fun t => t.mem) =
      some [(100, Word.of 13000015)] := by decide

theorem test_xab :
    after (start (Word.of (-24)) (Word.of (-69135600)) [(100, Word.of 14000000)])
      (fun t => (t.a, t.b)) = some (Word.of (-69135600), Word.of (-24)) := by decide

/-! ### I/O, 95_test_vectors 2.5 -/

theorem test_inp :
    after (startIo [(100, Word.of 50000001)] none (some ⟨[some (Word.of (-99999999))], []⟩) none)
      (fun t => (t.a, t.pc)) = some (Word.of (-99999999), 101) := by decide

/-- A failed read, an unbound slot, and a slot that does not exist. -/
theorem test_inp_faults :
    after (startIo [(100, Word.of 50000001)] none (some ⟨[none], []⟩) none) (fun t => (t.a, record t)) =
      some (Word.of 42, ⟨some .deviceFault, 100, some (Word.of 50000001), 100, 0⟩) ∧
    after (startIo [(100, Word.of 50000001)] none none none) (fun t => (t.a, record t)) =
      some (Word.of 42, ⟨some .deviceFault, 100, some (Word.of 50000001), 100, 0⟩) ∧
    after (startIo [(100, Word.of 50000003)] none none none) (fun t => (t.a, record t)) =
      some (Word.of 42, ⟨some .deviceFault, 100, some (Word.of 50000003), 100, 0⟩) := by decide

theorem test_out :
    after (startIo [(100, Word.of 51000002)] none none (some ⟨[], [true]⟩))
      (fun t => (wordsReceived 2 t.devOps, t.a, t.pc)) = some ([Word.of 42], Word.of 42, 101) := by
  decide

theorem test_out_fault :
    after (startIo [(100, Word.of 51009999)] none none (some ⟨[], [true]⟩))
      (fun t => (t.devOps, record t)) =
      some ([], ⟨some .deviceFault, 100, some (Word.of 51009999), 100, 0⟩) := by decide

/-- The text of 95_test_vectors 1.1, and a text whose second Word ends it. -/
theorem test_prt :
    after (startIo [(2, Word.of 30253434), (3, Word.of 42205242), (4, Word.of 45342437),
        (100, Word.of 54750002)] (some ⟨[], List.replicate 11 true⟩) none none)
      (fun t => (codesReceived 0 t.devOps, consoleOutput t, t.pc)) =
      some ([30, 25, 34, 34, 42, 20, 52, 42, 45, 34, 24],
        [some 'H', some 'E', some 'L', some 'L', some 'O', some ' ', some 'W', some 'O', some 'R',
         some 'L', some 'D'], 101) ∧
    after (startIo [(9, Word.of (-30253437)), (100, Word.of 54750009)]
        (some ⟨[], List.replicate 3 true⟩) none none)
      (fun t => (codesReceived 0 t.devOps, t.pc)) = some ([30, 25, 34], 101) := by decide

/-- The endpoint fails on the third character; and a text address past memory. -/
theorem test_prt_faults :
    after (startIo [(9, Word.of 30253434), (10, Word.of 37000000), (100, Word.of 54750009)]
        (some ⟨[], [true, true, false]⟩) none none)
      (fun t => (codesReceived 0 t.devOps, record t)) =
      some ([30, 25], ⟨some .deviceFault, 100, some (Word.of 54750009), 100, 0⟩) ∧
    after (startIo [(100, Word.of 54754096)] (some ⟨[], []⟩) none none)
      (fun t => (t.devOps, record t)) =
      some ([], ⟨some .addressFault, 100, some (Word.of 54754096), 100, 0⟩) := by decide

/-! ### An operation under the contract of 30_encoding R75 -/

/-- Twice `M[8]`, through `ovf`, stored at 9 and jumping to 5; and a read past memory. -/
theorem test_performOther :
    (performOther false (.memRead 8 fun w => .finish ⟨2 * w.val, 1, some (9, w.val), some 5⟩)
      (start Word.zero Word.zero [(8, Word.of 60000000)]) |> fun t => (t.a, t.b, t.mem, flow t)) =
      (Word.of 20000000, Word.of 1, [(8, Word.of 60000000), (9, Word.of 60000000)],
        ⟨5, 1, .ready, .stepDone⟩) ∧
    record (performOther false (.memRead 4096 fun _ => .fault .device)
      (start Word.zero Word.zero [])) = ⟨some .addressFault, 100, some Word.zero, 100, 0⟩ := by decide

/-! ### The FSM and the requests, 95_test_vectors 2.6 -/

/-- F2: a fetch past memory. `FAULT_WORD` is absent and `IR` keeps its value. -/
theorem test_fetch_fault :
    after { State.reset with pc := 4096, fsm := .running, mode := .run } (fun t => (record t, t.ir)) =
      some (⟨some .addressFault, 4096, none, 4096, 0⟩, Word.zero) := by decide

/-- F4, F5, F7, F8. -/
theorem test_check :
    after { State.reset with fsm := .running, mode := .run, cancel := true, breakpoints := [(0, true)] }
      flow = some ⟨0, 0, .ready, .cancelled⟩ ∧
    after { State.reset with fsm := .running, mode := .run, breakpoints := [(0, true)] } flow =
      some ⟨0, 0, .ready, .breakpoint⟩ ∧
    after { State.reset with fsm := .running, mode := .step, cancel := true } flow =
      some ⟨1, 1, .halted, .halt⟩ ∧
    after { State.reset with fsm := .running, mode := .run, breakpoints := [(0, false)] } flow =
      some ⟨1, 1, .halted, .halt⟩ := by decide

/-- F10, F11. -/
theorem test_requests_while_running :
    after { running (Word.of 01000000) with host := [some .step] } (fun t => (flow t, t.replies)) =
      some (⟨100, 0, .running, .none⟩, [.refused]) ∧
    after { running (Word.of 01000000) with host := [some (.mem (.deposit 5 (Word.of 1)))] }
      (fun t => (flow t, t.mem, t.waiting)) =
      some (⟨100, 0, .running, .none⟩, [(100, Word.of 01000000)], [.deposit 5 (Word.of 1)]) := by decide

/-- F16, F17. -/
theorem test_bulkLoad :
    after { State.reset with host := [some (.mem (.bulkLoad 4094 [Word.of 1, Word.of 2, Word.of 3]))] }
      (fun t => (t.mem, t.replies)) = some ([], [.addressFault none]) ∧
    after { State.reset with host := [some (.mem (.bulkLoad 4094 [Word.of 1, Word.of 2]))] }
      (fun t => (t.mem, t.replies)) = some ([(4094, Word.of 1), (4095, Word.of 2)], [.done]) := by decide

/-- The TraceRecord of the first cycle of 95_test_vectors 1.1; F18: none of a fault. -/
theorem test_trace :
    after { running (Word.of 30000001) with pc := 100 } (fun t => t.trace) =
      some [⟨100, Word.of 30000001, 1, Word.zero, Word.zero, 1⟩] ∧
    after (running (Word.of 99000000)) (fun t => (t.trace, record t)) =
      some ([], ⟨some .decodeFault, 100, some (Word.of 99000000), 100, 0⟩) := by decide

/-! ### Witnesses: states and operands that meet the hypotheses of the obligations, clause by clause -/

/-- At address 100 in the middle of a run, with the host's schedule saying "no request" once. -/
def runningHeld (w : Word) : State := { running w with host := [none] }

/-- The same, at the Word of an operation outside the reference set. -/
def runningOther : State :=
  { running (Word.of 99990005) with
    cfg := { refParams with optable := ⟨99, 99, .other 7 true⟩ :: refTable } }

/-- In `FAULTED`, as 95_test_vectors F12. -/
def faulted : State :=
  { State.reset with
    pc := 5, ir := Word.of 99000000, mem := [(5, Word.of 99000000)], fsm := .faulted, stop := .fault
    faultKind := some .decodeFault, faultPc := 5, faultWord := some (Word.of 99000000) }

/-- A machine whose console answers are `console`, with the text of 95_test_vectors 2.5 at 9. -/
def printing (text : Memory) (console : List Bool) : State :=
  startIo text (some ⟨[], console⟩) none none

theorem witness_DecodeInvertsEncode :
    OpTable.WellFormed refTable ∧ encodeWith refTable (.prt 9999) = some (Word.of 54759999) ∧
    encodeWith refTable (.hlt 0) = some (Word.of 0) ∧
    OpTable.WellFormed [⟨99, 99, .ref .mul⟩] ∧
    encodeWith [⟨99, 99, .ref .mul⟩] (.mul 9999) = some (Word.of 99999999) := by decide

theorem witness_EncodeInvertsDecode :
    decode (Word.of 0) = .instr (.hlt 0) ∧ decode (Word.of 54759999) = .instr (.prt 9999) := by decide

theorem witness_WellFormedInstructionsEncode :
    Instr.WellFormed (.jan 9999) ∧ ¬ Instr.WellFormed (.jan 10000) := by decide

theorem witness_FieldsOfAnInstructionWord :
    decodeWith refTable (Word.of 54759999) = .instr (.prt 9999) ∧
    decodeWith [⟨99, 99, .other 7 true⟩] (Word.of 99999999) = .other 7 true 9999 := by decide

theorem witness_LegalExactlyTheSixteenRows :
    decode (Word.of 54759999) = .instr (.prt 9999) ∧ (0 : Int) ≤ (Word.of 54759999).val := by decide

theorem witness_NegativeWordsNeverDecode :
    (Word.of (-1)).val < 0 ∧ (running (Word.of (-1))).fsm = .running ∧
    (running (Word.of (-1))).NoRequest [] ∧ (runningHeld (Word.of (-1))).NoRequest [] ∧
    (running (Word.of (-1))).Unchecked ∧
    (running (Word.of (-1))).pc < (running (Word.of (-1))).cfg.memWords ∧
    ((running (Word.of (-1))).mem.read 100).val < 0 := by decide

theorem witness_MemReadReturnsTheWordOrFaults :
    4095 < State.reset.cfg.memWords ∧ State.reset.cfg.memWords ≤ 4096 := by decide

theorem witness_MemWriteChangesOneCell :
    4095 < State.reset.cfg.memWords ∧ 4094 ≠ 4095 ∧ State.reset.cfg.memWords ≤ 4096 := by decide

theorem witness_EqualReadsEqualMemories :
    Memory.wf [(0, Word.of 1), (4095, Word.of (-1))] ∧
    ∀ x, Memory.read [(0, Word.of 1), (4095, Word.of (-1))] x =
      Memory.read [(0, Word.of 1), (4095, Word.of (-1))] x := ⟨by decide, fun _ => rfl⟩

/-- `s` with one event in the host's schedule. -/
def withEvent (e : HostEvent) (s : State) : State := { s with host := [some e] }

theorem witness_BulkLoadIsAllOrNothing :
    (withEvent (.mem (.bulkLoad 4094 [Word.of 1, Word.of 2])) faulted).Takes
      (.mem (.bulkLoad 4094 [Word.of 1, Word.of 2])) [] ∧
    faulted.fsm ≠ .running ∧ 4094 + [Word.of 1, Word.of 2].length ≤ faulted.cfg.memWords ∧
    [Word.of 1, Word.of 2][1]? = some (Word.of 2) ∧ 4093 < 4094 ∧
    (withEvent (.mem (.bulkLoad 4095 [Word.of 1, Word.of 2])) faulted).Takes
      (.mem (.bulkLoad 4095 [Word.of 1, Word.of 2])) [] ∧
    faulted.cfg.memWords < 4095 + [Word.of 1, Word.of 2].length ∧
    (withEvent (.mem (.bulkLoad 0 [])) (running Word.zero)).Takes (.mem (.bulkLoad 0 [])) [] ∧
    (running Word.zero).fsm = .running := by decide

theorem witness_DepositAndExamineServeTheHost :
    (∀ x ∈ [4095, 4096], (withEvent (.mem (.deposit x (Word.of 1))) faulted).Takes
        (.mem (.deposit x (Word.of 1))) [] ∧
      (withEvent (.mem (.examine x)) faulted).Takes (.mem (.examine x)) [] ∧
      (withEvent (.mem (.deposit x (Word.of 1))) (running Word.zero)).Takes
        (.mem (.deposit x (Word.of 1))) [] ∧
      (withEvent (.mem (.examine x)) (running Word.zero)).Takes (.mem (.examine x)) []) ∧
    faulted.fsm ≠ .running ∧ 4095 < faulted.cfg.memWords ∧ faulted.cfg.memWords ≤ 4096 ∧
    (running Word.zero).fsm = .running := by decide

theorem witness_HostMemoryRequestsWaitForThePort :
    (running Word.zero).fsm = .running ∧
    ({ running Word.zero with host := [some (.mem (.examine 0))] } : State).host =
      some (.mem (.examine 0)) :: [] ∧
    faulted.fsm ≠ .running ∧
    ({ faulted with waiting := [.examine 0] } : State).waiting = .examine 0 :: [] := by decide

theorem witness_StepRunsTheDecodedInstruction :
    (running (Word.of 01000000)).fsm = .running ∧ (running (Word.of 01000000)).NoRequest [] ∧
    (runningHeld (Word.of 01000000)).NoRequest [] ∧
    (running (Word.of 01000000)).Unchecked ∧
    (running (Word.of 01000000)).pc < (running (Word.of 01000000)).cfg.memWords ∧
    decodeWith (running (Word.of 01000000)).cfg.optable
      ((running (Word.of 01000000)).mem.read 100) = .instr (.nop 0) ∧
    runningOther.fsm = .running ∧ runningOther.NoRequest [] ∧ runningOther.Unchecked ∧
    runningOther.pc < runningOther.cfg.memWords ∧
    decodeWith runningOther.cfg.optable (runningOther.mem.read 100) = .other 7 true 5 := by decide

theorem witness_CheckStopsBeforeFetch :
    (running Word.zero).fsm = .running ∧ (running Word.zero).NoRequest [] ∧
    (running Word.zero).mode = .run ∧ (running Word.zero).cancel = false ∧
    ((running Word.zero).pc, true) ∉ (running Word.zero).breakpoints ∧
    ({ running Word.zero with cancel := true } : State).cancel = true ∧
    (100, true) ∈ ({ running Word.zero with breakpoints := [(100, true)] } : State).breakpoints ∧
    (start Word.zero Word.zero []).mode = .step := by decide

theorem witness_FetchReadsAtPcOrFaults :
    ({ running Word.zero with pc := 4096 } : State).Unchecked ∧
    ({ running Word.zero with pc := 4096 } : State).NoRequest [] ∧
    (running Word.zero).cfg.memWords ≤ 4096 ∧
    ({ running Word.zero with pc := 4095 } : State).Unchecked ∧
    4095 < (running Word.zero).cfg.memWords := by decide

theorem witness_MissingEntryFaults :
    (running (Word.of 54000002)).fsm = .running ∧ (running (Word.of 54000002)).NoRequest [] ∧
    (running (Word.of 54000002)).Unchecked ∧
    (running (Word.of 54000002)).pc < (running (Word.of 54000002)).cfg.memWords ∧
    ∀ r ∈ (running (Word.of 54000002)).cfg.optable,
      ¬ (r.op = opField ((running (Word.of 54000002)).mem.read 100) ∧
        r.mod = modField ((running (Word.of 54000002)).mem.read 100)) := by decide

/-- A fault of each phase: FETCH, DECODE, EXECUTE. Also of `FaultsArePrecise`. -/
theorem witness_FaultEntryWritesTheRecord :
    (∃ t, step { running Word.zero with pc := 4096 } = .next t ∧ t.fsm = .faulted) ∧
    (∃ t, step (running (Word.of (-1))) = .next t ∧ t.fsm = .faulted ∧
      ∃ why, decodeWith (running (Word.of (-1))).cfg.optable t.ir = .reject why) ∧
    (∃ t, step (running (Word.of 20004096)) = .next t ∧ t.fsm = .faulted ∧
      ∀ why, decodeWith (running (Word.of 20004096)).cfg.optable t.ir ≠ .reject why) :=
  ⟨⟨_, rfl, rfl⟩, ⟨_, rfl, rfl, .negative, by decide⟩, ⟨_, rfl, rfl, fun _ h => by cases h⟩⟩

theorem witness_FaultsArePrecise :
    (∃ t, step (running (Word.of 20004096)) = .next t ∧ t.fsm = .faulted) ∧
    decodeWith (running (Word.of 20004096)).cfg.optable
      ((running (Word.of 20004096)).mem.read 100) = .instr (.add 4096) ∧
    Operation.add ≠ .inp ∧ Operation.add ≠ .out ∧ Operation.add ≠ .prt :=
  ⟨⟨_, rfl, rfl⟩, by decide, by decide, by decide, by decide⟩

/-- A cycle for each value of `STOP`, a Reset, another event, and a step that only waits. -/
theorem witness_IcountCountsCompletedInstructions :
    (running Word.zero).StopAgrees ∧ (running Word.zero).NoRequest [] ∧
    after (running (Word.of (-1))) (fun t => t.stop) = some .fault ∧
    after { running Word.zero with breakpoints := [(100, true)] } (fun t => t.stop) =
      some .breakpoint ∧
    after { running Word.zero with cancel := true } (fun t => t.stop) = some .cancelled ∧
    after (running (Word.of 01000000)) (fun t => t.stop) = some .none ∧
    after { running (Word.of 01000000) with mode := .step } (fun t => t.stop) = some .stepDone ∧
    after (running Word.zero) (fun t => t.stop) = some .halt ∧
    ({ faulted with host := [some .reset] } : State).Takes .reset [] ∧
    ({ faulted with host := [some .status] } : State).Takes .status [] ∧
    faulted.StopAgrees ∧ faulted.fsm ≠ .running ∧ faulted.host = [] := by decide

theorem witness_OneTraceRecordPerInstruction :
    (running Word.zero).fsm = .running ∧ (running Word.zero).NoRequest [] ∧
    (running Word.zero).traceEn = true ∧
    after (running Word.zero) (fun t => t.icount) = some ((running Word.zero).icount + 1) ∧
    after (running (Word.of (-1))) (fun t => t.icount) = some (running (Word.of (-1))).icount := by
  decide

theorem witness_OnlyTheNamedInstructionsWrite :
    (∃ t, exec (.nop 0) (running (Word.of 01000000)) = .next t ∧ t.fsm ≠ .faulted) ∧
    (∃ t, exec (.add 4096) (running (Word.of 20004096)) = .next t ∧ t.fsm = .faulted) :=
  ⟨⟨_, rfl, by decide⟩, ⟨_, rfl, by decide⟩⟩

theorem witness_NextFetchSeesTheStore :
    4095 < State.reset.cfg.memWords ∧
    ({ running (Word.of 12004095) with pc := 4094 } : State).pc + 1 = 4095 ∧
    (∃ t, exec (.sta 4095) { running (Word.of 12004095) with pc := 4094 } = .next t) ∧
    (∃ t, exec (.stb 4095) { running (Word.of 13004095) with pc := 4094 } = .next t) :=
  ⟨by decide, by decide, ⟨_, rfl⟩, ⟨_, rfl⟩⟩

/-- Good states in which the next step is a cycle, a stop at the end of memory, a wait. -/
theorem witness_EveryStepKeepsTheInvariant :
    (running Word.zero).Good ∧ ({ running Word.zero with pc := 4096 } : State).Good ∧ faulted.Good ∧
    (∃ t, step (running Word.zero) = .next t) ∧
    (∃ t, step { running Word.zero with pc := 4096 } = .next t) ∧ (∃ t, step faulted = .next t) :=
  ⟨by decide, by decide, by decide, ⟨_, rfl⟩, ⟨_, rfl⟩, ⟨_, rfl⟩⟩

theorem witness_NoStepChangesTheParameters :
    (∃ t, step (running Word.zero) = .next t) ∧ (∃ t, step State.reset = .next t) :=
  ⟨⟨_, rfl⟩, ⟨_, rfl⟩⟩

theorem witness_OnlyAttachAndDetachRebind :
    (∃ t, step { State.reset with host := [some (.attach 2 ⟨[], []⟩)] } = .next t ∧
      devBound t 2 ≠ devBound State.reset 2) ∧
    (∃ t, step { printing [] [] with fsm := .ready, host := [some (.detach 0)] } = .next t ∧
      devBound t 0 ≠ devBound (printing [] []) 0) :=
  ⟨⟨_, rfl, by decide⟩, ⟨_, rfl, by decide⟩⟩

/-- Attach on a free slot, a bound one and none; detach of a bound slot and of none. -/
theorem witness_OnlyAttachAndDetachRebind_takes :
    (∀ n ∈ [0, 1, 3], (withEvent (.attach n ⟨[], []⟩) (printing [] [])).Takes
        (.attach n ⟨[], []⟩) [] ∧
      (withEvent (.detach n) (printing [] [])).Takes (.detach n) []) ∧
    (printing [] []).slots[1]? = some none ∧ devBound (printing [] []) 0 = true ∧
    0 < (printing [] []).slots.length ∧ (printing [] []).slots.length ≤ 3 := by decide

theorem witness_HostInputsAreSet :
    (∀ e ∈ [.setTrace true, .setCancel true, .setBreak 0 false, .clearBreak 9999],
      (withEvent e faulted).Takes e [] ∧ (withEvent e (running Word.zero)).Takes e []) ∧
    Sorted.Rising [(0, true), (9999, false)] := by decide

/-- A slot of each kind, and the addresses where memory ends. -/
theorem witness_OtherOperationsGoOnAsTheySay :
    (printing [] []).slots[0]? = some (some ⟨[], []⟩) ∧ (printing [] []).slots[2]? = some none ∧
    (printing [] []).slots[3]? = none ∧ 4095 < State.reset.cfg.memWords ∧
    ¬ 4096 < State.reset.cfg.memWords := by decide

/-- Ends of operations that read memory and a device: a fault, no store, a store into the last Word, and one
just past it. -/
theorem witness_OtherOperationsKeepTheContract :
    (∃ kind, reachOther (.memRead 4096 fun _ => .fault .device) faulted = .fault kind faulted) ∧
    (∀ store ∈ [none, some (4095, -7), some (4096, -7)], ∃ r t : _, r.store = store ∧
      reachOther (.memRead 5 fun w => .devWriteChar 0 37 fun _ => .finish ⟨w.val, 1, store, none⟩)
        (printing [] [false]) = .result r t) ∧
    4095 < State.reset.cfg.memWords ∧ State.reset.cfg.memWords ≤ 4096 :=
  ⟨⟨_, rfl⟩, fun _ _ => ⟨_, _, rfl, rfl⟩, by decide, by decide⟩

theorem witness_StateChangesOnlyByTheTable :
    (∃ t, step { faulted with host := [some (.run 9999)] } = .next t ∧ t.fsm ≠ .faulted) ∧
    (∃ t, step { faulted with host := [some .step] } = .next t ∧ t.fsm ≠ .faulted) ∧
    (∃ t, step { faulted with host := [some .reset] } = .next t ∧ t.fsm ≠ .faulted) ∧
    (∃ t, step { running Word.zero with host := [some .reset] } = .next t ∧ t.fsm ≠ .running) ∧
    (∃ t, step { running Word.zero with cancel := true } = .next t ∧ t.fsm ≠ .running) ∧
    (∃ t, step { running Word.zero with breakpoints := [(100, true)] } = .next t ∧
      t.fsm ≠ .running) ∧
    (∃ t, step (start Word.zero Word.zero [(100, Word.of 01000000)]) = .next t ∧
      t.fsm ≠ .running) ∧
    (∃ t, step (running Word.zero) = .next t ∧ t.fsm ≠ .running) ∧
    (∃ t, step (running (Word.of (-1))) = .next t ∧ t.fsm ≠ .running) :=
  ⟨⟨_, rfl, by decide⟩, ⟨_, rfl, by decide⟩, ⟨_, rfl, by decide⟩, ⟨_, rfl, by decide⟩,
    ⟨_, rfl, by decide⟩, ⟨_, rfl, by decide⟩, ⟨_, rfl, by decide⟩, ⟨_, rfl, by decide⟩,
    ⟨_, rfl, by decide⟩⟩

theorem witness_TracingIsNeverFedBack :
    ∃ t, step (running (Word.of 01000000)) = .next t := ⟨_, rfl⟩

/-- A jump to itself, with an armed breakpoint that the run never reaches. -/
def runningLoop : State := { running (Word.of 30000100) with breakpoints := [(99, true), (100, false)] }

theorem witness_SteppingComputesWhatARunComputes :
    runningLoop.fsm = .running ∧ runningLoop.mode = .run ∧ runningLoop.host = [] ∧
    runningLoop.waiting = [] ∧ runningLoop.HaltRecordAgrees ∧ runningLoop.FaultRecordAgrees ∧
    ∃ t : State, Host.Core.run core 2 runningLoop = .next t ∧ t.fsm = .running :=
  ⟨by decide, by decide, by decide, by decide, by decide, by decide, _, rfl, by decide⟩

theorem witness_RetriedFaultRepeats :
    (running (Word.of 20004096)).fsm = .running ∧ (running (Word.of 20004096)).Unchecked ∧
    (running (Word.of 20004096)).host = [] ∧ (running (Word.of 20004096)).waiting = [] ∧
    (running (Word.of 20004096)).haltAddr = 0 ∧
    ∃ t, step (running (Word.of 20004096)) = .next t ∧ t.fsm = .faulted ∧
      t.devOps = (running (Word.of 20004096)).devOps :=
  ⟨by decide, by decide, by decide, by decide, by decide, _, rfl, by decide, by decide⟩

/-- `PRT 4095`, whose text runs past memory after four codes, on an endpoint good for two times that. -/
def runningPrt : State :=
  { running (Word.of 54754095) with slots := [some ⟨[], List.replicate 8 true⟩, none, none] }

theorem witness_RetriedFaultRepeats_prt :
    runningPrt.fsm = .running ∧ runningPrt.Unchecked ∧ runningPrt.host = [] ∧ runningPrt.waiting = [] ∧
    runningPrt.haltAddr = 0 ∧ runningPrt.pc < runningPrt.cfg.memWords ∧
    after runningPrt (fun t => (t.fsm, t.devOps.length)) = some (.faulted, 4) ∧
    decodeWith runningPrt.cfg.optable (runningPrt.mem.read runningPrt.pc) = .instr (.prt 4095) ∧
    runningPrt.slots[Config.console]? = some (some ⟨[], List.replicate 8 true⟩) ∧
    (∀ i < 8, runningPrt.consoleAnswer ⟨[], List.replicate 8 true⟩ i = true) ∧
    TextFrom runningPrt.mem 4096 4095 [0, 0, 0, 0] false :=
  ⟨by decide, by decide, by decide, by decide, by decide, by decide, by decide, by decide, by decide,
    by decide, .more (codes := []) (by decide) (by decide) (.overrun (by decide))⟩

theorem witness_ResetRequestClearsTheBlock :
    ({ faulted with host := [some .reset] } : State).Takes .reset [] ∧
    ({ running Word.zero with host := [some .reset], waiting := [.examine 0] } : State).Takes
      .reset [] := by decide

theorem witness_RunRequestStartsARun :
    ({ faulted with host := [some (.run 9999)] } : State).Takes (.run 9999) [] ∧
    ({ running Word.zero with host := [some (.run 0)] } : State).Takes (.run 0) [] := by decide

theorem witness_StepRequestStartsOneCycle :
    ({ faulted with host := [some .step] } : State).Takes .step [] ∧ faulted.fsm ≠ .running ∧
    ({ running Word.zero with host := [some .step] } : State).Takes .step [] ∧
    (running Word.zero).fsm = .running := by decide

theorem witness_StatusPortReadsWithoutEffect :
    ({ faulted with host := [some .status] } : State).Takes .status [] ∧
    ({ running Word.zero with host := [some .status] } : State).Takes .status [] := by decide

/-- Also of `StoresChangeOneWord`, `AddAndSubUseTheOverflowPolicy` and `MulGivesTheExactDoubleProduct`. -/
theorem witness_LoadsCopyTheWord :
    0 < State.reset.cfg.memWords ∧ 4095 < State.reset.cfg.memWords := by decide

theorem witness_StoresChangeOneWord :
    4095 < State.reset.cfg.memWords ∧ 4094 ≠ effectiveAddress 4095 := by decide

theorem witness_XabExchanges :
    ∃ t u, exec (.xab 0) (start (Word.of 1) (Word.of 2) []) = .next t ∧
      exec (.xab 9999) t = .next u := ⟨_, _, rfl, rfl⟩

/-- Operands whose sum is the last that fits, and the first that does not. -/
theorem witness_AddAndSubUseTheOverflowPolicy :
    4095 < State.reset.cfg.memWords ∧
    Word.InRange ((Word.of 99999998).val + (Word.of 1).val) ∧
    ¬ Word.InRange ((Word.of 99999999).val + (Word.of 1).val) ∧
    Word.InRange ((Word.of (-99999998)).val - (Word.of 1).val) := by decide

theorem witness_MulGivesTheExactDoubleProduct : 4095 < State.reset.cfg.memWords := by decide

theorem witness_InpAndOutUseTheDevice :
    (startIo [] none (some ⟨[some (Word.of 7)], [true]⟩) none).slots[1]? =
      some (some ⟨[some (Word.of 7)], [true]⟩) ∧
    [some (Word.of 7)].head? = some (some (Word.of 7)) ∧ [true].head? = some true := by decide

/-- One text ends in its first Word with no code, one in its second after five codes. -/
theorem witness_PrtPrintsTheText :
    (printing [(9, Word.of 37000000)] []).slots[Config.console]? = some (some ⟨[], []⟩) ∧
    TextFrom [(9, Word.of 37000000)] 4096 9 [] true ∧
    TextFrom [(9, Word.of 30253434), (10, Word.of 42373030)] 4096 9 [30, 25, 34, 34, 42] true ∧
    ∀ i < 5, (printing [] []).consoleAnswer ⟨[], List.replicate 5 true⟩ i = true :=
  ⟨by decide, .ended (after := [0, 0, 0]) (by decide) (by decide) (by decide),
    .more (codes := [42]) (by decide) (by decide)
      (.ended (after := [30, 30]) (by decide) (by decide) (by decide)), by decide⟩

/-- A text in the last Word, and one that starts past it. -/
theorem witness_PrtPastMemoryFaults :
    (printing [] (List.replicate 4 true)).slots[Config.console]? =
      some (some ⟨[], List.replicate 4 true⟩) ∧
    TextFrom [] 4096 4095 [0, 0, 0, 0] false ∧ TextFrom [] 4096 4096 [] false ∧
    ∀ i < 4, (printing [] []).consoleAnswer ⟨[], List.replicate 4 true⟩ i = true :=
  ⟨by decide, .more (codes := []) (by decide) (by decide) (.overrun (by decide)),
    .overrun (by decide), by decide⟩

theorem witness_PrtEndpointFailureFaults :
    (printing [(9, Word.of 30253437)] [true, true, false]).slots[Config.console]? =
      some (some ⟨[], [true, true, false]⟩) ∧
    TextFrom [(9, Word.of 30253437)] 4096 9 ([30, 25] ++ 34 :: []) true ∧
    (∀ i < 2, (printing [] []).consoleAnswer ⟨[], [true, true, false]⟩ i = true) ∧
    (printing [] []).consoleAnswer ⟨[], [true, true, false]⟩ 2 = false :=
  ⟨by decide, .ended (after := []) (by decide) (by decide) (by decide), by decide, by decide⟩

theorem witness_PrtSendsABoundedText : TextFrom [(9, Word.of 37000000)] 4096 9 [] true :=
  .ended (before := []) (after := [0, 0, 0]) (by decide) (by decide) (by decide)

theorem witness_OperandPastMemoryFaults :
    State.reset.cfg.memWords ≤ 4096 ∧ State.reset.cfg.memWords ≤ 9999 := by decide

theorem witness_UnboundSlotFaults :
    State.reset.slots[3]? = none ∧ State.reset.slots[Config.console]? = some none := by decide

theorem witness_FailedDeviceOperationFaults :
    (startIo [] none (some ⟨[none], [false]⟩) none).slots[1]? = some (some ⟨[none], [false]⟩) ∧
    [(none : Option Word)].head? = some none ∧ [false].head? = some false := by decide

theorem witness_WrapDropsTheCarry :
    (100000000 : Int).natAbs % 100000000 = 0 ∧ 100000000 ≤ (100000000 : Int).natAbs ∧
    (199999998 : Int).natAbs ≤ 2 * 99999999 ∧ (0 : Int) < 199999998 ∧
    (-199999998 : Int).natAbs ≤ 2 * 99999999 ∧ (-199999998 : Int) < 0 := by decide

theorem witness_SaturateSticks :
    (99999999 : Int) < 100000000 ∧ (-100000000 : Int) < -99999999 ∧
    (-99999999 : Int) ≤ -99999999 ∧ (99999999 : Int) ≤ 99999999 := by decide

theorem witness_OverflowPolicyLaws : (99999999 : Int) ≤ 100000000 := by decide

theorem witness_SubUndoesAddWithoutOverflow :
    0 < State.reset.cfg.memWords ∧ 4095 < State.reset.cfg.memWords := by decide

end Sys2Proof.Tests
end

/-! The statements of spec/00_scope.md about every step: it has a next state, and it changes neither the
parameters nor the number of slots. -/

namespace Sys2Proof.Machine

open Sys2Proof

/-! ### Every step has a next state -/

theorem runOrWait_has_next (s : State) : ∃ t, runOrWait s = .next t := by
  by_cases hr : s.fsm = .running
  · obtain ⟨t, ht, -⟩ := cycle_ends s
    exact ⟨t, (if_pos hr).trans ht⟩
  · exact ⟨s, if_neg hr⟩

theorem takeEvent_has_next (s : State) : ∃ t, takeEvent s = .next t := by
  rcases takeEvent_cases s with ⟨e, rest, -, he⟩ | ⟨rest, -, he⟩
  · exact ⟨_, he⟩
  · exact he ▸ runOrWait_has_next _

/-- Settles O27: a step serves a waiting memory request, takes an event of the host, performs a cycle, or
waits, and each of the four has a next state (a cycle by `cycle_ends`). -/
theorem everyStepHasANextState : Obligations.EveryStepHasANextState := by
  intro s
  rcases step_cases s with ⟨-, r, rest, -, he⟩ | ⟨-, he⟩
  · exact ⟨_, he⟩
  · exact he ▸ takeEvent_has_next s

/-! ### The parameters and the number of slots -/

/-- `t` has the parameters of `s` and as many device slots: what is fixed for the life of the machine
(00_scope R5; log 3). -/
structure SameParams (s t : State) : Prop where
  cfg : t.cfg = s.cfg
  nslots : t.slots.length = s.slots.length

theorem SameParams.trans {s t u : State} (h : SameParams s t) (k : SameParams t u) : SameParams s u :=
  ⟨k.cfg.trans h.cfg, k.nslots.trans h.nslots⟩

theorem DeviceOnly.sameParams {s t : State} (h : DeviceOnly s t) : SameParams s t :=
  ⟨h.cfg_eq, h.length⟩

theorem Executed.sameParams {s t : State} (h : Executed s t) : SameParams s t := ⟨h.cfg_eq, h.length⟩

theorem sameParams_completeAs (halt : Bool) (target : Option Nat) (s : State) :
    SameParams s (completeAs halt target s) :=
  ⟨completeAs_cfg .., congrArg List.length (completeAs_slots ..)⟩

theorem sameParams_raiseExec (kind : FaultKind) (s : State) : SameParams s (raiseExec kind s) :=
  ⟨rfl, rfl⟩

theorem sameParams_reply (r : HostReply) (s : State) : SameParams s (reply r s) := ⟨rfl, rfl⟩

theorem Completes.sameParams {i : Instr} {s t : State} (h : Completes i s t) : SameParams s t := by
  cases h with
  | next _ => exact sameParams_completeAs false none s
  | jumped _ => exact sameParams_completeAs false (some i.addr) s
  | halted _ => exact sameParams_completeAs true none s

theorem ExecEnds.sameParams {i : Instr} {s t : State} (h : ExecEnds i s t) : SameParams s t := by
  cases h with
  | completed hE hC => exact hE.sameParams.trans hC.sameParams
  | faulted kind _ hD => exact hD.sameParams.trans (sameParams_raiseExec kind _)

theorem OtherEnds.sameParams {halt : Bool} {s t : State} (h : OtherEnds halt s t) : SameParams s t := by
  cases h with
  | completed target hE _ => exact hE.sameParams.trans (sameParams_completeAs halt target _)
  | faulted kind _ hD => exact hD.sameParams.trans (sameParams_raiseExec kind _)

theorem sameParams_fetched (s : State) : SameParams s (fetched s) := ⟨rfl, rfl⟩

theorem CycleEnds.sameParams {s t : State} (h : CycleEnds s t) : SameParams s t := by
  cases h with
  | suspended => exact ⟨rfl, rfl⟩
  | fetchFault => exact ⟨rfl, rfl⟩
  | decodeFault => exact ⟨rfl, rfl⟩
  | executed i _ _ _ _ hE => exact (sameParams_fetched s).trans hE.sameParams
  | other n halt x _ _ _ _ hO => exact (sameParams_fetched s).trans hO.sameParams

theorem sameParams_serveMem (r : MemRequest) (s : State) : SameParams s (serveMem r s) := by
  rcases serveMem_cases r s with ⟨x, e⟩ | ⟨x, v, -, -, e⟩ | ⟨x, ws, -, -, e⟩ <;>
    exact e ▸ ⟨rfl, rfl⟩

/-- Binding or unbinding a slot leaves the slots as many as they were. -/
theorem sameParams_setSlot (n : Nat) (b : Option Endpoint) (s : State) :
    SameParams s { s with slots := s.slots.set n b } := ⟨rfl, List.length_set⟩

theorem sameParams_attach (n : Nat) (ep : Endpoint) (s : State) : SameParams s (attach n ep s) := by
  unfold attach
  split_ifs
  · exact sameParams_reply _ s
  · exact sameParams_setSlot n (some ep) s
  · exact sameParams_reply _ s

theorem sameParams_detach (n : Nat) (s : State) : SameParams s (detach n s) := by
  unfold detach
  split_ifs
  · exact sameParams_setSlot n none s
  · exact sameParams_reply _ s

theorem sameParams_accept (e : HostEvent) (s : State) : SameParams s (accept e s) := by
  cases e with
  | reset => exact ⟨rfl, rfl⟩
  | run a => exact ⟨rfl, rfl⟩
  | step =>
    unfold accept
    split_ifs
    · exact sameParams_reply _ s
    · exact ⟨rfl, rfl⟩
  | mem r =>
    unfold accept
    rcases portOwner_cases s with ⟨-, hp⟩ | ⟨-, hp⟩ <;> simp only [hp]
    · exact ⟨rfl, rfl⟩
    · exact sameParams_serveMem r s
  | status => exact sameParams_reply _ s
  | setBreak addr armed => exact ⟨rfl, rfl⟩
  | clearBreak addr => exact ⟨rfl, rfl⟩
  | setTrace on => exact ⟨rfl, rfl⟩
  | setCancel on => exact ⟨rfl, rfl⟩
  | attach n ep => exact sameParams_attach n ep s
  | detach n => exact sameParams_detach n s

/-- The host's schedule and the requests that wait are not among the parameters. -/
theorem sameParams_schedule (s : State) (rest : List (Option HostEvent)) (l : List MemRequest) :
    SameParams s { s with host := rest, waiting := l } := ⟨rfl, rfl⟩

theorem step_sameParams {s s' : State} (h : step s = .next s') : SameParams s s' := by
  rcases step_inv h with ⟨-, r, l, -, rfl⟩ | ⟨e, rest, -, rfl⟩ | ⟨-, rest, -, hc⟩ | ⟨-, -, rest, -, rfl⟩
  · exact (sameParams_schedule s s.host l).trans (sameParams_serveMem r _)
  · exact (sameParams_schedule s rest s.waiting).trans (sameParams_accept e _)
  · exact (sameParams_schedule s rest s.waiting).trans hc.sameParams
  · exact sameParams_schedule s rest s.waiting

/-- Settles O28, by the four things a step can have been: each keeps `SameParams`. -/
theorem noStepChangesTheParameters : Obligations.NoStepChangesTheParameters := by
  intro s s' h
  obtain ⟨hcfg, hslots⟩ := step_sameParams h
  exact ⟨hcfg, hslots⟩

end Sys2Proof.Machine

/-! The statements of spec/10_state.md: the invariant of the machine, who writes what, `ICOUNT`, the canonical
form of memory, the reset values and the status port. -/

namespace Sys2Proof.Machine

open Sys2Proof

/-! ### The reset values and the status port -/

/-- Settles O37, from the record `State.reset` and the empty memory it holds. -/
theorem resetValues : Obligations.ResetValues :=
  ⟨Memory.read_nil, rfl, rfl, rfl, rfl, rfl, rfl, rfl, rfl, rfl, rfl, rfl, rfl⟩

/-- Settles O41: the step that takes a status read is `accept .status`, whose answer is `statusOf`. -/
theorem statusPortReadsWithoutEffect : Obligations.StatusPortReadsWithoutEffect :=
  fun _ _ h => step_of_takes h

/-- The reference parameters are legal: the reference table has `HLT` and `PRT` at the two pinned pairs. -/
theorem refParams_legal : Params.Legal refParams :=
  ⟨refParams_wellFormed, runsExample_of_rows rfl rfl⟩

/-- Settles O26: the parameters by `refParams_legal`, the other parts of `State.Good` by evaluation. -/
theorem resetMeetsTheInvariant : Obligations.ResetMeetsTheInvariant :=
  ⟨refParams_legal, by decide, by decide, rfl, by decide, Memory.wf_reset, by decide, by decide, by decide⟩

/-! ### The canonical form of memory -/

theorem Sorted.get_eq_some_iff {α : Type} {l : List (Nat × α)} (h : Sorted.Rising l) {k : Nat} {v : α} :
    Sorted.get k l = some v ↔ (k, v) ∈ l := by
  induction l with
  | nil => simp
  | cons c l ih =>
    obtain ⟨j, u⟩ := c
    obtain ⟨hj, hl⟩ := List.pairwise_cons.mp h
    rw [Sorted.get_cons]
    split_ifs with hk
    · subst hk
      have hnot : (k, v) ∉ l := fun hm => lt_irrefl k (hj _ hm)
      simp [hnot, eq_comm]
    · simp [hk, ih hl]

/-- In canonical form an address is listed exactly with what it reads, if that is not `+00000000`. -/
theorem Memory.mem_iff_read {m : Memory} (h : m.wf) {x : Nat} {v : Word} :
    (x, v) ∈ m ↔ m.read x = v ∧ v ≠ Memory.unlisted := by
  obtain ⟨hr, hv⟩ := h
  unfold Memory.read
  constructor
  · intro hm
    rw [(Sorted.get_eq_some_iff hr).mpr hm]
    exact ⟨rfl, hv _ hm⟩
  · rintro ⟨e, hne⟩
    rw [← Sorted.get_eq_some_iff hr]
    cases hg : Sorted.get x m with
    | none => rw [hg] at e; exact absurd e.symm hne
    | some u => rw [hg] at e; exact congrArg some e

/-- Settles O11: by `Memory.mem_iff_read` the reads say which entries are listed, and lists that rise strictly
and have the same entries are equal. -/
theorem equalReadsEqualMemories : Obligations.EqualReadsEqualMemories := by
  intro m n hm hn h
  have asymm : Std.Asymm fun c d : Nat × Word => c.1 < d.1 := ⟨fun _ _ => lt_asymm⟩
  refine hm.1.eq_of_mem_iff hn.1 fun ⟨x, v⟩ => ?_
  rw [Memory.mem_iff_read hm, Memory.mem_iff_read hn, h]

/-! ### What an event of the host does to the control state -/

/-- `t` is `s` but for memory, the inputs the host owns, its schedule and its record of answers: `STATE`, `MODE`,
the registers, `ICOUNT` and the records stay. -/
def ControlKept (s t : State) : Prop :=
  t = { s with
    mem := t.mem, breakpoints := t.breakpoints, traceEn := t.traceEn, cancel := t.cancel
    slots := t.slots, host := t.host, waiting := t.waiting, replies := t.replies }

theorem controlKept_serveMem (r : MemRequest) (s : State) : ControlKept s (serveMem r s) := by
  rcases serveMem_cases r s with ⟨x, e⟩ | ⟨x, v, -, -, e⟩ | ⟨x, ws, -, -, e⟩ <;> rw [e] <;> rfl

theorem controlKept_attach (n : Nat) (ep : Endpoint) (s : State) : ControlKept s (attach n ep s) := by
  unfold attach
  split_ifs <;> rfl

theorem controlKept_detach (n : Nat) (s : State) : ControlKept s (detach n s) := by
  unfold detach
  split_ifs <;> rfl

/-- What an event of the host does: nothing to the control state, or it is a Reset, a Run or an accepted Step. -/
theorem accept_cases (e : HostEvent) (s : State) :
    (e ≠ .reset ∧ ControlKept s (accept e s)) ∨
    (e = .reset ∧ accept e s = reply .done (resetRequest s)) ∨
    (∃ a : Fin Config.amod, e = .run a ∧ accept e s = reply .done (runRequest a.val s)) ∨
    (e = .step ∧ accept e s = reply .done (stepRequest s)) := by
  cases e with
  | reset => exact .inr (.inl ⟨rfl, rfl⟩)
  | run a => exact .inr (.inr (.inl ⟨a, rfl, rfl⟩))
  | step =>
    by_cases h : s.fsm = .running
    · have he : accept .step s = reply .refused s := if_pos h
      exact .inl ⟨nofun, he ▸ rfl⟩
    · exact .inr (.inr (.inr ⟨rfl, if_neg h⟩))
  | mem r =>
    refine .inl ⟨nofun, ?_⟩
    unfold accept
    rcases portOwner_cases s with ⟨-, hp⟩ | ⟨-, hp⟩ <;> simp only [hp]
    · rfl
    · exact controlKept_serveMem r s
  | status => exact .inl ⟨nofun, rfl⟩
  | setBreak addr armed => exact .inl ⟨nofun, rfl⟩
  | clearBreak addr => exact .inl ⟨nofun, rfl⟩
  | setTrace on => exact .inl ⟨nofun, rfl⟩
  | setCancel on => exact .inl ⟨nofun, rfl⟩
  | attach n ep => exact .inl ⟨nofun, controlKept_attach n ep s⟩
  | detach n => exact .inl ⟨nofun, controlKept_detach n s⟩

/-! ### How a cycle ends, for any operation -/

/-- What an instruction of the reference set can do is what any operation can do (30_encoding R75). -/
theorem ExecEnds.otherEnds {i : Instr} {s u : State} (hw : i.WellFormed) (h : ExecEnds i s u) :
    ∃ halt, OtherEnds halt s u := by
  cases h with
  | completed hE hC =>
    cases hC with
    | next _ => exact ⟨false, .completed none hE nofun⟩
    | jumped _ => exact ⟨false, .completed (some i.addr) hE fun _ e => Option.some.inj e ▸ hw⟩
    | halted _ => exact ⟨true, .completed none hE nofun⟩
  | faulted kind hk hD => exact ⟨false, .faulted kind hk hD⟩

/-- The ends of a cycle, with reference and other operations taken together: a stop in CHECK, a fault before
EXECUTE, or the end of some operation. -/
theorem CycleEnds.cases_operation {s u : State} (h : CycleEnds s u) :
    (∃ why, (why = .cancelled ∨ why = .breakpoint) ∧ u = suspend why s) ∨
    (s.cfg.memWords ≤ s.pc ∧ u = raise .addressFault none s) ∨
    u = raiseExec .decodeFault (fetched s) ∨
    (s.pc < s.cfg.memWords ∧ ∃ halt, OtherEnds halt (fetched s) u) := by
  cases h with
  | suspended why _ hwhy _ => exact .inl ⟨why, hwhy, rfl⟩
  | fetchFault _ hpc => exact .inr (.inl ⟨hpc, rfl⟩)
  | decodeFault => exact .inr (.inr (.inl rfl))
  | executed i _ hpc hd _ hE => exact .inr (.inr (.inr ⟨hpc, hE.otherEnds (wellFormed_of_decode hd)⟩))
  | other n halt x _ hpc _ _ hO => exact .inr (.inr (.inr ⟨hpc, halt, hO⟩))

/-! ### The invariant: the canonical forms -/

/-- The part of `State.Good` about the form of the data: memory in canonical form with nothing past its last
Word, and the breakpoint set in canonical form. -/
structure Canonical (s : State) : Prop where
  wf : s.mem.wf
  within : s.mem.Within s.cfg.memWords
  breakpoints : Sorted.Rising s.breakpoints

/-- A state with the same memory, breakpoint set and parameters. -/
theorem Canonical.of_eq {s t : State} (h : Canonical s) (hc : t.cfg = s.cfg) (hm : t.mem = s.mem)
    (hb : t.breakpoints = s.breakpoints) : Canonical t :=
  ⟨hm ▸ h.wf, by rw [hm, hc]; exact h.within, hb ▸ h.breakpoints⟩

theorem Canonical.write {s : State} (h : Canonical s) {x : Nat} (v : Word) (hx : x < s.cfg.memWords) :
    Canonical { s with mem := s.mem.write x v } :=
  ⟨Memory.wf_write x v h.wf, Memory.within_write v hx h.within, h.breakpoints⟩

theorem Canonical.writeAll {s : State} (h : Canonical s) {x : Nat} (ws : List Word)
    (hx : x + ws.length ≤ s.cfg.memWords) : Canonical { s with mem := s.mem.writeAll x ws } :=
  ⟨Memory.wf_writeAll ws x h.wf, Memory.within_writeAll ws hx h.within, h.breakpoints⟩

theorem Canonical.serveMem {s : State} (h : Canonical s) (r : MemRequest) : Canonical (serveMem r s) := by
  rcases serveMem_cases r s with ⟨x, e⟩ | ⟨x, v, -, hx, e⟩ | ⟨x, ws, -, hx, e⟩ <;> rw [e]
  · exact h.of_eq rfl rfl rfl
  · exact (h.write v hx).of_eq rfl rfl rfl
  · exact (h.writeAll ws hx).of_eq rfl rfl rfl

theorem Canonical.attach {s : State} (h : Canonical s) (n : Nat) (ep : Endpoint) :
    Canonical (attach n ep s) := by
  unfold Machine.attach
  split_ifs <;> exact h.of_eq rfl rfl rfl

theorem Canonical.detach {s : State} (h : Canonical s) (n : Nat) : Canonical (detach n s) := by
  unfold Machine.detach
  split_ifs <;> exact h.of_eq rfl rfl rfl

theorem Canonical.accept {s : State} (h : Canonical s) (e : HostEvent) : Canonical (accept e s) := by
  cases e with
  | reset => exact ⟨Memory.wf_reset, fun _ hc => absurd hc List.not_mem_nil, h.breakpoints⟩
  | run a => exact h.of_eq rfl rfl rfl
  | step =>
    unfold Machine.accept
    split_ifs <;> exact h.of_eq rfl rfl rfl
  | mem r =>
    unfold Machine.accept
    rcases portOwner_cases s with ⟨-, hp⟩ | ⟨-, hp⟩ <;> simp only [hp]
    · exact h.of_eq rfl rfl rfl
    · exact h.serveMem r
  | status => exact h.of_eq rfl rfl rfl
  | setBreak addr armed => exact ⟨h.wf, h.within, Sorted.rising_put addr armed h.breakpoints⟩
  | clearBreak addr => exact ⟨h.wf, h.within, Sorted.rising_remove addr h.breakpoints⟩
  | setTrace on => exact h.of_eq rfl rfl rfl
  | setCancel on => exact h.of_eq rfl rfl rfl
  | attach n ep => exact h.attach n ep
  | detach n => exact h.detach n

theorem Canonical.executed {s t : State} (h : Canonical s) (hE : Executed s t) : Canonical t := by
  rcases hE.mem with hm | ⟨x, v, hx, hm⟩
  · exact h.of_eq hE.cfg_eq hm hE.breakpoints_eq
  · exact (h.write v hx).of_eq hE.cfg_eq hm hE.breakpoints_eq

theorem Canonical.otherEnds {halt : Bool} {s u : State} (h : Canonical s) (hO : OtherEnds halt s u) :
    Canonical u := by
  cases hO with
  | completed target hE _ =>
    exact (h.executed hE).of_eq (completeAs_cfg ..) (completeAs_mem ..) (completeAs_breakpoints ..)
  | faulted kind _ hD => exact h.of_eq hD.cfg_eq hD.mem_eq hD.breakpoints_eq

theorem Canonical.cycleEnds {s u : State} (h : Canonical s) (hc : CycleEnds s u) : Canonical u := by
  rcases hc.cases_operation with ⟨why, -, rfl⟩ | ⟨-, rfl⟩ | rfl | ⟨-, halt, hO⟩
  · exact h.of_eq rfl rfl rfl
  · exact h.of_eq rfl rfl rfl
  · exact h.of_eq rfl rfl rfl
  · exact Canonical.otherEnds (s := fetched s) (h.of_eq rfl rfl rfl) hO

/-- Each of the four things a step can have been keeps the canonical forms. -/
theorem Canonical.step {s s' : State} (h : Canonical s) (hs : step s = .next s') : Canonical s' := by
  have schedule : ∀ rest l, Canonical { s with host := rest, waiting := l } := fun _ _ => h.of_eq rfl rfl rfl
  rcases step_inv hs with ⟨-, r, l, -, rfl⟩ | ⟨e, rest, -, rfl⟩ | ⟨-, rest, -, hc⟩ | ⟨-, -, rest, -, rfl⟩
  · exact (schedule s.host l).serveMem r
  · exact (schedule rest s.waiting).accept e
  · exact (schedule rest s.waiting).cycleEnds hc
  · exact schedule rest s.waiting

/-! ### The invariant: `PC`, `STOP` and the records -/

/-- The part of `State.Good` about the control state: `PC` in `0..AMOD`, and `STOP` and the records agreeing with
`STATE`. -/
structure Controlled (s : State) : Prop where
  pc : s.pc ≤ Config.amod
  stop : s.StopAgrees
  haltRecord : s.HaltRecordAgrees
  faultRecord : s.FaultRecordAgrees

theorem Controlled.kept {s t : State} (h : Controlled s) (k : ControlKept s t) : Controlled t := by
  rw [k]
  exact ⟨h.pc, h.stop, h.haltRecord, h.faultRecord⟩

/-- `STATE` is `RUNNING`, no stop is on record and both records are cleared. -/
structure Cleared (s : State) : Prop where
  fsm : s.fsm = .running
  stop : s.stop = .none
  haltAddr : s.haltAddr = 0
  faultKind : s.faultKind = none
  faultPc : s.faultPc = 0
  faultWord : s.faultWord = none

/-- In `RUNNING` the invariant leaves no stop and no record. -/
theorem Controlled.cleared {s : State} (h : Controlled s) (hr : s.fsm = .running) : Cleared s := by
  obtain ⟨-, ⟨-, -, hstop⟩, hhalt, hfault⟩ := h
  simp only [State.HaltRecordAgrees, State.FaultRecordAgrees, hr, reduceCtorEq, if_false] at hhalt hfault
  obtain ⟨hk, hp, hw⟩ := hfault
  exact ⟨hr, hstop hr, hhalt, hk, hp, hw⟩

theorem Cleared.executed {s t : State} (h : Cleared s) (hE : Executed s t) : Cleared t :=
  ⟨hE.fsm_eq.trans h.fsm, hE.stop_eq.trans h.stop, hE.haltAddr_eq.trans h.haltAddr,
    hE.faultKind_eq.trans h.faultKind, hE.faultPc_eq.trans h.faultPc, hE.faultWord_eq.trans h.faultWord⟩

theorem Cleared.deviceOnly {s t : State} (h : Cleared s) (hD : DeviceOnly s t) : Cleared t :=
  h.executed (hD.executed t.a t.b)

theorem Cleared.controlled {s : State} (h : Cleared s) (hp : s.pc ≤ Config.amod) : Controlled s where
  pc := hp
  stop := by simp [State.StopAgrees, h.fsm, h.stop]
  haltRecord := by simp [State.HaltRecordAgrees, h.fsm, h.haltAddr]
  faultRecord := by simp [State.FaultRecordAgrees, h.fsm, h.faultKind, h.faultPc, h.faultWord]

theorem Cleared.suspend {s : State} (h : Cleared s) (hp : s.pc ≤ Config.amod) {why : Stop}
    (hw : why = .cancelled ∨ why = .breakpoint) : Controlled (suspend why s) where
  pc := hp
  stop := by rcases hw with rfl | rfl <;> simp [State.StopAgrees]
  haltRecord := by simp [State.HaltRecordAgrees, h.haltAddr]
  faultRecord := by simp [State.FaultRecordAgrees, h.faultKind, h.faultPc, h.faultWord]

/-- The fault entry leaves the record that `FAULTED` asks for, if the Word on record is the fetched one, or is
absent because the fetch itself found `PC` past memory (60_exceptions R204, R207). -/
theorem Cleared.raise {s : State} (h : Cleared s) (hp : s.pc ≤ Config.amod) {kind : FaultKind}
    {word : Option Word}
    (hw : word = some s.ir ∨ (word = none ∧ kind = .addressFault ∧ s.cfg.memWords ≤ s.pc)) :
    Controlled (raise kind word s) where
  pc := hp
  stop := by simp [State.StopAgrees]
  haltRecord := by simp [State.HaltRecordAgrees, h.haltAddr]
  faultRecord := by simpa [State.FaultRecordAgrees] using hw

/-- ADVANCE to an address in `0..AMOD`: `HALTED` with its record, or on in `RUN` mode, or done in `STEP` mode. -/
theorem Cleared.completeAs {s : State} (h : Cleared s) {target : Option Nat}
    (hp : target.getD (s.pc + 1) ≤ Config.amod) (halt : Bool) : Controlled (completeAs halt target s) where
  pc := by simpa using hp
  stop := by
    cases halt
    · cases hm : s.mode <;> simp [State.StopAgrees, hm, h.fsm, h.stop]
    · simp [State.StopAgrees]
  haltRecord := by
    cases halt
    · cases hm : s.mode <;> simp [State.HaltRecordAgrees, hm, h.fsm, h.haltAddr]
    · simp [State.HaltRecordAgrees]
  faultRecord := by
    cases halt
    · cases hm : s.mode <;>
        simp [State.FaultRecordAgrees, hm, h.fsm, h.faultKind, h.faultPc, h.faultWord]
    · simp [State.FaultRecordAgrees, h.faultKind, h.faultPc, h.faultWord]

theorem Cleared.otherEnds {halt : Bool} {s u : State} (h : Cleared s) (hp : s.pc < Config.amod)
    (hO : OtherEnds halt s u) : Controlled u := by
  cases hO with
  | completed target hE hx =>
    refine (h.executed hE).completeAs ?_ halt
    rw [hE.pc_eq]
    cases target with
    | none => exact hp
    | some x => exact (hx x rfl).le
  | faulted kind _ hD => exact (h.deviceOnly hD).raise (hD.pc_eq ▸ hp.le) (.inl rfl)

theorem Controlled.cycleEnds {s u : State} (h : Controlled s) (hr : s.fsm = .running)
    (hN : s.cfg.memWords ≤ Config.amod) (hc : CycleEnds s u) : Controlled u := by
  have hs : Cleared s := h.cleared hr
  have hf : Cleared (fetched s) := ⟨hs.fsm, hs.stop, hs.haltAddr, hs.faultKind, hs.faultPc, hs.faultWord⟩
  rcases hc.cases_operation with ⟨why, hw, rfl⟩ | ⟨hpc, rfl⟩ | rfl | ⟨hpc, halt, hO⟩
  · exact hs.suspend h.pc hw
  · exact hs.raise h.pc (.inr ⟨rfl, rfl, hpc⟩)
  · exact hf.raise h.pc (.inl rfl)
  · exact hf.otherEnds (hpc.trans_le hN) hO

theorem Controlled.accept {s : State} (h : Controlled s) (e : HostEvent) : Controlled (accept e s) := by
  rcases accept_cases e s with ⟨-, hk⟩ | ⟨-, he⟩ | ⟨a, -, he⟩ | ⟨-, he⟩
  · exact h.kept hk
  · rw [he]
    exact ⟨by simp, by simp [State.StopAgrees], by simp [State.HaltRecordAgrees],
      by simp [State.FaultRecordAgrees]⟩
  · rw [he]
    exact Cleared.controlled ⟨rfl, rfl, rfl, rfl, rfl, rfl⟩ a.isLt.le
  · rw [he]
    exact Cleared.controlled ⟨rfl, rfl, rfl, rfl, rfl, rfl⟩ h.pc

/-- Each of the four things a step can have been keeps `PC`, `STOP` and the records as they should be. -/
theorem Controlled.step {s s' : State} (h : Controlled s) (hN : s.cfg.memWords ≤ Config.amod)
    (hs : step s = .next s') : Controlled s' := by
  have schedule : ∀ rest l, Controlled { s with host := rest, waiting := l } := fun _ _ => h.kept rfl
  rcases step_inv hs with ⟨-, r, l, -, rfl⟩ | ⟨e, rest, -, rfl⟩ | ⟨hr, rest, -, hc⟩ | ⟨-, -, rest, -, rfl⟩
  · exact (schedule s.host l).kept (controlKept_serveMem r _)
  · exact (schedule rest s.waiting).accept e
  · exact (schedule rest s.waiting).cycleEnds hr hN hc
  · exact schedule rest s.waiting

/-! ### The invariant -/

theorem good_iff {s : State} : s.Good ↔
    Params.Legal s.cfg ∧ Controlled s ∧ Canonical s ∧ s.slots.length ≤ Config.amod := by
  constructor
  · rintro ⟨hl, hp, hs, hh, hf, hw, hi, hb, hn⟩
    exact ⟨hl, ⟨hp, hs, hh, hf⟩, ⟨hw, hi, hb⟩, hn⟩
  · rintro ⟨hl, ⟨hp, hs, hh, hf⟩, ⟨hw, hi, hb⟩, hn⟩
    exact ⟨hl, hp, hs, hh, hf, hw, hi, hb, hn⟩

/-- Settles O25: the parameters and the number of slots by `step_sameParams`, the control state by
`Controlled.step`, which needs `MEM_WORDS <= AMOD`, and the canonical forms by `Canonical.step`. -/
theorem everyStepKeepsTheInvariant : Obligations.EveryStepKeepsTheInvariant := by
  intro s s' hg hs
  obtain ⟨hl, hc, hd, hn⟩ := good_iff.mp hg
  obtain ⟨hcfg, hslots⟩ := step_sameParams hs
  have ⟨⟨⟨_, hN⟩, _⟩, _⟩ := hl
  exact good_iff.mpr ⟨hcfg ▸ hl, hc.step hN hs, hd.step hs, hslots ▸ hn⟩

/-! ### `ICOUNT` -/

/-- A cycle of a running machine with no stop on record: it is stopped before the instruction completes and
`ICOUNT` stays, or the instruction completes and is counted (10_state R26; 40_dispatch_fsm R116). -/
theorem CycleEnds.icount_cases {s u : State} (hs : s.stop = .none) (h : CycleEnds s u) :
    ((u.stop = .fault ∨ u.stop = .breakpoint ∨ u.stop = .cancelled) ∧ u.icount = s.icount) ∨
    ((u.stop = .none ∨ u.stop = .stepDone ∨ u.stop = .halt) ∧ u.icount = s.icount + 1) := by
  rcases h.cases_operation with ⟨why, hw, rfl⟩ | ⟨-, rfl⟩ | rfl | ⟨-, halt, hO⟩
  · exact .inl ⟨.inr hw.symm, rfl⟩
  · exact .inl ⟨.inl rfl, rfl⟩
  · exact .inl ⟨.inl rfl, rfl⟩
  · cases hO with
    | completed target hE _ =>
      refine .inr ⟨?_, by rw [completeAs_icount, hE.icount_eq]; rfl⟩
      have ht : _ = Stop.none := hE.stop_eq.trans hs
      rw [completeAs_stop, ht]
      split_ifs
      · exact .inr (.inr rfl)
      · exact .inr (.inl rfl)
      · exact .inl rfl
    | faulted kind _ hD => exact .inl ⟨.inl rfl, hD.icount_eq⟩

theorem ControlKept.icount_eq {s t : State} (h : ControlKept s t) : t.icount = s.icount :=
  (congrArg State.icount h :)

/-- Of the events of the host only a Reset changes `ICOUNT`. -/
theorem accept_icount (e : HostEvent) (s : State) :
    (e = .reset → (accept e s).icount = 0) ∧ (e ≠ .reset → (accept e s).icount = s.icount) := by
  rcases accept_cases e s with ⟨hne, hk⟩ | ⟨rfl, he⟩ | ⟨a, rfl, he⟩ | ⟨rfl, he⟩
  · exact ⟨fun h => absurd h hne, fun _ => hk.icount_eq⟩
  · exact ⟨fun _ => he ▸ rfl, fun h => absurd rfl h⟩
  · exact ⟨nofun, fun _ => he ▸ rfl⟩
  · exact ⟨nofun, fun _ => he ▸ rfl⟩

/-- A step of a running machine with no request is a cycle, and ends as a cycle does. -/
theorem cycleEnds_of_step {s s' : State} {rest : List (Option HostEvent)} (hr : s.fsm = .running)
    (hn : s.NoRequest rest) (h : step s = .next s') : CycleEnds { s with host := rest } s' := by
  obtain ⟨u, hu, hc⟩ := cycle_ends { s with host := rest }
  rw [step_of_running hr hn, hu] at h
  injection h with h
  exact h ▸ hc

/-- Settles O21: a cycle by `CycleEnds.icount_cases`, an event of the host by `accept_icount`; what else a step
can be, serving memory or waiting, leaves the control state. -/
theorem icountCountsCompletedInstructions : Obligations.IcountCountsCompletedInstructions := by
  rintro s s' ⟨-, -, hstop⟩ h
  refine ⟨fun rest hr hn => ?_, fun e rest ht => ?_, fun hr hnot => ?_⟩
  · have hc := cycleEnds_of_step hr hn h
    rcases CycleEnds.icount_cases (s := { s with host := rest }) (hstop hr) hc with ⟨hs, hi⟩ | ⟨hs, hi⟩
    · refine ⟨fun _ => hi, fun hs' => ?_⟩
      rcases hs with e | e | e <;> simp [e] at hs'
    · refine ⟨fun hs' => ?_, fun _ => hi⟩
      rcases hs with e | e | e <;> simp [e] at hs'
  · rw [step_of_takes ht] at h
    injection h with h
    exact h ▸ accept_icount e { s with host := rest }
  · rcases step_inv h with ⟨-, r, l, -, rfl⟩ | ⟨e, rest, ht, -⟩ | ⟨hr', -⟩ | ⟨-, -, rest, -, rfl⟩
    · exact (controlKept_serveMem r { s with waiting := l }).icount_eq
    · exact absurd ht (hnot e rest)
    · exact absurd hr' hr
    · rfl

/-! ### Who writes what -/

/-- `t`, which `s` has become by the end of the operation `o`, differs from it in `A`, `B`, memory, the devices and
the course of `PC` only where `o` is named for it (10_state R21, R22, R24, R34; 44_io R190). -/
structure NamedWrites (o : Operation) (s t : State) : Prop where
  a : o ∉ [.lda, .xab, .add, .sub, .mul, .inp] → t.a = s.a
  b : o ∉ [.ldb, .xab, .mul] → t.b = s.b
  mem : o ∉ [.sta, .stb] → t.mem = s.mem
  devices : o ∉ [.inp, .out, .prt] → t.slots = s.slots ∧ t.devOps = s.devOps
  pc : o ∉ [.jmp, .jaz, .jan] → t.fsm ≠ .faulted → t.pc = s.pc + 1

/-- Registers written, and ADVANCE. -/
theorem namedWrites_registers {o : Operation} {s : State} {v w : Word}
    (ha : o ∈ [.lda, .xab, .add, .sub, .mul, .inp] ∨ v = s.a) (hb : o ∈ [.ldb, .xab, .mul] ∨ w = s.b) :
    NamedWrites o s (complete { s with a := v, b := w }) :=
  ⟨ha.resolve_left, hb.resolve_left, fun _ => rfl, fun _ => ⟨rfl, rfl⟩, fun _ _ => rfl⟩

/-- A fault before any device operation. -/
theorem namedWrites_fault (o : Operation) (kind : FaultKind) (s : State) :
    NamedWrites o s (raiseExec kind s) :=
  ⟨fun _ => rfl, fun _ => rfl, fun _ => rfl, fun _ => ⟨rfl, rfl⟩, fun _ hf => absurd rfl hf⟩

theorem namedWrites_withOperand {o : Operation} (x : Nat) {s : State} {f g : Word → Word}
    (ha : o ∈ [.lda, .xab, .add, .sub, .mul, .inp] ∨ ∀ v, f v = s.a)
    (hb : o ∈ [.ldb, .xab, .mul] ∨ ∀ v, g v = s.b) :
    NamedWrites o s (withOperand x s fun v => complete { s with a := f v, b := g v }) := by
  rcases withOperand_cases x s fun v => complete { s with a := f v, b := g v } with ⟨-, e⟩ | ⟨-, e⟩ <;>
    rw [e]
  · exact namedWrites_registers (ha.imp_right (· _)) (hb.imp_right (· _))
  · exact namedWrites_fault o _ s

theorem namedWrites_storeOperand {o : Operation} (x : Nat) (v : Word) (s : State)
    (ho : o ∈ [.sta, .stb]) : NamedWrites o s (storeOperand x v s complete) := by
  rcases storeOperand_cases x v s complete with ⟨-, e⟩ | ⟨-, e⟩ <;> rw [e]
  · exact ⟨fun _ => rfl, fun _ => rfl, fun h => absurd ho h, fun _ => ⟨rfl, rfl⟩, fun _ _ => rfl⟩
  · exact namedWrites_fault o _ s

theorem namedWrites_branch {o : Operation} (taken : Bool) (x : Nat) (s : State)
    (ho : o ∈ [.jmp, .jaz, .jan]) : NamedWrites o s (branch taken x s) := by
  cases taken <;>
    exact ⟨fun _ => rfl, fun _ => rfl, fun _ => rfl, fun _ => ⟨rfl, rfl⟩, fun h => absurd ho h⟩

/-- Device operations, then `A` written or not, and ADVANCE. -/
theorem namedWrites_device {o : Operation} {s t : State} {v : Word} (h : DeviceOnly s t)
    (ho : o ∈ [.inp, .out, .prt]) (ha : o ∈ [.lda, .xab, .add, .sub, .mul, .inp] ∨ v = t.a) :
    NamedWrites o s (complete { t with a := v }) :=
  ⟨fun hn => (ha.resolve_left hn).trans h.a_eq, fun _ => h.b_eq, fun _ => h.mem_eq, fun hn => absurd ho hn,
    fun _ _ => congrArg (· + 1) h.pc_eq⟩

/-- Device operations, and a fault. -/
theorem namedWrites_deviceFault {o : Operation} {s t : State} (kind : FaultKind) (h : DeviceOnly s t)
    (ho : o ∈ [.inp, .out, .prt]) : NamedWrites o s (raiseExec kind t) :=
  ⟨fun _ => h.a_eq, fun _ => h.b_eq, fun _ => h.mem_eq, fun hn => absurd ho hn, fun _ hf => absurd rfl hf⟩

theorem exec_namedWrites (i : Instr) (s : State) :
    ∃ t, exec i s = .next t ∧ NamedWrites i.operation s t := by
  cases i with
  | hlt x =>
    exact ⟨_, rfl, fun _ => rfl, fun _ => rfl, fun _ => rfl, fun _ => ⟨rfl, rfl⟩, fun _ _ => rfl⟩
  | nop x => exact ⟨_, rfl, namedWrites_registers (.inr rfl) (.inr rfl)⟩
  | lda x =>
    exact ⟨_, rfl, namedWrites_withOperand x (o := .lda) (f := id) (.inl (by decide)) (.inr fun _ => rfl)⟩
  | ldb x =>
    exact ⟨_, rfl, namedWrites_withOperand x (o := .ldb) (g := id) (.inr fun _ => rfl) (.inl (by decide))⟩
  | sta x => exact ⟨_, rfl, namedWrites_storeOperand x (o := .sta) s.a s (by decide)⟩
  | stb x => exact ⟨_, rfl, namedWrites_storeOperand x (o := .stb) s.b s (by decide)⟩
  | xab x => exact ⟨_, rfl, namedWrites_registers (o := .xab) (.inl (by decide)) (.inl (by decide))⟩
  | add x => exact ⟨_, rfl, namedWrites_withOperand x (o := .add) (.inl (by decide)) (.inr fun _ => rfl)⟩
  | sub x => exact ⟨_, rfl, namedWrites_withOperand x (o := .sub) (.inl (by decide)) (.inr fun _ => rfl)⟩
  | mul x => exact ⟨_, rfl, namedWrites_withOperand x (o := .mul) (.inl (by decide)) (.inl (by decide))⟩
  | jmp x => exact ⟨_, rfl, namedWrites_branch (o := .jmp) true x s (by decide)⟩
  | jaz x => exact ⟨_, rfl, namedWrites_branch (o := .jaz) _ x s (by decide)⟩
  | jan x => exact ⟨_, rfl, namedWrites_branch (o := .jan) _ x s (by decide)⟩
  | inp x =>
    refine ⟨_, rfl, ?_⟩
    rcases inputWord_cases (slotNumber x) s with ⟨v, t, ht, e⟩ | ⟨t, ht, e⟩ <;> rw [e]
    · exact namedWrites_device (o := .inp) ht (by decide) (.inl (by decide))
    · exact namedWrites_deviceFault (o := .inp) _ ht (by decide)
  | out x =>
    refine ⟨_, rfl, ?_⟩
    rcases outputWord_cases (slotNumber x) s with ⟨t, ht, e⟩ | ⟨t, ht, e⟩ <;> rw [e]
    · exact namedWrites_device (o := .out) ht (by decide) (.inr rfl)
    · exact namedWrites_deviceFault (o := .out) _ ht (by decide)
  | prt x =>
    refine ⟨_, rfl, ?_⟩
    split_ifs
    · obtain ⟨t, ht, e | e | e⟩ := printFrom_cases (s.cfg.memWords - effectiveAddress x)
        (effectiveAddress x) s <;> rw [printText, e]
      · exact namedWrites_device (o := .prt) ht (by decide) (.inr rfl)
      · exact namedWrites_deviceFault (o := .prt) _ ht (by decide)
      · exact namedWrites_deviceFault (o := .prt) _ ht (by decide)
    · exact namedWrites_fault _ _ s

/-- What no instruction writes: the parameters, `IR`, `MODE`, and the host's inputs, schedule and answers but for
the endpoints' scripts (10_state R44). -/
structure ExecFrame (s t : State) : Prop where
  cfg : t.cfg = s.cfg
  ir : t.ir = s.ir
  mode : t.mode = s.mode
  breakpoints : t.breakpoints = s.breakpoints
  traceEn : t.traceEn = s.traceEn
  cancel : t.cancel = s.cancel
  host : t.host = s.host
  waiting : t.waiting = s.waiting
  replies : t.replies = s.replies

theorem ExecFrame.trans {s t u : State} (h : ExecFrame s t) (k : ExecFrame t u) : ExecFrame s u :=
  ⟨k.cfg.trans h.cfg, k.ir.trans h.ir, k.mode.trans h.mode, k.breakpoints.trans h.breakpoints,
    k.traceEn.trans h.traceEn, k.cancel.trans h.cancel, k.host.trans h.host, k.waiting.trans h.waiting,
    k.replies.trans h.replies⟩

theorem Executed.execFrame {s t : State} (h : Executed s t) : ExecFrame s t :=
  ⟨h.cfg_eq, h.ir_eq, h.mode_eq, h.breakpoints_eq, h.traceEn_eq, h.cancel_eq, h.host_eq, h.waiting_eq,
    h.replies_eq⟩

theorem Completes.execFrame {i : Instr} {s t : State} (h : Completes i s t) : ExecFrame s t := by
  cases h <;> exact ⟨rfl, rfl, rfl, rfl, rfl, rfl, rfl, rfl, rfl⟩

theorem ExecEnds.execFrame {i : Instr} {s t : State} (h : ExecEnds i s t) : ExecFrame s t := by
  cases h with
  | completed hE hC => exact hE.execFrame.trans hC.execFrame
  | @faulted t kind _ hD =>
    exact (hD.executed t.a t.b).execFrame.trans ⟨rfl, rfl, rfl, rfl, rfl, rfl, rfl, rfl, rfl⟩

/-- Only the halt operation writes the halt record. -/
theorem ExecEnds.haltAddr_eq {i : Instr} {s t : State} (h : ExecEnds i s t) (hi : i.operation ≠ .hlt) :
    t.haltAddr = s.haltAddr := by
  cases h with
  | completed hE hC =>
    cases hC with
    | next _ => exact hE.haltAddr_eq
    | jumped _ => exact hE.haltAddr_eq
    | halted hh => exact absurd hh hi
  | faulted kind _ hD => exact hD.haltAddr_eq

/-- An instruction that does not fault leaves the fault record. -/
theorem ExecEnds.faultRecord_eq {i : Instr} {s t : State} (h : ExecEnds i s t) (hf : t.fsm ≠ .faulted) :
    t.faultKind = s.faultKind ∧ t.faultPc = s.faultPc ∧ t.faultWord = s.faultWord := by
  cases h with
  | completed hE hC => cases hC <;> exact ⟨hE.faultKind_eq, hE.faultPc_eq, hE.faultWord_eq⟩
  | faulted kind _ _ => exact absurd rfl hf

/-- Settles O23: what an instruction may write by `exec_namedWrites`, one case for each instruction, and what none
writes by `exec_ends`, from the contract of 30_encoding R75. -/
theorem onlyTheNamedInstructionsWrite : Obligations.OnlyTheNamedInstructionsWrite := by
  intro i s t h
  obtain ⟨u, hu, hw⟩ := exec_namedWrites i s
  obtain ⟨v, hv, he⟩ := exec_ends i s
  obtain rfl : t = u := Host.Outcome.next.inj (h.symm.trans hu)
  obtain rfl : t = v := Host.Outcome.next.inj (h.symm.trans hv)
  have hF := he.execFrame
  exact ⟨hw.a, hw.b, fun hm x => by rw [hw.mem hm], hw.devices, he.haltAddr_eq, hw.pc, he.faultRecord_eq,
    hF.cfg, hF.ir, hF.mode, hF.breakpoints, hF.traceEn, hF.cancel, hF.host, hF.waiting, hF.replies⟩

end Sys2Proof.Machine

/-! The statements of spec/20_memory.md: memory access, the host's memory port, and what the fetch after a store
reads. -/

namespace Sys2Proof.Machine

open Sys2Proof

/-! ### Memory access -/

theorem memRead_of_lt {s : State} {x : Nat} (h : x < s.cfg.memWords) : memRead s x = .ok (s.mem.read x) :=
  if_pos h

theorem memRead_of_ge {s : State} {x : Nat} (h : s.cfg.memWords ≤ x) : memRead s x = .addressFault x :=
  if_neg h.not_gt

theorem memWrite_of_lt {s : State} {x : Nat} (h : x < s.cfg.memWords) (v : Word) :
    memWrite s x v = .ok { s with mem := s.mem.write x v } :=
  if_pos h

theorem memWrite_of_ge {s : State} {x : Nat} (h : s.cfg.memWords ≤ x) (v : Word) :
    memWrite s x v = .addressFault x :=
  if_neg h.not_gt

@[simp] theorem Memory.read_write_same (m : Memory) (k : Nat) (v : Word) : (m.write k v).read k = v := by
  rw [Memory.read_write, if_pos rfl]

theorem Memory.read_write_of_ne (m : Memory) {x k : Nat} (v : Word) (h : x ≠ k) :
    (m.write k v).read x = m.read x := by
  rw [Memory.read_write, if_neg h]

/-- Settles O9. -/
theorem memReadReturnsTheWordOrFaults : Obligations.MemReadReturnsTheWordOrFaults :=
  fun _ _ => ⟨memRead_of_lt, memRead_of_ge⟩

/-- Settles O10: the memory is that of `Memory.write`, and its cells are those of `Memory.read_write`. -/
theorem memWriteChangesOneCell : Obligations.MemWriteChangesOneCell := fun s addr v =>
  ⟨fun h => ⟨s.mem.write addr v, memWrite_of_lt h v, s.mem.read_write_same addr v,
    fun _ => s.mem.read_write_of_ne v⟩, fun h => memWrite_of_ge h v⟩

/-! ### A bulk load, cell by cell -/

theorem Memory.read_writeAll_of_getElem? (m : Memory) (start : Nat) {ws : List Word} {i : Nat} {w : Word}
    (h : ws[i]? = some w) : (m.writeAll start ws).read (start + i) = w := by
  obtain ⟨hi, -⟩ := List.getElem?_eq_some_iff.mp h
  rw [Memory.read_writeAll, if_pos ⟨by omega, by omega⟩, Nat.add_sub_cancel_left,
    List.getD_eq_getElem?_getD, h, Option.getD_some]

theorem Memory.read_writeAll_of_outside (m : Memory) {start x : Nat} {ws : List Word}
    (h : x < start ∨ start + ws.length ≤ x) : (m.writeAll start ws).read x = m.read x := by
  rw [Memory.read_writeAll, if_neg (by omega)]

/-! ### What serving each request answers -/

theorem serveMem_deposit_of_lt {s : State} {x : Nat} {v : Word} (h : x < s.cfg.memWords) :
    serveMem (.deposit x v) s = reply .done { s with mem := s.mem.write x v } := by
  simp only [serveMem, memWrite_of_lt h]

theorem serveMem_deposit_of_ge {s : State} {x : Nat} {v : Word} (h : s.cfg.memWords ≤ x) :
    serveMem (.deposit x v) s = reply (.addressFault (some x)) s := by
  simp only [serveMem, memWrite_of_ge h]

theorem serveMem_examine_of_lt {s : State} {x : Nat} (h : x < s.cfg.memWords) :
    serveMem (.examine x) s = reply (.word (s.mem.read x)) s := by
  simp only [serveMem, memRead_of_lt h]

theorem serveMem_examine_of_ge {s : State} {x : Nat} (h : s.cfg.memWords ≤ x) :
    serveMem (.examine x) s = reply (.addressFault (some x)) s := by
  simp only [serveMem, memRead_of_ge h]

theorem serveMem_bulkLoad_of_le {s : State} {x : Nat} {ws : List Word} (h : x + ws.length ≤ s.cfg.memWords) :
    serveMem (.bulkLoad x ws) s = reply .done { s with mem := s.mem.writeAll x ws } :=
  if_pos h

theorem serveMem_bulkLoad_of_gt {s : State} {x : Nat} {ws : List Word} (h : s.cfg.memWords < x + ws.length) :
    serveMem (.bulkLoad x ws) s = reply (.addressFault none) s :=
  if_neg h.not_ge

/-! ### The step that takes a memory request, and the one that serves what waited -/

/-- A step of a running machine that takes a memory request leaves it waiting for the port (20_memory R57). -/
theorem step_of_mem_running {s : State} {r : MemRequest} {rest : List (Option HostEvent)}
    (hr : s.fsm = .running) (hh : s.host = some (.mem r) :: rest) :
    step s = .next { s with host := rest, waiting := s.waiting ++ [r] } := by
  have hp : portOwner { s with host := rest } = .fsm := if_pos hr
  rw [step_of_takes ⟨hh, .inl hr⟩, accept, hp]

/-- A step that takes a memory request while the host owns the port serves it (20_memory R57). -/
theorem step_of_mem_served {s t : State} {r : MemRequest} {rest : List (Option HostEvent)}
    (hr : s.fsm ≠ .running) (ht : s.Takes (.mem r) rest) (h : serveMem r { s with host := rest } = t) :
    step s = .next t := by
  have hp : portOwner { s with host := rest } = .host := if_neg hr
  rw [step_of_takes ht, accept, hp, ← h]

/-- Once the host owns the port, a step serves the request that waits first (93_implementation_defined Q2). -/
theorem step_of_waiting {s : State} {r : MemRequest} {rest : List MemRequest}
    (hr : s.fsm ≠ .running) (hw : s.waiting = r :: rest) :
    step s = .next (serveMem r { s with waiting := rest }) := by
  have hp : portOwner s = .host := if_neg hr
  rw [step, transition, hp, hw]

/-- Settles O14. -/
theorem hostMemoryRequestsWaitForThePort : Obligations.HostMemoryRequestsWaitForThePort :=
  fun _ _ => ⟨fun _ => step_of_mem_running, fun _ => step_of_waiting⟩

/-- Settles O12: the step serves the request or leaves it waiting, and the cells of the memory it leaves are those
of `Memory.read_writeAll`. -/
theorem bulkLoadIsAllOrNothing : Obligations.BulkLoadIsAllOrNothing := by
  intro s start words rest ht
  refine ⟨fun hr hle => ⟨s.mem.writeAll start words, ?_, ?_, ?_⟩, fun hr hgt => ?_, fun hr => ?_⟩
  · exact step_of_mem_served hr ht (serveMem_bulkLoad_of_le hle)
  · exact fun _ _ => s.mem.read_writeAll_of_getElem? start
  · exact fun _ => s.mem.read_writeAll_of_outside
  · exact step_of_mem_served hr ht (serveMem_bulkLoad_of_gt hgt)
  · exact step_of_mem_running hr ht.1

/-- Settles O13: the step serves the request or leaves it waiting, and serving it is `MemWrite` or `MemRead`. -/
theorem depositAndExamineServeTheHost : Obligations.DepositAndExamineServeTheHost := by
  intro s addr v rest
  constructor
  · intro ht
    refine ⟨fun hr hlt => ⟨s.mem.write addr v, ?_, ?_, ?_⟩, fun hr hge => ?_, fun hr => ?_⟩
    · exact step_of_mem_served hr ht (serveMem_deposit_of_lt hlt)
    · exact s.mem.read_write_same addr v
    · exact fun _ => s.mem.read_write_of_ne v
    · exact step_of_mem_served hr ht (serveMem_deposit_of_ge hge)
    · exact step_of_mem_running hr ht.1
  · intro ht
    refine ⟨fun hr hlt => ?_, fun hr hge => ?_, fun hr => ?_⟩
    · exact step_of_mem_served hr ht (serveMem_examine_of_lt hlt)
    · exact step_of_mem_served hr ht (serveMem_examine_of_ge hge)
    · exact step_of_mem_running hr ht.1

/-! ### The fetch after a store -/

/-- A store to the Word after its own instruction completes, and the next fetch reads what it stored; `IR` still
holds the store itself (20_memory R63). -/
theorem fetch_after_store {s : State} {x : Nat} (hx : x < s.cfg.memWords) (hpc : s.pc + 1 = x) (v : Word) :
    fetch (storeOperand x v s complete) = .ok { storeOperand x v s complete with ir := v } ∧
    (storeOperand x v s complete).ir = s.ir := by
  subst hpc
  rw [storeOperand_of_lt hx]
  refine ⟨?_, rfl⟩
  have hread : memRead (complete { s with mem := s.mem.write (s.pc + 1) v }) (s.pc + 1) = .ok v := by
    rw [memRead_of_lt (by simpa using hx)]
    simp
  simp only [fetch, complete_pc, hread]

/-- Settles O24: `STA` and `STB` are the store of `fetch_after_store`, of `A` and of `B`. -/
theorem nextFetchSeesTheStore : Obligations.NextFetchSeesTheStore := by
  intro s t addr hlt hpc
  refine ⟨fun h => ?_, fun h => ?_⟩
  · obtain rfl : storeOperand addr s.a s complete = t := Host.Outcome.next.inj h
    exact fetch_after_store hlt hpc s.a
  · obtain rfl : storeOperand addr s.b s complete = t := Host.Outcome.next.inj h
    exact fetch_after_store hlt hpc s.b

end Sys2Proof.Machine

/-! The statements of spec/30_encoding.md about Words: the operation table as a partial map, the fields, and
decoding and encoding as inverses of each other. -/

namespace Sys2Proof

/-! ### The operation table as a partial map -/

/-- A search finds the one entry of a list that it can find. -/
theorem find?_eq_some_of_unique {α : Type} {p : α → Bool} {l : List α} {r : α} (hr : r ∈ l) (hp : p r = true)
    (unique : ∀ q ∈ l, p q = true → q = r) : l.find? p = some r := by
  cases h : l.find? p with
  | none => exact absurd hp (List.find?_eq_none.mp h r hr)
  | some q => exact congrArg some (unique q (List.mem_of_find?_eq_some h) (List.find?_some h))

/-- In a partial map no two rows have the same pair `(OP, MOD)` (30_encoding R74). -/
theorem OpTable.WellFormed.row_unique {t : List OpRow} (ht : OpTable.WellFormed t) {r q : OpRow} (hr : r ∈ t)
    (hq : q ∈ t) (hop : q.op = r.op) (hmod : q.mod = r.mod) : q = r := by
  have hsymm : Std.Symm fun r q : OpRow => ¬ (r.op = q.op ∧ r.mod = q.mod) :=
    ⟨fun _ _ h e => h ⟨e.1.symm, e.2.symm⟩⟩
  by_contra hne
  exact ht.2.forall hq hr hne ⟨hop, hmod⟩

/-- Looking up a partial map gives the entry of its row for the pair, and only that (30_encoding R74). -/
theorem lookupOp_eq_some_iff {t : List OpRow} (ht : OpTable.WellFormed t) {op mod : Nat} {e : Entry} :
    lookupOp t op mod = some e ↔ ⟨op, mod, e⟩ ∈ t := by
  unfold lookupOp
  constructor
  · intro h
    obtain ⟨r, hr, rfl⟩ := Option.map_eq_some_iff.mp h
    have key := List.find?_some hr
    simp only [Bool.and_eq_true, beq_iff_eq] at key
    obtain ⟨rfl, rfl⟩ := key
    exact List.mem_of_find?_eq_some hr
  · intro h
    rw [find?_eq_some_of_unique h (by simp)]
    · rfl
    · intro q hq key
      simp only [Bool.and_eq_true, beq_iff_eq] at key
      exact ht.row_unique h hq key.1 key.2

/-- Each operation has one row in the reference table (30_encoding R78). -/
theorem refTable_entry_unique : ∀ r ∈ refTable, ∀ q ∈ refTable, q.entry = r.entry → q = r := by decide

/-- Every operation has a row in the reference table (30_encoding R78). -/
theorem refTable_has_row (o : Operation) : ∃ r ∈ refTable, r.entry = .ref o := by
  cases o <;> decide

/-- The reference table has no operation outside the reference set (30_encoding R78). -/
theorem refTable_entry_ref : ∀ r ∈ refTable, ∃ o, r.entry = .ref o := by
  simp [refTable]

/-! ### The fields of a Word -/

/-- No digit of a Word stands above `OP` (30_encoding R71). -/
theorem opField_eq_div (w : Word) : opField w = w.val.natAbs / 1000000 := by
  have hlt : w.val.natAbs < 100000000 := w.mag_lt
  have h : opField w = w.val.natAbs / 1000000 % 100 := opField_eq w
  omega

/-- Settles O4: what the fields are, that they are all the digits (`Word.mag_eq_assemble`), and what
`decodeWith_instr_iff` and `decodeWith_other_iff` say of a Word that decodes. -/
theorem fieldsOfAnInstructionWord : Obligations.FieldsOfAnInstructionWord := by
  intro w
  refine ⟨opField_eq_div w, Nat.le_of_lt_succ (opField_lt w), modField_eq w, Nat.le_of_lt_succ (modField_lt w),
    addrField_eq w, Nat.le_of_lt_succ (addrField_lt w), w.mag_eq_assemble, fun t i h => ?_, fun t n halt x h => ?_⟩
  · obtain ⟨hsign, -, haddr⟩ := decodeWith_instr_iff.mp h
    exact ⟨hsign, haddr⟩
  · obtain ⟨hsign, -, haddr⟩ := decodeWith_other_iff.mp h
    exact ⟨hsign, haddr⟩

/-! ### Decoding inverts encoding -/

/-- Settles O1: the Word of an instruction has the fields of a row of the table and of the instruction, and
looking those up gives that row back. -/
theorem decodeInvertsEncode : Obligations.DecodeInvertsEncode := by
  intro t i w ht h
  obtain ⟨hi, r, hr, hv⟩ := encodeWith_eq_some.mp h
  have hmem : r ∈ t := List.mem_of_find?_eq_some hr
  have hentry : r.entry = .ref i.operation := eq_of_beq (List.find?_some hr :)
  obtain ⟨hop, hmod⟩ := ht.1 r hmem
  have hmag : w.mag = assemble r.op r.mod i.addr := by rw [Word.mag, hv, Int.natAbs_natCast]
  obtain ⟨eop, emod, eaddr⟩ := fields_of_mag hop hmod hi hmag
  refine decodeWith_instr_iff.mpr ⟨by omega, ?_, eaddr.symm⟩
  rw [eop, emod, lookupOp_eq_some_iff ht, ← hentry]
  exact hmem

/-- Settles O3: the instruction's row gives its Word, and by `decodeInvertsEncode` the Word decodes to it. -/
theorem wellFormedInstructionsEncode : Obligations.WellFormedInstructionsEncode := by
  intro i
  refine ⟨fun hi => ?_, fun hi => if_neg hi⟩
  obtain ⟨r, hr, hentry⟩ := refTable_has_row i.operation
  obtain ⟨hop, hmod⟩ := refTable_wellFormed.1 r hr
  obtain ⟨w, -, hv⟩ := Word.ofInt?_assemble hop hmod hi
  have hfind : refTable.find? (fun r => r.entry == .ref i.operation) = some r :=
    find?_eq_some_of_unique hr (beq_iff_eq.mpr hentry) fun q hq h =>
      refTable_entry_unique r hr q hq ((eq_of_beq h).trans hentry.symm)
  have hw : encode i = some w := encodeWith_eq_some.mpr ⟨hi, r, hfind, hv⟩
  exact ⟨w, hw, decodeInvertsEncode refTable i w refTable_wellFormed hw⟩

/-! ### Encoding inverts decoding -/

/-- Settles O2: the row a Word was decoded by is the one row for its operation, and the Word is its own three
fields put together (`Word.mag_eq_assemble`). -/
theorem encodeInvertsDecode : Obligations.EncodeInvertsDecode := by
  intro w i h
  obtain ⟨hsign, hlookup, haddr⟩ := decodeWith_instr_iff.mp h
  have hrow := (lookupOp_eq_some_iff refTable_wellFormed).mp hlookup
  have hfind : refTable.find? (fun r => r.entry == .ref i.operation) =
      some ⟨opField w, modField w, .ref i.operation⟩ :=
    find?_eq_some_of_unique hrow (beq_self_eq_true _) fun q hq hq' =>
      refTable_entry_unique _ hrow q hq (eq_of_beq hq')
  have hval : w.val = (assemble (opField w) (modField w) i.addr : Nat) := by
    rw [haddr, ← w.mag_eq_assemble, Word.mag, Int.natAbs_of_nonneg hsign]
  have hi : i.WellFormed := wellFormed_of_decode h
  exact ⟨hi, encodeWith_eq_some.mpr ⟨hi, _, hfind, hval⟩⟩

/-! ### The legal Words -/

/-- Under the reference table a Word decodes iff it is not negative and some row has its `(OP, MOD)`
(30_encoding R74, R78). -/
theorem decode_legal_iff_row (w : Word) :
    (∃ i, decode w = .instr i) ↔ 0 ≤ w.val ∧ ∃ r ∈ refTable, (r.op, r.mod) = (opField w, modField w) := by
  constructor
  · rintro ⟨i, h⟩
    obtain ⟨hsign, hlookup, -⟩ := decodeWith_instr_iff.mp h
    exact ⟨hsign, _, (lookupOp_eq_some_iff refTable_wellFormed).mp hlookup, rfl⟩
  · rintro ⟨hsign, ⟨op, mod, e⟩, hr, hpair⟩
    obtain ⟨o, rfl⟩ : ∃ o, e = .ref o := refTable_entry_ref _ hr
    obtain ⟨rfl, rfl⟩ := Prod.mk.inj hpair
    refine ⟨o.instr (addrField w), decodeWith_instr_iff.mpr ⟨hsign, ?_, o.instr_addr _⟩⟩
    rw [o.instr_operation, lookupOp_eq_some_iff refTable_wellFormed]
    exact hr

/-- Settles O5: the sixteen pairs are those of the reference table's rows. -/
theorem legalExactlyTheSixteenRows : Obligations.LegalExactlyTheSixteenRows := by
  intro w
  have hmod : w.val.natAbs / 10000 % 100 = modField w := (modField_eq w).symm
  rw [decode_legal_iff_row, ← opField_eq_div, hmod, ← List.mem_map]
  rfl

/-- Settles O6. -/
theorem sampleWordsDecode : Obligations.SampleWordsDecode := by
  unfold Obligations.SampleWordsDecode
  decide

/-- A negative Word decodes over no table (30_encoding R72). -/
theorem decodeWith_of_neg (t : List OpRow) {w : Word} (h : w.val < 0) : decodeWith t w = .reject .negative :=
  if_pos h

end Sys2Proof

/-! The statements of spec/30_encoding.md about the machine: the cycle of a Word that does not decode, the digits an
operation ignores, and the operation contract of 30_encoding R75. -/

namespace Sys2Proof.Machine

open Sys2Proof

/-! ### Negative Words, and ignored digits -/

/-- The cycle of a Word that does not decode is a `DecodeFault` (30_encoding R74; 60_exceptions R201). -/
theorem cycle_of_reject {s : State} {why : DecodeReject} (hc : check s = none) (h : s.pc < s.cfg.memWords)
    (hd : decodeWith s.cfg.optable (s.mem.read s.pc) = .reject why) :
    cycle s = .next (raise .decodeFault (some (s.mem.read s.pc)) (fetched s)) := by
  have hd' : decodeWith (fetched s).cfg.optable (fetched s).ir = .reject why := hd
  simp only [cycle, hc, fetch_of_lt h, decodeAndExecute, hd']
  rfl

/-- Settles O7: the step is a cycle that takes no stop in CHECK, and its Word does not decode. -/
theorem negativeWordsNeverDecode : Obligations.NegativeWordsNeverDecode := by
  refine ⟨fun t w => decodeWith_of_neg t, fun s rest hr hn hu hpc hneg => ?_, by decide⟩
  have hcheck : check { s with host := rest } = none := check_of_unchecked hu
  exact (step_of_running hr hn).trans (cycle_of_reject hcheck hpc (decodeWith_of_neg _ hneg))

/-- Settles O8: none of the three meanings takes `ADDR`. -/
theorem ignoredDigitsHaveNoEffect : Obligations.IgnoredDigitsHaveNoEffect :=
  fun _ _ _ => ⟨rfl, rfl, rfl⟩

/-! ### The parts of an operation outside the reference set -/

theorem endpointOf_of_bound {s : State} {n : Nat} {ep : Endpoint} (h : s.slots[n]? = some (some ep)) :
    endpointOf s n = some ep := congrArg Option.join h

theorem endpointOf_of_unbound {s : State} {n : Nat} (h : s.slots[n]? = none ∨ s.slots[n]? = some none) :
    endpointOf s n = none := by
  rcases h with h | h <;> exact congrArg Option.join h

theorem devBound_of_endpoint {s : State} {n : Nat} {ep : Endpoint} (h : endpointOf s n = some ep) :
    devBound s n = true := congrArg Option.isSome h

theorem devBound_of_no_endpoint {s : State} {n : Nat} (h : endpointOf s n = none) :
    devBound s n = false := congrArg Option.isSome h

theorem reachOther_memRead (x : Nat) (next : Word → OpAct) (s : State) :
    reachOther (.memRead x next) s =
      if x < s.cfg.memWords then reachOther (next (s.mem.read x)) s else .fault .addressFault s := by
  rw [reachOther]
  rcases memRead_cases s x with ⟨h, e⟩ | ⟨h, e⟩ <;> rw [e]
  · rw [if_pos h]
  · rw [if_neg h.not_gt]

/-- A device operation on a slot that is not bound is a `DeviceFault` (60_exceptions R202). -/
theorem reachOther_device_unbound {s : State} {n : Nat} (h : endpointOf s n = none) :
    (∀ next, reachOther (.devRead n next) s = .fault .deviceFault s) ∧
    (∀ v next, reachOther (.devWrite n v next) s = .fault .deviceFault s) ∧
    ∀ c next, reachOther (.devWriteChar n c next) s = .fault .deviceFault s := by
  have hb : ¬ devBound s n = true := by simp [devBound_of_no_endpoint h]
  exact ⟨fun _ => if_neg hb, fun _ _ => if_neg hb, fun _ _ => if_neg hb⟩

theorem reachOther_devRead_bound {s : State} {n : Nat} {ep : Endpoint} (h : endpointOf s n = some ep)
    (next : Option Word → OpAct) :
    reachOther (.devRead n next) s = reachOther (next (readAnswer s n ep))
      (recordOp n { ep with reads := ep.reads.tail } (.read n (readAnswer s n ep)) s) := by
  rw [reachOther, if_pos (devBound_of_endpoint h), devRead_of_bound h]

theorem reachOther_devWrite_bound {s : State} {n : Nat} {ep : Endpoint} (h : endpointOf s n = some ep) (v : Int)
    (next : Bool → OpAct) :
    reachOther (.devWrite n v next) s = reachOther (next (writeAnswer s n ep))
      (recordOp n { ep with writes := ep.writes.tail }
        (.write n (ovf s.cfg.ovf v) (writeAnswer s n ep)) s) := by
  rw [reachOther, if_pos (devBound_of_endpoint h), devWrite_of_bound _ h]

theorem reachOther_devWriteChar_bound {s : State} {n : Nat} {ep : Endpoint} (h : endpointOf s n = some ep)
    (c : Fin (Config.radix ^ Config.charDigits)) (next : Bool → OpAct) :
    reachOther (.devWriteChar n c next) s = reachOther (next (writeAnswer s n ep))
      (recordOp n { ep with writes := ep.writes.tail } (.writeChar n c.val (writeAnswer s n ep)) s) := by
  rw [reachOther, if_pos (devBound_of_endpoint h), devWriteChar_of_bound _ h]

/-- Settles O31, by the equation of `reachOther` for each part of an operation. -/
theorem otherOperationsGoOnAsTheySay : Obligations.OtherOperationsGoOnAsTheySay := by
  intro s
  refine ⟨fun kind => ?_, fun r => rfl, fun x next => reachOther_memRead x next s, fun n next => rfl,
    fun n h => reachOther_device_unbound (endpointOf_of_unbound h), fun n ep h => ?_⟩
  · cases kind <;> rfl
  · have hep := endpointOf_of_bound h
    constructor
    · rintro answer next rfl
      exact reachOther_devRead_bound hep next
    · rintro ok rfl
      exact ⟨reachOther_devWrite_bound hep, reachOther_devWriteChar_bound hep⟩

/-! ### How the cycle of an operation outside the reference set ends -/

theorem performOther_of_fault {act : OpAct} {s t : State} {kind : FaultKind}
    (h : reachOther act s = .fault kind t) (halt : Bool) : performOther halt act s = raiseExec kind t := by
  rw [performOther, h]

theorem performOther_of_result {act : OpAct} {s t : State} {r : OpResult} (h : reachOther act s = .result r t)
    (halt : Bool) : performOther halt act s = finishOther halt r t := by
  rw [performOther, h]

/-- ADVANCE, in the terms of the statements: to the jump target or by one (40_dispatch_fsm R116), and to `HALTED`
or on (R117, R118). -/
theorem completeAs_eq (halt : Bool) (target : Option Nat) (s : State) :
    completeAs halt target s =
      if halt then s.haltedTo (target.getD (s.pc + 1)) else s.retiredTo (target.getD (s.pc + 1)) := by
  cases halt <;> rfl

/-- The memory after the result `r`: its store, if there is one, brought into range by `ovf`
(43_arithmetic R161). -/
def memoryAfter (policy : OvfPolicy) (r : OpResult) (m : Memory) : Memory :=
  match r.store with
  | none => m
  | some (x, v) => m.write x (ovf policy v)

theorem finishOther_of_store_past {r : OpResult} {s : State} {x : Nat} {v : Int} (h : r.store = some (x, v))
    (hx : s.cfg.memWords ≤ x) (halt : Bool) : finishOther halt r s = raiseExec .addressFault s := by
  simp only [finishOther, h, memWrite_of_ge hx]

theorem finishOther_of_store_within {r : OpResult} {s : State}
    (h : ∀ x v, r.store = some (x, v) → x < s.cfg.memWords) (halt : Bool) :
    finishOther halt r s = completeAs halt (r.target.map (·.val)) { s with
      a := ovf s.cfg.ovf r.a, b := ovf s.cfg.ovf r.b, mem := memoryAfter s.cfg.ovf r s.mem } := by
  unfold finishOther memoryAfter
  rcases hst : r.store with _ | ⟨x, v⟩
  · rfl
  · simp only [memWrite_of_lt (h x v hst)]

/-! ### The operation contract -/

/-- An operation yields no fault but the two of 30_encoding R75. -/
theorem kind_of_reached_fault {act : OpAct} {s t : State} {kind : FaultKind}
    (h : reachOther act s = .fault kind t) : kind = .addressFault ∨ kind = .deviceFault := by
  have hk : (Reached.fault kind t).FaultKindOk := h ▸ (reachOther_deviceOnly act s).2
  cases kind with
  | addressFault => exact .inl rfl
  | deviceFault => exact .inr rfl
  | decodeFault => exact absurd rfl hk

theorem deviceOnly_of_reached {act : OpAct} {s : State} {e : Reached} (h : reachOther act s = e) :
    DeviceOnly s e.state :=
  h ▸ (reachOther_deviceOnly act s).1

/-- A fault after device operations, in the terms of the statements: the Word on record is that of the cycle
(60_exceptions R207). -/
theorem DeviceOnly.raiseExec_eq {s t : State} (h : DeviceOnly s t) (kind : FaultKind) :
    raiseExec kind t = t.faultedWith kind (some s.ir) := by
  rw [← h.ir_eq]
  rfl

/-- What device operations leave, as the state before them with new slots and a longer record. -/
theorem DeviceOnly.exists_eq {s t : State} (h : DeviceOnly s t) :
    ∃ (slots : List (Option Endpoint)) (ops : List DevOp), slots.length = s.slots.length ∧
      t = { s with slots := slots, devOps := s.devOps ++ ops } := by
  obtain ⟨ops, hops⟩ := h.grows
  exact ⟨t.slots, ops, h.length, hops ▸ h.rest⟩

/-- The data of a state after device operations, under another control state. -/
theorem DeviceOnly.ctl_eq {s t : State} (h : DeviceOnly s t) (c : State) :
    ctl c t = { ctl c s with slots := t.slots, devOps := t.devOps } := by
  conv_lhs => rw [h.rest]
  rfl

/-- A result whose store, if there is one, is in memory completes the cycle. -/
theorem performOther_completes {act : OpAct} {s t : State} {r : OpResult} (hr : reachOther act s = .result r t)
    (h : ∀ x v, r.store = some (x, v) → x < s.cfg.memWords) (halt : Bool) :
    performOther halt act s = completeAs halt (r.target.map (·.val)) { t with
      a := ovf s.cfg.ovf r.a, b := ovf s.cfg.ovf r.b, mem := memoryAfter s.cfg.ovf r s.mem } := by
  have hd : DeviceOnly s t := deviceOnly_of_reached hr
  rw [performOther_of_result hr, finishOther_of_store_within (hd.cfg_eq ▸ h), hd.cfg_eq, hd.mem_eq]

/-- A result whose store is past memory faults. -/
theorem performOther_store_past {act : OpAct} {s t : State} {r : OpResult} (hr : reachOther act s = .result r t)
    {x : Nat} {v : Int} (h : r.store = some (x, v)) (hx : s.cfg.memWords ≤ x) (halt : Bool) :
    performOther halt act s = t.faultedWith .addressFault (some s.ir) := by
  have hd : DeviceOnly s t := deviceOnly_of_reached hr
  rw [performOther_of_result hr, finishOther_of_store_past h (hd.cfg_eq ▸ hx), hd.raiseExec_eq]

/-- Settles O32: following an operation is `DeviceOnly` and reads the data alone (`reachOther_ctl`), and its end is
a fault taken or a result taken. -/
theorem otherOperationsKeepTheContract : Obligations.OtherOperationsKeepTheContract := by
  intro act halt s
  refine ⟨fun kind t h => ⟨kind_of_reached_fault h, ?_⟩, fun r t h => ⟨fun x v hst hx => ?_, fun hin => ?_⟩,
    fun t h => ?_, ?_, fun n addr => rfl⟩
  · have hd : DeviceOnly s t := deviceOnly_of_reached h
    rw [performOther_of_fault h, hd.raiseExec_eq]
  · exact performOther_store_past h hst hx halt
  · have hd : DeviceOnly s t := deviceOnly_of_reached h
    refine ⟨memoryAfter s.cfg.ovf r s.mem, _, rfl, fun y => ?_, ?_⟩
    · unfold memoryAfter
      rcases r.store with _ | ⟨x, v⟩
      · rfl
      · exact Memory.read_write s.mem y x _
    · rw [performOther_completes h hin, completeAs_eq, ← hd.pc_eq]
  · have hd : DeviceOnly s t := by
      rcases h with ⟨kind, h⟩ | ⟨r, h⟩ <;> exact deviceOnly_of_reached h
    exact ⟨hd.exists_eq, hd.bound⟩
  · intro c d hdata
    obtain rfl : d = ctl c s := hdata
    constructor
    · intro kind t h
      have hd : DeviceOnly s t := deviceOnly_of_reached h
      rw [reachOther_ctl, h, ← hd.ctl_eq]
      rfl
    · intro r t h
      have hd : DeviceOnly s t := deviceOnly_of_reached h
      rw [reachOther_ctl, h, ← hd.ctl_eq]
      rfl

end Sys2Proof.Machine

/-! The statements of spec/40_dispatch_fsm.md: the cycle phase by phase, the requests that start and end a run, what
changes `STATE`, and that tracing is not fed back. -/

namespace Sys2Proof.Machine

open Sys2Proof

/-! ### CHECK and FETCH -/

theorem check_of_cancel {s : State} (hm : s.mode = .run) (hc : s.cancel = true) : check s = some .cancelled := by
  simp [check, hm, hc]

theorem check_of_break {s : State} (hm : s.mode = .run) (hc : s.cancel = false)
    (hb : (s.pc, true) ∈ s.breakpoints) : check s = some .breakpoint := by
  simp [check, hm, hc, breakArmed_iff.mpr hb]

/-- A stop in CHECK ends the cycle (40_dispatch_fsm R112). -/
theorem cycle_of_stop {s : State} {why : Stop} (hc : check s = some why) : cycle s = .next (suspend why s) := by
  rw [cycle, hc]

/-- A fetch past memory ends the cycle in an `AddressFault` with no Word (40_dispatch_fsm R113). -/
theorem cycle_of_fetch_past {s : State} (hc : check s = none) (h : s.cfg.memWords ≤ s.pc) :
    cycle s = .next (raise .addressFault none s) := by
  simp only [cycle, hc, fetch_of_ge h]

/-- Outside `RUNNING`, with nothing to serve and no request, a step waits for the host (00_scope R10). -/
theorem step_of_idle {s : State} {rest : List (Option HostEvent)} (hr : s.fsm ≠ .running) (hw : s.waiting = [])
    (hn : s.NoRequest rest) : step s = .next { s with host := rest } := by
  rcases step_cases s with ⟨-, r, l, hw', -⟩ | ⟨-, e⟩
  · exact absurd (hw.symm.trans hw') (List.cons_ne_nil r l).symm
  · rw [e, takeEvent]
    rcases hn with h | ⟨h, rfl⟩
    · simp only [h, runOrWait, if_neg hr]
    · simp only [h, runOrWait, if_neg hr]
      rw [← h]

/-! ### Tracing is not fed back -/

/-- `s` with another `TRACE_EN` and other TraceRecords emitted. -/
def retraced (on : Bool) (records : List TraceRecord) (s : State) : State :=
  { s with traceEn := on, trace := records }

section

variable (on : Bool) (records : List TraceRecord) (s : State)

theorem memRead_retraced (x : Nat) : memRead (retraced on records s) x = memRead s x := rfl

theorem portOwner_retraced : portOwner (retraced on records s) = portOwner s := rfl

theorem serveMem_retraced (r : MemRequest) :
    serveMem r (retraced on records s) = retraced on records (serveMem r s) := by
  cases r with
  | deposit x v =>
    rcases Nat.lt_or_ge x s.cfg.memWords with h | h
    · rw [serveMem_deposit_of_lt h, serveMem_deposit_of_lt (s := retraced on records s) h]
      rfl
    · rw [serveMem_deposit_of_ge h, serveMem_deposit_of_ge (s := retraced on records s) h]
      rfl
  | examine x =>
    simp only [serveMem, memRead_retraced]
    cases memRead s x <;> rfl
  | bulkLoad x ws =>
    rw [serveMem, serveMem, apply_ite (retraced on records)]
    rfl

theorem attach_retraced (n : Nat) (ep : Endpoint) :
    attach n ep (retraced on records s) = retraced on records (attach n ep s) := by
  rw [attach, attach, apply_ite (retraced on records), apply_ite (retraced on records)]
  rfl

theorem detach_retraced (n : Nat) : detach n (retraced on records s) = retraced on records (detach n s) := by
  rw [detach, detach, apply_ite (retraced on records)]
  rfl

/-- No event of the host reads `TRACE_EN` or the TraceRecords; enableTrace and disableTrace write the first. -/
theorem accept_retraced (e : HostEvent) :
    ∃ on', accept e (retraced on records s) = retraced on' records (accept e s) := by
  cases e with
  | reset => exact ⟨on, rfl⟩
  | run a => exact ⟨on, rfl⟩
  | step =>
    refine ⟨on, ?_⟩
    rw [accept, accept, apply_ite (retraced on records)]
    rfl
  | mem r =>
    simp only [accept, portOwner_retraced]
    cases portOwner s with
    | fsm => exact ⟨on, rfl⟩
    | host => exact ⟨on, serveMem_retraced on records s r⟩
  | status => exact ⟨on, rfl⟩
  | setBreak addr armed => exact ⟨on, rfl⟩
  | clearBreak addr => exact ⟨on, rfl⟩
  | setTrace b => exact ⟨b, rfl⟩
  | setCancel b => exact ⟨on, rfl⟩
  | attach n ep => exact ⟨on, attach_retraced on records s n ep⟩
  | detach n => exact ⟨on, detach_retraced on records s n⟩

end

/-- ADVANCE and the fault entry write TraceRecords and read none; what they read `TRACE_EN` for is the TraceRecord
alone (40_dispatch_fsm R119). -/
theorem CycleEnd.apply_retraced (e : CycleEnd) (on : Bool) (records : List TraceRecord) (s : State) :
    ∃ records', e.apply (retraced on records s) = retraced on records' (e.apply s) := by
  cases e with
  | done halt target => cases halt <;> exact ⟨_, rfl⟩
  | fault kind => exact ⟨records, rfl⟩

/-- `TRACE_EN` and the TraceRecords are not among the data that EXECUTE reads (`exec_reads_only_data`). -/
theorem exec_retraced {i : Instr} {s u : State} (on : Bool) (records : List TraceRecord)
    (h : exec i s = .next u) : ∃ records', exec i (retraced on records s) = .next (retraced on records' u) := by
  obtain ⟨e, t, -, hctl⟩ := exec_reads_only_data i s
  obtain rfl : u = e.apply (ctl s t) := Host.Outcome.next.inj (h.symm.trans (hctl s))
  obtain ⟨records', hr⟩ := e.apply_retraced on records (ctl s t)
  exact ⟨records', (hctl (retraced on records s)).trans (congrArg _ hr)⟩

/-- The same of an operation outside the reference set. -/
theorem execOther_retraced (on : Bool) (records : List TraceRecord) (n : Nat) (halt : Bool) (x : Nat) (s : State) :
    ∃ records', execOther n halt x (retraced on records s) = retraced on records' (execOther n halt x s) := by
  obtain ⟨e, t, -, hctl⟩ := execOther_reads_only_data n halt x s
  have h : execOther n halt x s = e.apply (ctl s t) := hctl s
  obtain ⟨records', hr⟩ := e.apply_retraced on records (ctl s t)
  exact ⟨records', by rw [h, ← hr]; exact hctl (retraced on records s)⟩

theorem CycleEnds.cycle_retraced {s u : State} (on : Bool) (records : List TraceRecord) (h : CycleEnds s u) :
    ∃ records', cycle (retraced on records s) = .next (retraced on records' u) := by
  cases h with
  | suspended why _ _ hc => exact ⟨records, cycle_of_stop hc⟩
  | fetchFault hc hpc => exact ⟨records, cycle_of_fetch_past hc hpc⟩
  | decodeFault why hc hpc hd => exact ⟨records, cycle_of_reject hc hpc hd⟩
  | executed i hc hpc hd hu _ =>
    obtain ⟨records', h⟩ := exec_retraced on records hu
    exact ⟨records', (cycle_of_instr (s := retraced on records s) hc hpc hd).trans h⟩
  | other n halt x hc hpc hd hu _ =>
    obtain ⟨records', h⟩ := execOther_retraced on records n halt x (fetched s)
    exact ⟨records', (cycle_of_other (s := retraced on records s) hc hpc hd).trans
      (congrArg _ (hu ▸ h))⟩

/-- Settles O34: each of the four things a step can have been is, from the state with another `TRACE_EN` and other
records, the same thing with the same effect on everything else. -/
theorem tracingIsNeverFedBack : Obligations.TracingIsNeverFedBack := by
  intro s s' on records h
  rcases step_inv h with ⟨hr, r, l, hw, rfl⟩ | ⟨e, rest, ht, rfl⟩ | ⟨hr, rest, hn, hc⟩ | ⟨hr, hw, rest, hn, rfl⟩
  · exact ⟨on, records, (step_of_waiting (s := retraced on records s) hr hw).trans
      (congrArg _ (serveMem_retraced on records { s with waiting := l } r))⟩
  · obtain ⟨on', ha⟩ := accept_retraced on records { s with host := rest } e
    exact ⟨on', records, (step_of_takes (s := retraced on records s) ht).trans (congrArg _ ha)⟩
  · obtain ⟨records', hcyc⟩ := hc.cycle_retraced on records
    exact ⟨on, records', (step_of_running (s := retraced on records s) hr hn).trans hcyc⟩
  · exact ⟨on, records, step_of_idle (s := retraced on records s) hr hw hn⟩

/-! ### A Word without an entry in the table -/

/-- A pair `(OP, MOD)` that no row of the table has gives no entry (30_encoding R74). -/
theorem lookupOp_eq_none {t : List OpRow} {op mod : Nat} (h : ∀ r ∈ t, ¬ (r.op = op ∧ r.mod = mod)) :
    lookupOp t op mod = none := by
  have hfind : t.find? (fun r => r.op == op && r.mod == mod) = none :=
    List.find?_eq_none.mpr fun r hr => by simpa using h r hr
  rw [lookupOp, hfind, Option.map_none]

/-- A Word whose pair `(OP, MOD)` has no entry is rejected, negative or not. -/
theorem decodeWith_of_no_row {t : List OpRow} {w : Word}
    (h : ∀ r ∈ t, ¬ (r.op = opField w ∧ r.mod = modField w)) : ∃ why, decodeWith t w = .reject why := by
  by_cases hneg : w.val < 0
  · exact ⟨_, decodeWith_of_neg t hneg⟩
  · exact ⟨.noEntry (opField w) (modField w), by rw [decodeWith, if_neg hneg, lookupOp_eq_none h]⟩

/-- Settles O18: the Word is rejected by `decodeWith_of_no_row`, and its cycle is `cycle_of_reject`. -/
theorem missingEntryFaults : Obligations.MissingEntryFaults := by
  intro s rest hr hn hu hpc hrow
  obtain ⟨why, hd⟩ := decodeWith_of_no_row hrow
  have hcheck : check { s with host := rest } = none := check_of_unchecked hu
  exact (step_of_running hr hn).trans (cycle_of_reject hcheck hpc hd)

/-! ### The TraceRecord -/

/-- How an operation ends, as far as the trace and `ICOUNT` show it: in a fault, with neither changed, or complete and
counted, with its TraceRecord if `TRACE_EN` (40_dispatch_fsm R116, R119). -/
theorem OtherEnds.trace_cases {halt : Bool} {s u : State} (h : OtherEnds halt s u) :
    (u.icount = s.icount ∧ u.trace = s.trace) ∨
    (u.icount = s.icount + 1 ∧ u.ir = s.ir ∧
      u.trace = if s.traceEn then s.trace ++ [⟨s.pc, u.ir, u.pc, u.a, u.b, u.icount⟩] else s.trace) := by
  cases h with
  | completed target hE _ =>
    exact .inr ⟨by simp [hE.icount_eq], by simp [hE.ir_eq], by simp [hE.traceEn_eq, hE.trace_eq, hE.pc_eq]⟩
  | faulted kind _ hD => exact .inl ⟨hD.icount_eq, hD.trace_eq⟩

/-- The same of a cycle: a stop in CHECK and a fault before EXECUTE change neither. -/
theorem CycleEnds.trace_cases {s u : State} (h : CycleEnds s u) :
    (u.icount = s.icount ∧ u.trace = s.trace) ∨
    (u.icount = s.icount + 1 ∧ u.ir = s.mem.read s.pc ∧
      u.trace = if s.traceEn then s.trace ++ [⟨s.pc, u.ir, u.pc, u.a, u.b, u.icount⟩] else s.trace) := by
  rcases h.cases_operation with ⟨why, -, rfl⟩ | ⟨-, rfl⟩ | rfl | ⟨-, halt, hO⟩
  · exact .inl ⟨rfl, rfl⟩
  · exact .inl ⟨rfl, rfl⟩
  · exact .inl ⟨rfl, rfl⟩
  · exact hO.trace_cases

/-- Settles O22: which of the two ends of `CycleEnds.trace_cases` a cycle has shows in `ICOUNT`. -/
theorem oneTraceRecordPerInstruction : Obligations.OneTraceRecordPerInstruction := by
  intro s s' rest hr hn h
  have hc := cycleEnds_of_step hr hn h
  rcases hc.trace_cases with ⟨hi, ht⟩ | ⟨hi, hir, ht⟩
  · exact ⟨fun hi' => absurd (hi.symm.trans hi') (Nat.succ_ne_self _).symm, fun _ => ht⟩
  · refine ⟨fun _ hen => ⟨ht.trans (if_pos hen), hir⟩, fun hor => ?_⟩
    rcases hor with hi' | hen
    · exact absurd (hi.symm.trans hi') (Nat.succ_ne_self _)
    · exact ht.trans (if_neg (Bool.eq_false_iff.mp hen))

/-! ### The inputs of the host -/

theorem Sorted.mem_put_self {α : Type} (k : Nat) (v : α) (l : List (Nat × α)) : (k, v) ∈ Sorted.put k v l := by
  induction l with
  | nil => exact List.mem_singleton_self _
  | cons c l ih =>
    simp only [Sorted.put]
    split_ifs
    · exact List.mem_cons_self
    · exact List.mem_cons_self
    · exact List.mem_cons_of_mem _ ih

/-- In canonical form, putting a pair replaces what was at its key, and nothing else (log 18). -/
theorem Sorted.mem_put_iff {α : Type} {l : List (Nat × α)} (h : Sorted.Rising l) {k x : Nat} {v u : α} :
    (x, u) ∈ Sorted.put k v l ↔ (x = k ∧ u = v) ∨ (x ≠ k ∧ (x, u) ∈ l) := by
  rw [← Sorted.get_eq_some_iff (Sorted.rising_put k v h), Sorted.get_put, ← Sorted.get_eq_some_iff h]
  by_cases hx : x = k <;> simp [hx, eq_comm]

theorem Sorted.mem_remove_iff {α : Type} {l : List (Nat × α)} {k x : Nat} {u : α} :
    (x, u) ∈ Sorted.remove k l ↔ x ≠ k ∧ (x, u) ∈ l := by
  simp [Sorted.remove, and_comm]

/-- Settles O30: the step that takes each event is its `accept`, and what a breakpoint set holds after a change is
`Sorted.mem_put_iff` and `Sorted.mem_remove_iff`. -/
theorem hostInputsAreSet : Obligations.HostInputsAreSet := by
  intro s rest
  refine ⟨fun on => step_of_takes, fun on => step_of_takes, fun addr armed ht => ?_, fun addr ht => ?_⟩
  · exact ⟨Sorted.put addr armed s.breakpoints, step_of_takes ht, Sorted.mem_put_self _ _ _,
      fun hb x flag => Sorted.mem_put_iff hb⟩
  · exact ⟨Sorted.remove addr s.breakpoints, step_of_takes ht, fun x flag => Sorted.mem_remove_iff⟩

/-! ### What changes `STATE` -/

theorem ControlKept.fsm_eq {s t : State} (h : ControlKept s t) : t.fsm = s.fsm :=
  (congrArg State.fsm h :)

/-- The events of the host that change `STATE`: Reset, Run and Step (40_dispatch_fsm R101, T1 to T3). -/
theorem accept_changes_fsm {e : HostEvent} {s : State} (h : (accept e s).fsm ≠ s.fsm) :
    (∃ a, e = .run a ∧ (accept e s).fsm = .running ∧ (accept e s).mode = .run) ∨
    (e = .step ∧ (accept e s).fsm = .running ∧ (accept e s).mode = .step) ∨
    (e = .reset ∧ (accept e s).fsm = .ready) := by
  rcases accept_cases e s with ⟨-, hk⟩ | ⟨he, ha⟩ | ⟨a, he, ha⟩ | ⟨he, ha⟩
  · exact absurd hk.fsm_eq h
  · exact .inr (.inr ⟨he, ha ▸ rfl⟩)
  · exact .inl ⟨a, he, ha ▸ rfl, ha ▸ rfl⟩
  · exact .inr (.inl ⟨he, ha ▸ rfl, ha ▸ rfl⟩)

/-- The ways a cycle takes a machine out of `RUNNING` (40_dispatch_fsm R101, T4 to T9). -/
inductive LeavesRunning (s u : State) : Prop where
  | cancelled : u.fsm = .ready → u.stop = .cancelled → s.mode = .run → s.cancel = true → LeavesRunning s u
  | breakpoint : u.fsm = .ready → u.stop = .breakpoint → s.mode = .run → (s.pc, true) ∈ s.breakpoints →
      LeavesRunning s u
  | stepDone : u.fsm = .ready → u.stop = .stepDone → s.mode = .step → LeavesRunning s u
  | halted : u.fsm = .halted → u.stop = .halt → u.haltAddr = u.pc →
      ((u.pc = s.pc + 1 ∧ ∃ x, decodeWith s.cfg.optable (s.mem.read s.pc) = .instr (.hlt x)) ∨
        ∃ n x, decodeWith s.cfg.optable (s.mem.read s.pc) = .other n true x) → LeavesRunning s u
  | faulted : u.fsm = .faulted → u.stop = .fault → LeavesRunning s u

/-- A stop in CHECK is a cancel or an armed breakpoint (40_dispatch_fsm R112). -/
theorem leavesRunning_suspend {s : State} {why : Stop} (hc : check s = some why) :
    LeavesRunning s (suspend why s) := by
  rcases check_cases s with ⟨hn, -⟩ | ⟨hm, hcancel, hs⟩ | ⟨hm, -, hb, hs⟩
  · cases hn.symm.trans hc
  · obtain rfl := Option.some.inj (hs.symm.trans hc)
    exact .cancelled rfl rfl hm hcancel
  · obtain rfl := Option.some.inj (hs.symm.trans hc)
    exact .breakpoint rfl rfl hm (breakArmed_iff.mp hb)

/-- ADVANCE of an operation that is not the halt operation leaves `RUNNING` only in `STEP` mode
(40_dispatch_fsm R118). -/
theorem leavesRunning_completeAs {s t : State} {target : Option Nat} (hE : Executed (fetched s) t)
    (hne : (completeAs false target t).fsm ≠ s.fsm) : LeavesRunning s (completeAs false target t) := by
  by_cases hm : t.mode = .step
  · exact .stepDone (by simp [hm]) (by simp [hm]) (hE.mode_eq.symm.trans hm)
  · exact absurd ((if_neg hm).trans hE.fsm_eq) hne

theorem operation_eq_hlt {i : Instr} (h : i.operation = .hlt) : ∃ x, i = .hlt x :=
  ⟨i.addr, by rw [← i.operation_instr, h]; rfl⟩

theorem CycleEnds.leavesRunning {s u : State} (h : CycleEnds s u) (hne : u.fsm ≠ s.fsm) : LeavesRunning s u := by
  cases h with
  | suspended why _ _ hc => exact leavesRunning_suspend hc
  | fetchFault => exact .faulted rfl rfl
  | decodeFault => exact .faulted rfl rfl
  | executed i _ _ hd _ hX =>
    cases hX with
    | completed hE hC =>
      cases hC with
      | next _ => exact leavesRunning_completeAs hE hne
      | jumped _ => exact leavesRunning_completeAs hE hne
      | halted hi =>
        obtain ⟨x, rfl⟩ := operation_eq_hlt hi
        exact .halted rfl rfl rfl (.inl ⟨congrArg (· + 1) hE.pc_eq, x, hd⟩)
    | faulted => exact .faulted rfl rfl
  | other n halt x _ _ hd _ hO =>
    cases hO with
    | completed target hE _ =>
      cases halt with
      | false => exact leavesRunning_completeAs hE hne
      | true => exact .halted rfl rfl rfl (.inr ⟨n, x, hd⟩)
    | faulted => exact .faulted rfl rfl

/-- Settles O33: of the four things a step can have been, an event of the host changes `STATE` as
`accept_changes_fsm` says and a cycle as `CycleEnds.leavesRunning` says; serving memory and waiting leave it. -/
theorem stateChangesOnlyByTheTable : Obligations.StateChangesOnlyByTheTable := by
  intro s s' h hne
  rcases step_inv h with ⟨-, r, l, -, rfl⟩ | ⟨e, rest, ht, rfl⟩ | ⟨hr, rest, hn, hc⟩ | ⟨-, -, rest, -, rfl⟩
  · exact absurd (controlKept_serveMem r { s with waiting := l }).fsm_eq hne
  · have ha := accept_changes_fsm (s := { s with host := rest }) hne
    refine ⟨fun _ => ⟨rest, ?_⟩, fun hr => .inl ⟨rest, ?_⟩⟩
    · rcases ha with ⟨a, rfl, hf⟩ | ⟨rfl, hf⟩ | ⟨rfl, hf⟩
      · exact .inl ⟨a, ht, hf⟩
      · exact .inr (.inl ⟨ht, hf⟩)
      · exact .inr (.inr ⟨ht, hf⟩)
    · rcases ha with ⟨a, -, hf, -⟩ | ⟨-, hf, -⟩ | ⟨rfl, hf⟩
      · exact absurd (hf.trans hr.symm) hne
      · exact absurd (hf.trans hr.symm) hne
      · exact ⟨ht, hf⟩
  · refine ⟨fun hr' => absurd hr hr', fun _ => .inr ⟨⟨rest, hn⟩, ?_⟩⟩
    cases hc.leavesRunning hne with
    | cancelled hf hs hm hcancel => exact .inl ⟨hf, hs, hm, hcancel⟩
    | breakpoint hf hs hm hb => exact .inr (.inl ⟨hf, hs, hm, hb⟩)
    | stepDone hf hs hm => exact .inr (.inr (.inl ⟨hf, hs, hm⟩))
    | halted hf hs ha hw => exact .inr (.inr (.inr (.inl ⟨hf, hs, ha, hw⟩)))
    | faulted hf hs => exact .inr (.inr (.inr (.inr ⟨hf, hs⟩)))
  · exact absurd rfl hne

/-! ### The phases of a cycle, in a step -/

/-- Settles O15: the step is a cycle that takes no stop in CHECK, and its Word decodes. -/
theorem stepRunsTheDecodedInstruction : Obligations.StepRunsTheDecodedInstruction := by
  intro s rest i hr hn hu hpc
  have hcheck : check { s with host := rest } = none := check_of_unchecked hu
  exact ⟨fun hd => (step_of_running hr hn).trans (cycle_of_instr hcheck hpc hd),
    fun n halt x hd => (step_of_running hr hn).trans (cycle_of_other hcheck hpc hd)⟩

/-- Settles O16: `check` of each case, and `cycle_of_stop`. -/
theorem checkStopsBeforeFetch : Obligations.CheckStopsBeforeFetch := by
  intro s rest hr hn
  have stop : ∀ {why}, check { s with host := rest } = some why →
      step s = .next (suspend why { s with host := rest }) :=
    fun hc => (step_of_running hr hn).trans (cycle_of_stop hc)
  exact ⟨fun hm hc => stop (check_of_cancel hm hc), fun hm hc hb => stop (check_of_break hm hc hb),
    fun hm => check_of_unchecked (.inl hm), fun _ hc hb => check_of_unchecked (.inr ⟨hc, hb⟩)⟩

/-- Settles O17: the fetch is `MemRead` at `PC`, and past memory the cycle is `cycle_of_fetch_past`. -/
theorem fetchReadsAtPcOrFaults : Obligations.FetchReadsAtPcOrFaults := by
  intro s rest hr hn hu
  have hcheck : check { s with host := rest } = none := check_of_unchecked hu
  exact ⟨fun hpc => ⟨fetch_of_ge hpc, (step_of_running hr hn).trans (cycle_of_fetch_past hcheck hpc)⟩,
    fetch_of_lt⟩

/-! ### The requests Reset, Run and Step -/

/-- Settles O38: the step that takes a Reset is `resetRequest`, whose values are those of `State.reset`. -/
theorem resetRequestClearsTheBlock : Obligations.ResetRequestClearsTheBlock :=
  fun _ _ ht => step_of_takes ht

/-- Settles O39: the step that takes a Run is `runRequest`, in every `STATE`. -/
theorem runRequestStartsARun : Obligations.RunRequestStartsARun :=
  fun _ _ _ ht => step_of_takes ht

/-- Settles O40: the step that takes a Step request is `stepRequest`, or in `RUNNING` the refusal. -/
theorem stepRequestStartsOneCycle : Obligations.StepRequestStartsOneCycle := by
  intro s rest ht
  exact ⟨fun hr => (step_of_takes ht).trans (congrArg _ (if_neg hr)),
    fun hr => (step_of_takes ht).trans (congrArg _ (if_pos hr))⟩

end Sys2Proof.Machine

/-! The statements of spec/41_control.md: how `HLT`, `NOP` and the jumps end their cycle. -/

namespace Sys2Proof.Machine

open Sys2Proof

/-! ### ADVANCE, by one, to a jump target, or to `HALTED` -/

/-- ADVANCE of an operation that set no jump target (40_dispatch_fsm R116, R118). -/
theorem complete_eq_retiredTo (s : State) : complete s = s.retiredTo (s.pc + 1) :=
  completeAs_eq false none s

/-- ADVANCE of a jump (40_dispatch_fsm R116, R118). -/
theorem completeJump_eq_retiredTo (target : Nat) (s : State) : completeJump target s = s.retiredTo target :=
  completeAs_eq false (some target) s

/-- ADVANCE of the halt operation (40_dispatch_fsm R117). -/
theorem completeHalt_eq_haltedTo (s : State) : completeHalt s = s.haltedTo (s.pc + 1) :=
  completeAs_eq true none s

/-- A conditional jump goes to its target, as it stands, if the condition holds, and else on by one
(40_dispatch_fsm R116). -/
theorem branch_decide (p : Prop) [Decidable p] (target : Nat) (s : State) :
    branch (decide p) target s = s.retiredTo (if p then target else s.pc + 1) := by
  by_cases hp : p
  · simp only [branch, hp, decide_true, if_true, effectiveAddress_eq, completeJump_eq_retiredTo]
  · simp only [branch, hp, decide_false, Bool.false_eq_true, if_false, complete_eq_retiredTo]

/-! ### The instructions -/

/-- Settles O42: `HLT` is ADVANCE of the halt operation and nothing else, `NOP` is ADVANCE by one. -/
theorem hltHaltsAndNopAdvances : Obligations.HltHaltsAndNopAdvances := fun _ s =>
  ⟨congrArg Host.Outcome.next (completeHalt_eq_haltedTo s), congrArg Host.Outcome.next (complete_eq_retiredTo s)⟩

/-- Settles O43: `JMP` is ADVANCE to its target, and `JAZ` and `JAN` are `branch` on their test of `A`. -/
theorem jumpsSetThePc : Obligations.JumpsSetThePc := fun target s =>
  ⟨congrArg Host.Outcome.next (completeJump_eq_retiredTo target s),
    congrArg Host.Outcome.next (branch_decide (s.a.val = 0) target s),
    congrArg Host.Outcome.next (branch_decide (s.a.val < 0) target s)⟩

end Sys2Proof.Machine

/-! The statements of spec/42_load_store.md: what `LDA`, `LDB`, `STA`, `STB` and `XAB` leave at the end of their
cycle. -/

namespace Sys2Proof.Machine

open Sys2Proof

/-! ### An operand in memory, and ADVANCE by one -/

/-- An operation that makes its registers from a Word in range completes with them, and nothing else but ADVANCE
changes (20_memory R52). -/
theorem withOperand_complete_of_lt {x : Nat} {s : State} (h : x < s.cfg.memWords) (f g : Word → Word) :
    withOperand x s (fun v => complete { s with a := f v, b := g v }) =
      ({ s with a := f (s.mem.read x), b := g (s.mem.read x) } : State).retiredTo (s.pc + 1) := by
  rw [withOperand_of_lt h, complete_eq_retiredTo]

/-- A store in range completes with the Word at the effective address and every other cell as before, and nothing
else but ADVANCE changes (20_memory R53). -/
theorem storeOperand_complete_of_lt {x : Nat} {s : State} (h : x < s.cfg.memWords) (v : Word) :
    ∃ m : Memory, storeOperand x v s complete = ({ s with mem := m } : State).retiredTo (s.pc + 1) ∧
      m.read (effectiveAddress x) = v ∧ ∀ y, y ≠ effectiveAddress x → m.read y = s.mem.read y := by
  refine ⟨s.mem.write x v, ?_, s.mem.read_write_same x v, fun y hy => s.mem.read_write_of_ne v hy⟩
  rw [storeOperand_of_lt h, complete_eq_retiredTo]

/-! ### The instructions -/

/-- Settles O45: `STA` and `STB` are the store of `storeOperand_complete_of_lt`, of `A` and of `B`. -/
theorem storesChangeOneWord : Obligations.StoresChangeOneWord := by
  intro addr s h
  obtain ⟨ma, hsta, hma⟩ := storeOperand_complete_of_lt h s.a
  obtain ⟨mb, hstb, hmb⟩ := storeOperand_complete_of_lt h s.b
  exact ⟨⟨ma, congrArg Host.Outcome.next hsta, hma⟩, ⟨mb, congrArg Host.Outcome.next hstb, hmb⟩⟩

/-- Settles O44: `LDA` and `LDB` take the Word of `withOperand_complete_of_lt` as it is, and keep the other
register. -/
theorem loadsCopyTheWord : Obligations.LoadsCopyTheWord := fun _ s h =>
  ⟨congrArg Host.Outcome.next (withOperand_complete_of_lt h id fun _ => s.b),
    congrArg Host.Outcome.next (withOperand_complete_of_lt h (fun _ => s.a) id)⟩

/-- `XAB` is ADVANCE of the exchanged registers, whatever its `ADDR` digits are (42_load_store R154; log 15). -/
theorem exec_xab (x : Nat) (s : State) :
    exec (.xab x) s = .next (complete { s with a := s.b, b := s.a }) := rfl

/-- Settles O46, by `exec_xab`: ADVANCE keeps `A` and `B`, so the second exchange starts from the exchanged
registers. -/
theorem xabExchanges : Obligations.XabExchanges := by
  intro x s
  refine ⟨?_, fun y t u ht hu => ?_⟩
  · rw [exec_xab, complete_eq_retiredTo]
  · rw [exec_xab] at ht hu
    obtain rfl := Host.Outcome.next.inj ht
    obtain rfl := Host.Outcome.next.inj hu
    exact ⟨rfl, rfl⟩

end Sys2Proof.Machine

/-! The statements of spec/43_arithmetic.md: the overflow policy as an operation on magnitudes, and what `ADD`, `SUB`
and `MUL` leave at the end of their cycle. -/

namespace Sys2Proof

/-! ### Words and their magnitudes -/

theorem Word.ext {v w : Word} (h : v.val = w.val) : v = w := by
  cases v
  cases w
  cases h
  rfl

/-- The Words are the integers of at most eight digits (10_state R20). -/
theorem Word.inRange_iff_natAbs_lt {v : Int} : Word.InRange v ↔ v.natAbs < 100000000 := by
  simp only [Word.InRange, wmax_eq]
  omega

end Sys2Proof

namespace Sys2Proof.Machine

open Sys2Proof

theorem natAbs_sign_mul {v : Int} {n : Nat} (h : v = 0 → n = 0) : (v.sign * (n : Int)).natAbs = n := by
  rcases eq_or_ne v 0 with rfl | hv
  · simp [h rfl]
  · rw [Int.natAbs_mul, Int.natAbs_sign_of_ne_zero hv, one_mul, Int.natAbs_natCast]

/-! ### The overflow policy keeps the sign and acts on the magnitude -/

/-- The magnitude that a policy makes of one (43_arithmetic R162, R163). -/
def keptMagnitude : OvfPolicy → Nat → Nat
  | .wrap, n => n % 100000000
  | .saturate, n => min n 99999999

@[simp] theorem keptMagnitude_zero (p : OvfPolicy) : keptMagnitude p 0 = 0 := by
  cases p <;> rfl

theorem keptMagnitude_of_lt (p : OvfPolicy) {n : Nat} (h : n < 100000000) : keptMagnitude p n = n := by
  cases p with
  | wrap => exact Nat.mod_eq_of_lt h
  | saturate => exact min_eq_left (Nat.le_of_lt_succ h)

/-- Either policy makes a magnitude that is too large smaller. -/
theorem keptMagnitude_lt_self (p : OvfPolicy) {n : Nat} (h : 100000000 ≤ n) : keptMagnitude p n < n := by
  cases p with
  | wrap => exact (Nat.mod_lt n (by decide)).trans_le h
  | saturate => exact (min_le_right n _).trans_lt h

/-- A value that is a Word stays, under either policy (43_arithmetic R161). -/
theorem ovf_val_of_inRange (p : OvfPolicy) {v : Int} (h : Word.InRange v) : (ovf p v).val = v := by
  unfold ovf
  rw [dif_pos h]

theorem lowDigits_val (v : Int) : (lowDigits v).val = v.sign * (v.natAbs % 100000000 : Nat) := rfl

theorem saturated_val {v : Int} (h : v ≠ 0) : (saturated v).val = v.sign * 99999999 := by
  rcases h.lt_or_gt with hv | hv
  · rw [saturated, if_neg hv.not_gt, Int.sign_eq_neg_one_of_neg hv]
    rfl
  · rw [saturated, if_pos hv, Int.sign_eq_one_of_pos hv]
    rfl

/-- `ovf` keeps the sign of the true result and applies the policy to its magnitude (43_arithmetic R161 to R163). -/
theorem ovf_val (p : OvfPolicy) (v : Int) : (ovf p v).val = v.sign * (keptMagnitude p v.natAbs : Nat) := by
  by_cases h : Word.InRange v
  · rw [ovf_val_of_inRange p h, keptMagnitude_of_lt p (Word.inRange_iff_natAbs_lt.mp h), Int.sign_mul_natAbs]
  · have hbig : 100000000 ≤ v.natAbs := not_lt.mp (mt Word.inRange_iff_natAbs_lt.mpr h)
    unfold ovf
    rw [dif_neg h]
    cases p with
    | wrap => exact lowDigits_val v
    | saturate =>
      have hkept : keptMagnitude .saturate v.natAbs = 99999999 := min_eq_right (by omega)
      rw [hkept]
      exact saturated_val (by omega)

theorem ovf_val_of_pos (p : OvfPolicy) {v : Int} (h : 0 < v) : (ovf p v).val = keptMagnitude p v.natAbs := by
  rw [ovf_val, Int.sign_eq_one_of_pos h, one_mul]

theorem ovf_val_of_neg (p : OvfPolicy) {v : Int} (h : v < 0) : (ovf p v).val = -keptMagnitude p v.natAbs := by
  rw [ovf_val, Int.sign_eq_neg_one_of_neg h, neg_one_mul]

/-- `ovf` is odd (43_arithmetic R169 (b)). -/
theorem ovf_neg_val (p : OvfPolicy) (v : Int) : (ovf p (-v)).val = -(ovf p v).val := by
  rw [ovf_val, ovf_val, Int.sign_neg, Int.natAbs_neg, neg_mul]

theorem ovf_mag (p : OvfPolicy) (v : Int) : (ovf p v).mag = keptMagnitude p v.natAbs := by
  rw [Word.mag, ovf_val, natAbs_sign_mul]
  rintro rfl
  exact keptMagnitude_zero p

/-- An overflow brings its result strictly nearer to zero, and not past it. -/
theorem ovf_val_of_not_inRange (p : OvfPolicy) {v : Int} (h : ¬ Word.InRange v) :
    (0 ≤ (ovf p v).val ∧ (ovf p v).val < v) ∨ (v < (ovf p v).val ∧ (ovf p v).val ≤ 0) := by
  have hlt : keptMagnitude p v.natAbs < v.natAbs :=
    keptMagnitude_lt_self p (not_lt.mp (mt Word.inRange_iff_natAbs_lt.mpr h))
  rcases lt_trichotomy v 0 with hv | rfl | hv
  · rw [ovf_val_of_neg p hv]
    omega
  · exact absurd hlt (Nat.not_lt_zero _)
  · rw [ovf_val_of_pos p hv]
    omega

/-- `SATURATE` is the nearest Word, and so monotone (43_arithmetic R163, R169 (b)). -/
theorem ovf_saturate_val (v : Int) : (ovf .saturate v).val = max (-99999999) (min v 99999999) := by
  rcases lt_trichotomy v 0 with hv | rfl | hv
  · rw [ovf_val_of_neg _ hv, keptMagnitude]
    omega
  · decide
  · rw [ovf_val_of_pos _ hv, keptMagnitude]
    omega

/-- Settles O57, by `ovf_val`: between one and two times 10^8 the low eight digits are what is left after 10^8. -/
theorem wrapDropsTheCarry : Obligations.WrapDropsTheCarry := by
  intro v
  have hval : (ovf .wrap v).val = v.sign * (v.natAbs % 100000000 : Nat) := ovf_val .wrap v
  refine ⟨hval, fun hz => Word.ext ?_, fun hlo hhi => ?_⟩
  · rw [hval, hz]
    exact mul_zero _
  · have hmod : v.natAbs % 100000000 = v.natAbs - 100000000 := by omega
    rw [hval, hmod]
    refine ⟨fun hv => ?_, fun hv => ?_⟩
    · rw [Int.sign_eq_one_of_pos hv]
      omega
    · rw [Int.sign_eq_neg_one_of_neg hv]
      omega

/-- Settles O58: each clause is one of the branches of the nearest Word. -/
theorem saturateSticks : Obligations.SaturateSticks := by
  intro v
  rw [ovf_saturate_val]
  omega

/-- Settles O59. `WRAP` is not monotone at 99999999, where one more gives zero. -/
theorem overflowPolicyLaws : Obligations.OverflowPolicyLaws := by
  refine ⟨ovf_neg_val, fun u v huv => ?_, ⟨99999999, 100000000, by decide, by decide⟩,
    fun v => ⟨ovf_mag .wrap v, ovf_mag .saturate v⟩⟩
  rw [ovf_saturate_val, ovf_saturate_val]
  exact max_le_max_left _ (min_le_min_right _ huv)

/-! ### `ADD` and `SUB` -/

theorem exec_add_of_lt {x : Nat} {s : State} (h : x < s.cfg.memWords) :
    exec (.add x) s = .next
      (({ s with a := ovf s.cfg.ovf (s.a.val + (s.mem.read x).val) } : State).retiredTo (s.pc + 1)) :=
  congrArg Host.Outcome.next (withOperand_complete_of_lt h (aluAdd s.cfg.ovf s.a) fun _ => s.b)

theorem exec_sub_of_lt {x : Nat} {s : State} (h : x < s.cfg.memWords) :
    exec (.sub x) s = .next
      (({ s with a := ovf s.cfg.ovf (s.a.val - (s.mem.read x).val) } : State).retiredTo (s.pc + 1)) :=
  congrArg Host.Outcome.next (withOperand_complete_of_lt h (aluSub s.cfg.ovf s.a) fun _ => s.b)

/-- Settles O47: the sum and the difference that `ovf` keeps where they are Words. -/
theorem addAndSubUseTheOverflowPolicy : Obligations.AddAndSubUseTheOverflowPolicy := fun _ _ h =>
  ⟨_, _, exec_add_of_lt h, exec_sub_of_lt h, rfl, rfl, ovf_val_of_inRange _, ovf_val_of_inRange _⟩

/-- Taking `y` away again restores `a` iff the sum did not overflow (43_arithmetic R169 (c)): after an overflow what
is left is a Word between `-y` and `a`, and not `a`. -/
theorem aluSub_aluAdd_eq_iff (p : OvfPolicy) (a y : Word) :
    aluSub p (aluAdd p a y) y = a ↔ Word.InRange (a.val + y.val) := by
  refine ⟨fun hback => by_contra fun hover => ?_, fun hfits => Word.ext ?_⟩
  · have ha := a.inRange
    have hy := y.inRange
    have hnear := ovf_val_of_not_inRange p hover
    have hfits : Word.InRange ((aluAdd p a y).val - y.val) := by
      simp only [Word.InRange, wmax_eq, aluAdd] at ha hy ⊢
      omega
    have hval : (aluAdd p a y).val - y.val = a.val := by
      rw [← ovf_val_of_inRange p hfits]
      exact congrArg Word.val hback
    simp only [aluAdd] at hval
    omega
  · have hsum : (aluAdd p a y).val - y.val = a.val := by
      rw [aluAdd, ovf_val_of_inRange p hfits, add_sub_cancel_right]
    rw [aluSub, hsum, ovf_val_of_inRange p a.inRange]

/-- Settles O60, by `aluSub_aluAdd_eq_iff`: the `SUB` reads the same Word under the same policy, for `ADD` changes
neither. -/
theorem subUndoesAddWithoutOverflow : Obligations.SubUndoesAddWithoutOverflow := fun _ s h =>
  ⟨_, _, exec_add_of_lt h, exec_sub_of_lt h, rfl, aluSub_aluAdd_eq_iff s.cfg.ovf s.a _⟩

/-! ### `MUL` -/

theorem highDigits_val (x y : Word) : (highDigits x y).val =
    (x.val * y.val).sign * ((x.val * y.val).natAbs / 100000000 : Nat) := rfl

/-- The halves, each with the sign of the product, are together the product (43_arithmetic R166). -/
theorem highDigits_mul_add_lowDigits (x y : Word) :
    (highDigits x y).val * 100000000 + (lowDigits (x.val * y.val)).val = x.val * y.val := by
  rw [highDigits_val, lowDigits_val]
  generalize x.val * y.val = p
  have hdigits : ((p.natAbs / 100000000 : Nat) : Int) * 100000000 + (p.natAbs % 100000000 : Nat) = p.natAbs := by
    omega
  calc p.sign * (p.natAbs / 100000000 : Nat) * 100000000 + p.sign * (p.natAbs % 100000000 : Nat)
      = p.sign * ((p.natAbs / 100000000 : Nat) * 100000000 + (p.natAbs % 100000000 : Nat)) := by
        rw [mul_assoc, ← mul_add]
    _ = p.sign * p.natAbs := by rw [hdigits]
    _ = p := Int.sign_mul_natAbs p

/-- Settles O48: both halves are made of the product with the old `A`, and `highDigits_mul_add_lowDigits` puts them
together. -/
theorem mulGivesTheExactDoubleProduct : Obligations.MulGivesTheExactDoubleProduct := fun addr s h =>
  ⟨aluMulHigh s.a (s.mem.read addr), aluMulLow s.a (s.mem.read addr),
    congrArg Host.Outcome.next (withOperand_complete_of_lt h (aluMulHigh s.a) (aluMulLow s.a)),
    highDigits_val _ _, lowDigits_val _, (highDigits_mul_add_lowDigits _ _).symm⟩

end Sys2Proof.Machine

/-! The statements of spec/44_io.md: what changes the binding of a slot, and what `INP`, `OUT` and `PRT` hand to the
devices and take from them. -/

namespace Sys2Proof.Machine

open Sys2Proof

/-! ### The bindings of the slots -/

theorem not_devBound_of_no_endpoint {s : State} {n : Nat} (h : endpointOf s n = none) : ¬ devBound s n = true :=
  Bool.eq_false_iff.mp (devBound_of_no_endpoint h)

theorem devBound_eq_of_slots {s t : State} (h : t.slots = s.slots) (n : Nat) : devBound t n = devBound s n := by
  unfold devBound endpointOf
  rw [h]

/-- Only the slot that is set can change its binding. -/
theorem devBound_setSlot_of_ne {m n : Nat} (h : m ≠ n) (b : Option Endpoint) (s : State) :
    devBound { s with slots := s.slots.set m b } n = devBound s n := by
  unfold devBound endpointOf
  rw [List.getElem?_set_ne h]

theorem devBound_setSlot_self {n : Nat} {s : State} (h : n < s.slots.length) (b : Option Endpoint) :
    devBound { s with slots := s.slots.set n b } n = b.isSome := by
  unfold devBound endpointOf
  rw [List.getElem?_set_self h]
  rfl

/-- Only a number that names a slot can be bound (44_io R180). -/
theorem lt_length_of_devBound {s : State} {n : Nat} (h : devBound s n = true) : n < s.slots.length := by
  by_contra hn
  have hnone : s.slots[n]? = none := List.getElem?_eq_none (Nat.le_of_not_lt hn)
  exact not_devBound_of_no_endpoint (endpointOf_of_unbound (.inl hnone)) h

theorem attach_of_free {s : State} {n : Nat} (h : s.slots[n]? = some none) (ep : Endpoint) :
    attach n ep s = { s with slots := s.slots.set n (some ep) } := by
  obtain ⟨hlt, -⟩ := List.getElem?_eq_some_iff.mp h
  rw [attach, if_pos hlt, if_neg (not_devBound_of_no_endpoint (endpointOf_of_unbound (.inr h)))]

theorem attach_of_bound {s : State} {n : Nat} (h : devBound s n = true) (ep : Endpoint) :
    attach n ep s = reply (.deviceAlreadyBound n) s := by
  rw [attach, if_pos (lt_length_of_devBound h), if_pos h]

theorem attach_of_ge {s : State} {n : Nat} (h : s.slots.length ≤ n) (ep : Endpoint) :
    attach n ep s = reply (.noSuchSlot n) s := if_neg h.not_gt

theorem detach_of_lt {s : State} {n : Nat} (h : n < s.slots.length) :
    detach n s = { s with slots := s.slots.set n none } := if_pos h

theorem detach_of_ge {s : State} {n : Nat} (h : s.slots.length ≤ n) : detach n s = reply (.noSuchSlot n) s :=
  if_neg h.not_gt

theorem devBound_attach_of_ne {m n : Nat} (h : m ≠ n) (ep : Endpoint) (s : State) :
    devBound (attach m ep s) n = devBound s n := by
  unfold attach
  split_ifs
  · rfl
  · exact devBound_setSlot_of_ne h (some ep) s
  · rfl

theorem devBound_detach_of_ne {m n : Nat} (h : m ≠ n) (s : State) : devBound (detach m s) n = devBound s n := by
  unfold detach
  split_ifs
  · exact devBound_setSlot_of_ne h none s
  · rfl

theorem serveMem_slots (r : MemRequest) (s : State) : (serveMem r s).slots = s.slots := by
  rcases serveMem_cases r s with ⟨x, e⟩ | ⟨x, v, -, -, e⟩ | ⟨x, ws, -, -, e⟩ <;> rw [e] <;> rfl

/-- An event of the host that is no attach and no detach leaves every slot (40_dispatch_fsm R110). -/
theorem accept_slots {e : HostEvent} (ha : ∀ n ep, e ≠ .attach n ep) (hd : ∀ n, e ≠ .detach n) (s : State) :
    (accept e s).slots = s.slots := by
  cases e with
  | step =>
    unfold accept
    split_ifs <;> rfl
  | mem r =>
    unfold accept
    rcases portOwner_cases s with ⟨-, hp⟩ | ⟨-, hp⟩ <;> simp only [hp]
    exact serveMem_slots r s
  | attach n ep => exact absurd rfl (ha n ep)
  | detach n => exact absurd rfl (hd n)
  | reset | run a | status | setBreak addr armed | clearBreak addr | setTrace on | setCancel on => rfl

/-- Only the attach and the detach of a slot change its binding (40_dispatch_fsm R110). -/
theorem accept_rebinds {e : HostEvent} {s : State} {n : Nat} (h : devBound (accept e s) n ≠ devBound s n) :
    (∃ ep, e = .attach n ep) ∨ e = .detach n := by
  by_cases ha : ∃ m ep, e = .attach m ep
  · obtain ⟨m, ep, rfl⟩ := ha
    obtain rfl : m = n := by_contra fun hm => h (devBound_attach_of_ne hm ep s)
    exact .inl ⟨ep, rfl⟩
  by_cases hd : ∃ m, e = .detach m
  · obtain ⟨m, rfl⟩ := hd
    obtain rfl : m = n := by_contra fun hm => h (devBound_detach_of_ne hm s)
    exact .inr rfl
  · exact absurd (devBound_eq_of_slots (accept_slots (by simpa using ha) (by simpa using hd) s) n) h

theorem OtherEnds.devBound_eq {halt : Bool} {s u : State} (h : OtherEnds halt s u) (n : Nat) :
    devBound u n = devBound s n := by
  cases h with
  | completed target hE _ => exact (devBound_eq_of_slots (completeAs_slots ..) n).trans (hE.bound n)
  | faulted kind _ hD => exact hD.bound n

/-- No cycle changes a binding (44_io R180). -/
theorem CycleEnds.devBound_eq {s u : State} (h : CycleEnds s u) (n : Nat) : devBound u n = devBound s n := by
  rcases h.cases_operation with ⟨why, -, rfl⟩ | ⟨-, rfl⟩ | rfl | ⟨-, halt, hO⟩
  · rfl
  · rfl
  · rfl
  · exact hO.devBound_eq n

/-- A step that changes the binding of a slot takes the attach or the detach of that slot. -/
theorem step_rebinds {s s' : State} {n : Nat} (h : step s = .next s') (hne : devBound s' n ≠ devBound s n) :
    ∃ rest, (∃ ep, s.Takes (.attach n ep) rest) ∨ s.Takes (.detach n) rest := by
  rcases step_inv h with ⟨-, r, l, -, rfl⟩ | ⟨e, rest, ht, rfl⟩ | ⟨-, rest, -, hc⟩ | ⟨-, -, rest, -, rfl⟩
  · exact absurd (devBound_eq_of_slots (serveMem_slots r { s with waiting := l }) n) hne
  · rcases accept_rebinds (s := { s with host := rest }) hne with ⟨ep, rfl⟩ | rfl
    · exact ⟨rest, .inl ⟨ep, ht⟩⟩
    · exact ⟨rest, .inr ht⟩
  · exact absurd (hc.devBound_eq n) hne
  · exact absurd rfl hne

/-- Settles O29: `step_rebinds` says what changes a binding, and the step that takes an attach or a detach is
`attach` or `detach` on a free slot, a bound one, or none. -/
theorem onlyAttachAndDetachRebind : Obligations.OnlyAttachAndDetachRebind := by
  refine ⟨fun s s' n => step_rebinds, fun s n ep rest ht => ⟨fun hfree => ?_, fun hb => ?_, fun hge => ?_⟩,
    fun s n rest ht => ⟨fun hlt => ?_, fun hge => ?_⟩⟩
  · obtain ⟨hlt, -⟩ := List.getElem?_eq_some_iff.mp hfree
    have hstep := attach_of_free (s := { s with host := rest }) hfree ep
    exact ⟨_, (step_of_takes ht).trans (congrArg _ hstep), rfl,
      devBound_setSlot_self (s := { s with host := rest }) hlt (some ep), fun k hk => List.getElem?_set_ne hk.symm⟩
  · exact (step_of_takes ht).trans (congrArg _ (attach_of_bound (s := { s with host := rest }) hb ep))
  · exact (step_of_takes ht).trans (congrArg _ (attach_of_ge (s := { s with host := rest }) hge ep))
  · have hstep := detach_of_lt (s := { s with host := rest }) hlt
    exact ⟨_, (step_of_takes ht).trans (congrArg _ hstep), rfl,
      devBound_setSlot_self (s := { s with host := rest }) hlt none, fun k hk => List.getElem?_set_ne hk.symm⟩
  · exact (step_of_takes ht).trans (congrArg _ (detach_of_ge (s := { s with host := rest }) hge))

/-! ### The answers of an endpoint, and the fault entry -/

/-- The answer to a `DevRead` is `r`, from the script or past its end (44_io R181; log 10). -/
theorem readAnswer_eq {s : State} {n : Nat} {ep : Endpoint} {r : Option Word}
    (h : ep.reads.head? = some r ∨ (ep.reads = [] ∧ Config.drawRead n s.devOps.length = r)) :
    readAnswer s n ep = r := by
  unfold readAnswer
  rcases h with h | ⟨h, hr⟩
  · rw [h]
    rfl
  · rw [h]
    exact hr

/-- The answer to a `DevWrite` or `DevWriteChar` is `ok`, from the script or past its end (44_io R182, R183;
log 10). -/
theorem writeAnswer_eq {s : State} {n : Nat} {ep : Endpoint} {ok : Bool}
    (h : ep.writes.head? = some ok ∨ (ep.writes = [] ∧ Config.drawWrite n s.devOps.length = ok)) :
    writeAnswer s n ep = ok := by
  unfold writeAnswer
  rcases h with h | ⟨h, hok⟩
  · rw [h]
    rfl
  · rw [h]
    exact hok

/-- The fault entry in EXECUTE, in the terms of the statements (60_exceptions R207). -/
theorem raiseExec_eq_faultedWith (kind : FaultKind) (s : State) :
    raiseExec kind s = s.faultedWith kind (some s.ir) := rfl

/-! ### `INP` and `OUT` -/

theorem exec_inp_of_unbound {s : State} {n : Nat} (h : endpointOf s n = none) :
    exec (.inp n) s = .next (raiseExec .deviceFault s) :=
  congrArg Host.Outcome.next (if_neg (not_devBound_of_no_endpoint h))

theorem exec_out_of_unbound {s : State} {n : Nat} (h : endpointOf s n = none) :
    exec (.out n) s = .next (raiseExec .deviceFault s) :=
  congrArg Host.Outcome.next (if_neg (not_devBound_of_no_endpoint h))

/-- `INP` on an endpoint that answers with a Word: `A` takes it (44_io R185). -/
theorem exec_inp_of_word {s : State} {n : Nat} {ep : Endpoint} {v : Word} (h : endpointOf s n = some ep)
    (hv : readAnswer s n ep = some v) :
    exec (.inp n) s = .next (complete
      { recordOp n { ep with reads := ep.reads.tail } (.read n (some v)) s with a := v }) := by
  refine congrArg Host.Outcome.next ?_
  rw [slotNumber_eq, inputWord, if_pos (devBound_of_endpoint h), devRead_of_bound h, hv]

/-- `INP` on an endpoint that answers `fail` (44_io R185; 60_exceptions R202). -/
theorem exec_inp_of_fail {s : State} {n : Nat} {ep : Endpoint} (h : endpointOf s n = some ep)
    (hv : readAnswer s n ep = none) :
    exec (.inp n) s = .next (raiseExec .deviceFault
      (recordOp n { ep with reads := ep.reads.tail } (.read n none) s)) := by
  refine congrArg Host.Outcome.next ?_
  rw [slotNumber_eq, inputWord, if_pos (devBound_of_endpoint h), devRead_of_bound h, hv]

/-- `OUT` on an endpoint that answers `ok`: it receives `A` (44_io R186). -/
theorem exec_out_of_ok {s : State} {n : Nat} {ep : Endpoint} (h : endpointOf s n = some ep)
    (hok : writeAnswer s n ep = true) :
    exec (.out n) s = .next (complete
      (recordOp n { ep with writes := ep.writes.tail } (.write n s.a true) s)) := by
  refine congrArg Host.Outcome.next ?_
  rw [slotNumber_eq, outputWord, if_pos (devBound_of_endpoint h), devWrite_of_bound _ h, hok]

/-- `OUT` on an endpoint that answers `fail` (44_io R186; 60_exceptions R202). -/
theorem exec_out_of_fail {s : State} {n : Nat} {ep : Endpoint} (h : endpointOf s n = some ep)
    (hok : writeAnswer s n ep = false) :
    exec (.out n) s = .next (raiseExec .deviceFault
      (recordOp n { ep with writes := ep.writes.tail } (.write n s.a false) s)) := by
  refine congrArg Host.Outcome.next ?_
  rw [slotNumber_eq, outputWord, if_pos (devBound_of_endpoint h), devWrite_of_bound _ h, hok]

/-- Settles O49: `INP` of an answer that is a Word, and `OUT` of an answer `ok`, complete. -/
theorem inpAndOutUseTheDevice : Obligations.InpAndOutUseTheDevice := by
  intro n s ep hslot
  have hep : endpointOf s n = some ep := endpointOf_of_bound hslot
  refine ⟨fun v hv => ?_, fun hok => ?_⟩
  · rw [exec_inp_of_word hep (readAnswer_eq hv), complete_eq_retiredTo]
    rfl
  · rw [exec_out_of_ok hep (writeAnswer_eq hok), complete_eq_retiredTo]
    rfl

/-- Settles O56: `INP` and `OUT` of an answer `fail` take the fault after the operation is on record. -/
theorem failedDeviceOperationFaults : Obligations.FailedDeviceOperationFaults := by
  intro n s ep hslot
  have hep : endpointOf s n = some ep := endpointOf_of_bound hslot
  exact ⟨fun hv => exec_inp_of_fail hep (readAnswer_eq hv), fun hok => exec_out_of_fail hep (writeAnswer_eq hok)⟩

/-! ### `PRT` tests the console first -/

theorem exec_prt_of_unbound {s : State} (h : endpointOf s Config.console = none) (addr : Nat) :
    exec (.prt addr) s = .next (raiseExec .deviceFault s) :=
  congrArg Host.Outcome.next (if_neg (not_devBound_of_no_endpoint h))

theorem exec_prt_of_bound {s : State} {ep : Endpoint} (h : endpointOf s Config.console = some ep) (addr : Nat) :
    exec (.prt addr) s = .next (printText addr s) :=
  congrArg Host.Outcome.next (if_pos (devBound_of_endpoint h))

/-- Settles O55: each of the three tests the binding of its slot before anything else. -/
theorem unboundSlotFaults : Obligations.UnboundSlotFaults := by
  intro n s hslot
  have hep : endpointOf s n = none := endpointOf_of_unbound hslot
  refine ⟨exec_inp_of_unbound hep, exec_out_of_unbound hep, ?_⟩
  rintro rfl addr
  exact exec_prt_of_unbound hep addr

/-! ### The text of `PRT` -/

/-- How `PRT` ends when the sending of all codes of its text has ended in `r`: after the last of them it meets
`END_CODE`, or runs past memory (44_io R187). -/
def Sent.finish (met : Bool) : Sent → State
  | .ended t => complete t
  | .failed t => raiseExec .deviceFault t
  | .more t => if met then complete t else raiseExec .addressFault t

/-- Sending goes on after codes that were all sent, and only then. -/
def Sent.andThen (next : State → Sent) : Sent → Sent
  | .ended t => .ended t
  | .failed t => .failed t
  | .more t => next t

theorem sendCodes_append (cs ds : List Nat) (s : State) :
    sendCodes (cs ++ ds) s = (sendCodes cs s).andThen (sendCodes ds) := by
  induction cs generalizing s with
  | nil => rfl
  | cons c cs ih =>
    simp only [List.cons_append, sendCodes]
    split_ifs
    · rfl
    · rcases devWriteChar s Config.console c with ⟨_ | _, t⟩
      · rfl
      · exact ih t

/-- `PRT` is the sending of its text in one go, whatever the endpoint answers (44_io R187). -/
theorem printText_of_textFrom {s : State} {k : Nat} {codes : List Nat} {met : Bool}
    (h : TextFrom s.mem s.cfg.memWords k codes met) : printText k s = (sendCodes codes s).finish met := by
  generalize hm : s.mem = m at h
  generalize hN : s.cfg.memWords = N at h
  induction h generalizing s with
  | @ended k before after hk hcodes _ =>
    rw [printText_eq, memRead_of_lt (hN ▸ hk), hm]
    simp only [hcodes, sendCodes_append]
    cases sendCodes before s <;> rfl
  | @overrun k hk =>
    rw [printText_eq, memRead_of_ge (hN ▸ hk)]
    rfl
  | @more k codes met hk _ _ ih =>
    have hd := sendCodes_deviceOnly (textCodes (m.read k)) s
    rw [printText_eq, memRead_of_lt (hN ▸ hk), hm, sendCodes_append]
    simp only
    cases hr : sendCodes (textCodes (m.read k)) s with
    | ended t => rfl
    | failed t => rfl
    | more t =>
      rw [hr] at hd
      exact ih (hd.mem_eq.trans hm) ((congrArg Params.memWords hd.cfg_eq).trans hN)

/-- A text stops before its `END_CODE` (44_io R187). -/
theorem TextFrom.endCode_notMem {m : Memory} {n k : Nat} {codes : List Nat} {met : Bool}
    (h : TextFrom m n k codes met) : Config.endCode ∉ codes := by
  induction h with
  | ended _ _ hbefore => exact hbefore
  | overrun => exact List.not_mem_nil
  | more _ hword _ ih => exact fun hmem => (List.mem_append.mp hmem).elim hword ih

/-- A text has at most four codes a Word (70_reset_and_hazards R243). -/
theorem TextFrom.length_le {m : Memory} {n k : Nat} {codes : List Nat} {met : Bool}
    (h : TextFrom m n k codes met) : codes.length ≤ 4 * (n - k) := by
  induction h with
  | @ended k before after hk hcodes _ =>
    have hlen := congrArg List.length hcodes
    simp only [textCodes, List.length_cons, List.length_nil, List.length_append] at hlen
    omega
  | overrun => exact Nat.zero_le _
  | more hk _ _ ih =>
    simp only [textCodes, List.length_cons, List.length_nil, List.length_append]
    omega

/-- There is a text at every address: it ends in the first Word with an `END_CODE`, or where memory ends. -/
theorem TextFrom.exists (m : Memory) (n k : Nat) : ∃ codes met, TextFrom m n k codes met := by
  induction hd : n - k generalizing k with
  | zero => exact ⟨[], false, .overrun (by omega)⟩
  | succ d ih =>
    have hk : k < n := by omega
    by_cases hend : Config.endCode ∈ textCodes (m.read k)
    · obtain ⟨before, after, hcodes, hbefore⟩ := List.eq_append_cons_of_mem hend
      exact ⟨before, true, .ended hk hcodes hbefore⟩
    · obtain ⟨codes, met, h⟩ := ih (k + 1) (by omega)
      exact ⟨_, met, .more hk hend h⟩

/-- The codes before the first `a` are those taken while it is not `a`. -/
theorem takeWhile_ne_append_cons {a : Nat} {before : List Nat} (h : a ∉ before) (after : List Nat) :
    (before ++ a :: after).takeWhile (· != a) = before := by
  rw [List.takeWhile_append_of_pos fun b hb => bne_iff_ne.mpr (ne_of_mem_of_not_mem hb h)]
  simp

/-- There is one text at an address. -/
theorem TextFrom.unique {m : Memory} {n k : Nat} {codes codes' : List Nat} {met met' : Bool}
    (h : TextFrom m n k codes met) (h' : TextFrom m n k codes' met') : codes' = codes ∧ met' = met := by
  induction h generalizing codes' met' with
  | ended hk hcodes hbefore =>
    cases h' with
    | ended _ hcodes' hbefore' =>
      rw [← takeWhile_ne_append_cons hbefore', ← hcodes', hcodes, takeWhile_ne_append_cons hbefore]
      exact ⟨rfl, rfl⟩
    | overrun hge => omega
    | more _ hno _ => exact absurd (hcodes ▸ List.mem_append_right _ List.mem_cons_self) hno
  | overrun hge =>
    cases h' with
    | ended hk _ _ => omega
    | overrun _ => exact ⟨rfl, rfl⟩
    | more hk _ _ => omega
  | more hk hno _ ih =>
    cases h' with
    | ended _ hcodes' _ => exact absurd (hcodes' ▸ List.mem_append_right _ List.mem_cons_self) hno
    | overrun hge => omega
    | more _ _ hrest =>
      obtain ⟨rfl, rfl⟩ := ih hrest
      exact ⟨rfl, rfl⟩

/-! ### What the console receives -/

/-- `s` after the console's endpoint `ep` has answered the writes `ops`. -/
def State.afterWrites (s : State) (ep : Endpoint) (ops : List DevOp) : State :=
  { s with
    slots := s.slots.set Config.console (some { ep with writes := ep.writes.drop ops.length })
    devOps := s.devOps ++ ops }

theorem afterWrites_nil {s : State} {ep : Endpoint} (h : s.slots[Config.console]? = some (some ep)) :
    s.afterWrites ep [] = s := by
  obtain ⟨hlt, he⟩ := List.getElem?_eq_some_iff.mp h
  have hslots : s.slots.set Config.console (some ep) = s.slots := he ▸ List.set_getElem_self hlt
  simp only [State.afterWrites, List.length_nil, List.drop_zero, List.append_nil]
  rw [hslots]

theorem afterWrites_append (s : State) (ep : Endpoint) (ops ops' : List DevOp) :
    (s.afterWrites ep ops).afterWrites { ep with writes := ep.writes.drop ops.length } ops' =
      s.afterWrites ep (ops ++ ops') := by
  simp [State.afterWrites, List.drop_drop]

theorem afterWrites_slot {s : State} {ep : Endpoint} (h : s.slots[Config.console]? = some (some ep))
    (ops : List DevOp) : (s.afterWrites ep ops).slots[Config.console]? =
      some (some { ep with writes := ep.writes.drop ops.length }) := by
  obtain ⟨hlt, -⟩ := List.getElem?_eq_some_iff.mp h
  exact List.getElem?_set_self hlt

theorem consoleAnswer_afterWrites (s : State) (ep : Endpoint) (ops : List DevOp) (i : Nat) :
    (s.afterWrites ep ops).consoleAnswer { ep with writes := ep.writes.drop ops.length } i =
      s.consoleAnswer ep (ops.length + i) := by
  simp [State.afterWrites, State.consoleAnswer, List.getElem?_drop, Nat.add_assoc]

/-- A `DevWriteChar` to the console gets the first of the answers that are to come (44_io R183). -/
theorem devWriteChar_console {s : State} {ep : Endpoint} (h : s.slots[Config.console]? = some (some ep))
    (c : Nat) : devWriteChar s Config.console c =
      (s.consoleAnswer ep 0, s.afterWrites ep [.writeChar Config.console c (s.consoleAnswer ep 0)]) := by
  have hanswer : writeAnswer s Config.console ep = s.consoleAnswer ep 0 := by
    unfold writeAnswer State.consoleAnswer
    rw [List.head?_eq_getElem?]
    rfl
  rw [devWriteChar_of_bound c (endpointOf_of_bound h), hanswer, ← List.drop_one]
  rfl

/-- The console has received the code `c`. -/
abbrev charSent (c : Nat) : DevOp := .writeChar Config.console c true

/-- Codes without an `END_CODE`, to an endpoint that answers `ok` to each, are all sent. -/
theorem sendCodes_of_ok {s : State} {ep : Endpoint} {cs : List Nat}
    (h : s.slots[Config.console]? = some (some ep)) (hend : Config.endCode ∉ cs)
    (hok : ∀ i, i < cs.length → s.consoleAnswer ep i = true) :
    sendCodes cs s = .more (s.afterWrites ep (cs.map charSent)) := by
  induction cs generalizing s ep with
  | nil => exact congrArg Sent.more (afterWrites_nil h).symm
  | cons c cs ih =>
    obtain ⟨hc, hcs⟩ := not_or.mp (mt List.mem_cons.mpr hend)
    have hfirst : s.consoleAnswer ep 0 = true := hok 0 (Nat.succ_pos _)
    rw [sendCodes, if_neg (Ne.symm hc), devWriteChar_console h, hfirst]
    refine (ih (afterWrites_slot h [charSent c]) hcs fun i hi => ?_).trans ?_
    · rw [consoleAnswer_afterWrites]
      exact hok _ (by simpa [Nat.add_comm] using hi)
    · exact congrArg Sent.more (afterWrites_append s ep [charSent c] (cs.map charSent))

/-- The first code that the endpoint answers `fail` is the last one handed to it. -/
theorem sendCodes_of_fail {s : State} {ep : Endpoint} {sent unsent : List Nat} {c : Nat}
    (h : s.slots[Config.console]? = some (some ep)) (hend : Config.endCode ∉ sent ++ c :: unsent)
    (hok : ∀ i, i < sent.length → s.consoleAnswer ep i = true)
    (hfail : s.consoleAnswer ep sent.length = false) :
    sendCodes (sent ++ c :: unsent) s =
      .failed (s.afterWrites ep (sent.map charSent ++ [.writeChar Config.console c false])) := by
  obtain ⟨hsent, hrest⟩ := not_or.mp (mt List.mem_append.mpr hend)
  have hc : c ≠ Config.endCode := fun e => hrest (e ▸ List.mem_cons_self)
  have hlast := consoleAnswer_afterWrites s ep (sent.map charSent) 0
  rw [Nat.add_zero, List.length_map, hfail] at hlast
  rw [sendCodes_append, sendCodes_of_ok h hsent hok]
  simp only [Sent.andThen, sendCodes]
  have hslot := afterWrites_slot h (sent.map charSent)
  rw [List.length_map] at hslot
  rw [if_neg hc, devWriteChar_console hslot, hlast, ← afterWrites_append, List.length_map]

/-- Whatever the endpoint answers, what it is handed are the first of the codes, in order. -/
theorem sendCodes_devOps (cs : List Nat) (s : State) : ∃ answers : List Bool, answers.length ≤ cs.length ∧
    (sendCodes cs s).state.devOps =
      s.devOps ++ List.zipWith (DevOp.writeChar Config.console) cs answers := by
  induction cs generalizing s with
  | nil => exact ⟨[], le_rfl, by simp [sendCodes, Sent.state]⟩
  | cons c cs ih =>
    rw [sendCodes]
    split_ifs
    · exact ⟨[], Nat.zero_le _, by simp [Sent.state]⟩
    cases hep : endpointOf s Config.console with
    | none =>
      refine ⟨[], Nat.zero_le _, ?_⟩
      simp [devWriteChar, hep, Sent.state]
    | some ep =>
      rw [devWriteChar_of_bound c hep]
      cases writeAnswer s Config.console ep with
      | false => exact ⟨[false], by simp, by simp [Sent.state]⟩
      | true =>
        obtain ⟨answers, hlen, hops⟩ :=
          ih (recordOp Config.console { ep with writes := ep.writes.tail } (charSent c) s)
        exact ⟨true :: answers, Nat.succ_le_succ hlen, hops.trans (by simp)⟩

/-- What is left to do after the codes performs no device operation. -/
theorem Sent.finish_devOps (met : Bool) (r : Sent) : (r.finish met).devOps = r.state.devOps := by
  cases r with
  | ended t => rfl
  | failed t => rfl
  | more t => cases met <;> rfl

/-! ### `PRT` -/

/-- Settles O50: all the codes of the text are sent, and `END_CODE` comes next. -/
theorem prtPrintsTheText : Obligations.PrtPrintsTheText := by
  intro addr s ep codes hslot htext hok
  rw [exec_prt_of_bound (endpointOf_of_bound hslot), printText_of_textFrom htext,
    sendCodes_of_ok hslot htext.endCode_notMem hok, Sent.finish, if_pos rfl, complete_eq_retiredTo,
    State.afterWrites, List.length_map]

/-- Settles O51: all the codes of the text are sent, and there is no Word next. -/
theorem prtPastMemoryFaults : Obligations.PrtPastMemoryFaults := by
  intro addr s ep codes hslot htext hok
  rw [exec_prt_of_bound (endpointOf_of_bound hslot), printText_of_textFrom htext,
    sendCodes_of_ok hslot htext.endCode_notMem hok, Sent.finish, if_neg Bool.false_ne_true,
    raiseExec_eq_faultedWith, State.afterWrites, List.length_map]

/-- Settles O52: the sending of the codes ends at the one that fails. -/
theorem prtEndpointFailureFaults : Obligations.PrtEndpointFailureFaults := by
  intro addr s ep sent unsent c met hslot htext hok hfail
  rw [exec_prt_of_bound (endpointOf_of_bound hslot), printText_of_textFrom htext,
    sendCodes_of_fail hslot htext.endCode_notMem hok hfail, Sent.finish, raiseExec_eq_faultedWith,
    State.afterWrites, List.length_append, List.length_map, ← List.append_assoc]
  rfl

/-- What `PRT` hands to the console, bound or not: the first codes of its text, in order. -/
theorem exec_prt_devOps {s : State} {addr : Nat} {codes : List Nat} {met : Bool}
    (h : TextFrom s.mem s.cfg.memWords addr codes met) :
    ∃ t, exec (.prt addr) s = .next t ∧ ∃ answers : List Bool, answers.length ≤ codes.length ∧
      t.devOps = s.devOps ++ List.zipWith (DevOp.writeChar Config.console) codes answers := by
  cases hep : endpointOf s Config.console with
  | none => exact ⟨_, exec_prt_of_unbound hep addr, [], Nat.zero_le _, by simp⟩
  | some ep =>
    obtain ⟨answers, hlen, hops⟩ := sendCodes_devOps codes s
    refine ⟨_, exec_prt_of_bound hep addr, answers, hlen, ?_⟩
    rw [printText_of_textFrom h, Sent.finish_devOps, hops]

/-- Settles O53: of the one text there is, which `TextFrom.length_le` bounds, `PRT` hands over the first codes. -/
theorem prtSendsABoundedText : Obligations.PrtSendsABoundedText := by
  intro addr s
  obtain ⟨codes, met, htext⟩ := TextFrom.exists s.mem s.cfg.memWords addr
  obtain ⟨t, ht, answers, hlen, hops⟩ := exec_prt_devOps htext
  refine ⟨t, ht, ?_, codes, met, answers, htext, fun codes' met' => htext.unique, hlen, hops⟩
  have hbound : codes.length ≤ 4 * (s.cfg.memWords - addr) := htext.length_le
  rw [hops, List.length_append, List.length_zipWith]
  omega

end Sys2Proof.Machine

/-! The statements of spec/60_exceptions.md: what a cycle that faults writes and leaves, that it repeats when it is
retried, and that Steps compute what a run computes. -/

namespace Sys2Proof.Machine

open Sys2Proof

/-! ### An operand past memory -/

/-- Settles O54: five of the instructions go on with the Word of their operand, two store there, and either is the
fault entry past memory (`raiseExec_eq_faultedWith`). -/
theorem operandPastMemoryFaults : Obligations.OperandPastMemoryFaults := by
  intro addr s h i hi
  simp only [List.mem_cons, List.not_mem_nil, or_false] at hi
  rcases hi with rfl | rfl | rfl | rfl | rfl | rfl | rfl
  · exact congrArg Host.Outcome.next (withOperand_of_ge h _)
  · exact congrArg Host.Outcome.next (withOperand_of_ge h _)
  · exact congrArg Host.Outcome.next (storeOperand_of_ge h _ _)
  · exact congrArg Host.Outcome.next (storeOperand_of_ge h _ _)
  · exact congrArg Host.Outcome.next (withOperand_of_ge h _)
  · exact congrArg Host.Outcome.next (withOperand_of_ge h _)
  · exact congrArg Host.Outcome.next (withOperand_of_ge h _)

/-! ### How a cycle faults -/

/-- An operation that ends in `FAULTED` has performed device operations and taken the fault entry, with a kind that
is none of the decoder's (30_encoding R75; 60_exceptions R207). -/
theorem OtherEnds.fault_of_faulted {halt : Bool} {s u : State} (h : OtherEnds halt s u) (hr : s.fsm = .running)
    (hf : u.fsm = .faulted) : ∃ kind t, kind ≠ .decodeFault ∧ DeviceOnly s t ∧ u = raiseExec kind t := by
  cases h with
  | @completed t target hE _ =>
    have hrun : t.fsm = .running := hE.fsm_eq.trans hr
    rw [completeAs_fsm, hrun] at hf
    split_ifs at hf
  | faulted kind hk hD => exact ⟨kind, _, hk, hD, rfl⟩

/-- The two ways in which a cycle ends in `FAULTED`: in FETCH, with no Word; or after it, past the device operations
performed by then, with the kind of the phase that faulted (60_exceptions R206, R207). -/
theorem CycleEnds.fault_cases {s u : State} (h : CycleEnds s u) (hr : s.fsm = .running) (hf : u.fsm = .faulted) :
    (s.cfg.memWords ≤ s.pc ∧ u = raise .addressFault none s) ∨
    (s.pc < s.cfg.memWords ∧ ∃ kind t, DeviceOnly (fetched s) t ∧ u = raiseExec kind t ∧
      (kind = .decodeFault ↔ ∃ why, decodeWith s.cfg.optable (s.mem.read s.pc) = .reject why)) := by
  cases h with
  | suspended why _ _ _ => cases hf
  | fetchFault _ hpc => exact .inl ⟨hpc, rfl⟩
  | decodeFault why _ hpc hd =>
    exact .inr ⟨hpc, .decodeFault, fetched s, .refl _, rfl, fun _ => ⟨why, hd⟩, fun _ => rfl⟩
  | executed i _ hpc hd _ hE =>
    obtain ⟨halt, hO⟩ := hE.otherEnds (wellFormed_of_decode hd)
    obtain ⟨kind, t, hk, hD, hu⟩ := hO.fault_of_faulted hr hf
    exact .inr ⟨hpc, kind, t, hD, hu, fun e => absurd e hk, by simp [hd]⟩
  | other n halt x _ hpc hd _ hO =>
    obtain ⟨kind, t, hk, hD, hu⟩ := hO.fault_of_faulted hr hf
    exact .inr ⟨hpc, kind, t, hD, hu, fun e => absurd e hk, by simp [hd]⟩

/-- Settles O19, by `CycleEnds.fault_cases`: the fault entry is taken from the state before FETCH, or from the
fetched one after device operations, and neither has advanced. -/
theorem faultEntryWritesTheRecord : Obligations.FaultEntryWritesTheRecord := by
  intro s s' rest hr hn h hf
  rcases (cycleEnds_of_step hr hn h).fault_cases hr hf with ⟨hpc, rfl⟩ | ⟨hpc, kind, t, hD, rfl, hk⟩
  · exact ⟨rfl, rfl, rfl, rfl, rfl, fun _ => ⟨rfl, rfl, rfl⟩, fun hlt => absurd hpc hlt.not_ge⟩
  · have hir : t.ir = s.mem.read s.pc := hD.ir_eq
    refine ⟨rfl, hD.pc_eq, hD.pc_eq, hD.icount_eq, hD.trace_eq, fun hge => absurd hpc hge.not_gt,
      fun _ => ⟨hir, congrArg some hir, ?_, ?_⟩⟩
    · rw [raiseExec_ir, hir]
      exact fun hwhy => congrArg some (hk.mpr hwhy)
    · rw [raiseExec_ir, hir]
      intro hno
      cases kind with
      | addressFault => exact .inl rfl
      | deviceFault => exact .inr rfl
      | decodeFault =>
        obtain ⟨why, hd⟩ := hk.mp rfl
        exact absurd hd (hno why)

/-- The fault entry after device operations changes, of the state before them, what they change and the record
(60_exceptions R208). -/
theorem DeviceOnly.raiseExec_frame {s t : State} (h : DeviceOnly s t) (kind : FaultKind) :
    raiseExec kind t =
      ({ s with slots := t.slots, devOps := t.devOps } : State).faultedWith kind (some s.ir) :=
  congrArg (raiseExec kind) h.rest

/-- A cycle performs no device operation unless its Word is `INP`, `OUT`, `PRT` or an operation outside the
reference set (44_io R190). -/
theorem CycleEnds.devices_eq {s u : State} (h : CycleEnds s u)
    (hother : ∀ n halt x, decodeWith s.cfg.optable (s.mem.read s.pc) ≠ .other n halt x)
    (hinstr : ∀ i, decodeWith s.cfg.optable (s.mem.read s.pc) = .instr i → i.operation ∉ [.inp, .out, .prt]) :
    u.slots = s.slots ∧ u.devOps = s.devOps := by
  cases h with
  | suspended => exact ⟨rfl, rfl⟩
  | fetchFault => exact ⟨rfl, rfl⟩
  | decodeFault => exact ⟨rfl, rfl⟩
  | executed i _ _ hd hu _ =>
    obtain ⟨v, hv, hw⟩ := exec_namedWrites i (fetched s)
    obtain rfl : u = v := Host.Outcome.next.inj (hu.symm.trans hv)
    exact hw.devices (hinstr i hd)
  | other n halt x _ _ hd => exact absurd hd (hother n halt x)

/-- Settles O20: the frame is that of the fault entry after device operations, and which operations perform those
is `CycleEnds.devices_eq`. -/
theorem faultsArePrecise : Obligations.FaultsArePrecise := by
  intro s s' rest hr hn h hf
  have hc := cycleEnds_of_step hr hn h
  refine and_assoc.mp ⟨?_, fun hother hinstr => hc.devices_eq hother fun i hi => ?_⟩
  · rcases hc.fault_cases hr hf with ⟨-, rfl⟩ | ⟨-, kind, t, hD, rfl, -⟩
    · exact ⟨rfl, List.prefix_rfl⟩
    · refine ⟨(hD.raiseExec_frame kind).trans ?_, hD.grows⟩
      simp only [raiseExec_ir, raiseExec_faultPc, raiseExec_faultWord, hD.ir_eq, hD.pc_eq]
      rfl
  · obtain ⟨hinp, hout, hprt⟩ := hinstr i hi
    simp [hinp, hout, hprt]

/-! ### The cycle reads the data alone -/

/-- Once CHECK has let it through, the cycle of a Word in memory is a function of the data: under any control state it
leaves the same data and ends in the same way (30_encoding R75; 40_dispatch_fsm R111). -/
theorem cycle_reads_only_data {s : State} (h : s.pc < s.cfg.memWords) :
    ∃ (e : CycleEnd) (t : State), ∀ c, check (ctl c s) = none →
      cycle (ctl c s) = .next (e.apply (ctl { c with ir := s.mem.read s.pc } t)) := by
  cases hd : decodeWith s.cfg.optable (s.mem.read s.pc) with
  | reject why => exact ⟨.fault .decodeFault, s, fun c hc => cycle_of_reject (s := ctl c s) hc h hd⟩
  | instr i =>
    obtain ⟨e, t, -, hctl⟩ := exec_reads_only_data i (fetched s)
    exact ⟨e, t, fun c hc => (cycle_of_instr (s := ctl c s) hc h hd).trans
      (hctl { c with ir := s.mem.read s.pc })⟩
  | other n halt x =>
    obtain ⟨e, t, -, hctl⟩ := execOther_reads_only_data n halt x (fetched s)
    exact ⟨e, t, fun c hc => (cycle_of_other (s := ctl c s) hc h hd).trans
      (congrArg _ (hctl { c with ir := s.mem.read s.pc }))⟩

theorem cycleEnds_of_cycle {s u : State} (h : cycle s = .next u) : CycleEnds s u := by
  obtain ⟨v, hv, hc⟩ := cycle_ends s
  exact Host.Outcome.next.inj (hv.symm.trans h) ▸ hc

/-- Only the fault entry leaves a running machine `FAULTED`. -/
theorem CycleEnd.eq_fault_of_faulted {e : CycleEnd} {t : State} (hr : t.fsm = .running)
    (h : (e.apply t).fsm = .faulted) : ∃ kind, e = .fault kind := by
  cases e with
  | done halt target =>
    rw [CycleEnd.apply, completeAs_fsm, hr] at h
    split_ifs at h
  | fault kind => exact ⟨kind, rfl⟩

/-- A machine runs on only after ADVANCE of an operation that is not the halt operation. -/
theorem CycleEnd.eq_done_of_running {e : CycleEnd} {t : State} (h : (e.apply t).fsm = .running) :
    ∃ target, e = .done false target := by
  cases e with
  | done halt target =>
    cases halt with
    | false => exact ⟨target, rfl⟩
    | true => cases h
  | fault kind => cases h

/-! ### A Step request and its cycle -/

/-- The state of the cycle that an accepted Step request starts, where the schedule goes on with `rest`
(40_dispatch_fsm R106). -/
def stepAccepted (rest : List (Option HostEvent)) (s : State) : State :=
  reply .done (stepRequest { s with host := rest })

/-- In `STEP` mode CHECK tests nothing (40_dispatch_fsm R112). -/
theorem check_stepAccepted (rest : List (Option HostEvent)) (s : State) :
    check (stepAccepted rest s) = none := rfl

theorem stepAccepted_ctl (rest : List (Option HostEvent)) (c s : State) :
    stepAccepted rest (ctl c s) = ctl (stepAccepted rest c) s := rfl

/-- A Step request that is accepted, and its one cycle, in a run (40_dispatch_fsm R106). -/
theorem run_of_step {s u : State} {l rest : List (Option HostEvent)} (hr : s.fsm ≠ .running) (hw : s.waiting = [])
    (hl : l = none :: rest ∨ (l = [] ∧ rest = [])) (hc : cycle (stepAccepted rest s) = .next u) (k : Nat) :
    Host.Core.run core (k + 2) { s with host := some .step :: l } = Host.Core.run core k u := by
  have htakes : ({ s with host := some .step :: l } : State).Takes .step l := ⟨rfl, .inr hw⟩
  have haccept : step { s with host := some .step :: l } = .next (stepAccepted l s) :=
    (step_of_takes htakes).trans (congrArg Host.Outcome.next (if_neg hr))
  have hcycle : step (stepAccepted l s) = .next u := (step_of_running rfl hl).trans hc
  rw [run_succ haccept, run_succ hcycle]

/-- With an empty schedule a step of a running machine is its cycle. -/
theorem step_of_host_nil {s : State} (hr : s.fsm = .running) (hh : s.host = []) : step s = cycle s := by
  rw [step_of_running hr (.inr ⟨hh, rfl⟩), ← hh]

/-! ### A fault repeats -/

/-- A cycle that faults leaves the data as it was, but for the devices (60_exceptions R208). -/
theorem CycleEnds.ctl_of_faulted {s u : State} (h : CycleEnds s u) (hr : s.fsm = .running) (hf : u.fsm = .faulted) :
    ctl u s = { u with slots := s.slots, devOps := s.devOps } := by
  rcases h.fault_cases hr hf with ⟨-, rfl⟩ | ⟨-, kind, t, hD, rfl, -⟩
  · rfl
  · rw [hD.raiseExec_frame]
    rfl

/-- A cycle that faults with no device operation performed has left the devices alone. -/
theorem CycleEnds.slots_of_faulted {s u : State} (h : CycleEnds s u) (hr : s.fsm = .running) (hf : u.fsm = .faulted)
    (hops : u.devOps = s.devOps) : u.slots = s.slots := by
  rcases h.fault_cases hr hf with ⟨-, rfl⟩ | ⟨-, kind, t, hD, rfl, -⟩
  · rfl
  · exact hD.quiet hops

/-- The cycle of an accepted Step on the data that a cycle faulted on faults in the same way (60_exceptions R209). -/
theorem cycle_stepAccepted_of_faulted {s s' : State} (hr : s.fsm = .running) (hcheck : check s = none)
    (hh : s.host = []) (hhalt : s.haltAddr = 0) (h : cycle s = .next s') (hf : s'.fsm = .faulted) :
    cycle (stepAccepted [] (ctl s' s)) = .next { s' with mode := .step, replies := s'.replies ++ [.done] } := by
  rcases Nat.lt_or_ge s.pc s.cfg.memWords with hpc | hpc
  · obtain ⟨e, t, hctl⟩ := cycle_reads_only_data hpc
    have hs' := Host.Outcome.next.inj (h.symm.trans (hctl s hcheck))
    obtain ⟨kind, rfl⟩ :=
      CycleEnd.eq_fault_of_faulted (t := ctl { s with ir := s.mem.read s.pc } t) hr (hs' ▸ hf)
    rw [stepAccepted_ctl, hctl (stepAccepted [] s') rfl, hs']
    simp [CycleEnd.apply, raiseExec, raise, ctl, stepAccepted, reply, stepRequest, clearRecords, hhalt, hh]
  · have hs' := Host.Outcome.next.inj (h.symm.trans (cycle_of_fetch_past hcheck hpc))
    rw [cycle_of_fetch_past (s := stepAccepted [] (ctl s' s)) rfl hpc, hs']
    simp [raise, ctl, stepAccepted, reply, stepRequest, clearRecords, hhalt, hh]

/-- The cycle of a `PRT` whose text runs past memory, each code of it answered `ok` (44_io R187; 60_exceptions
R200 (d)). -/
theorem cycle_of_prt_past {s : State} {addr : Nat} {ep : Endpoint} {codes : List Nat} (hcheck : check s = none)
    (hpc : s.pc < s.cfg.memWords) (hd : decodeWith s.cfg.optable (s.mem.read s.pc) = .instr (.prt addr))
    (hslot : s.slots[Config.console]? = some (some ep)) (htext : TextFrom s.mem s.cfg.memWords addr codes false)
    (hok : ∀ i, i < codes.length → s.consoleAnswer ep i = true) :
    cycle s = .next (((fetched s).afterWrites ep (codes.map charSent)).faultedWith .addressFault
      (some (s.mem.read s.pc))) := by
  rw [cycle_of_instr hcheck hpc hd, prtPastMemoryFaults addr (fetched s) ep codes hslot htext hok, State.afterWrites,
    List.length_map]
  rfl

theorem consoleAnswer_congr {s t : State} (h : t.devOps = s.devOps) (ep : Endpoint) (i : Nat) :
    t.consoleAnswer ep i = s.consoleAnswer ep i := by
  unfold State.consoleAnswer
  rw [h]

/-- The cycle of an accepted Step after that fault: the endpoint answers `ok` again, and the text is sent once more
(60_exceptions R209). -/
theorem cycle_stepAccepted_of_prt_past {s s' : State} {addr : Nat} {ep : Endpoint} {codes : List Nat}
    (hh : s.host = []) (hhalt : s.haltAddr = 0) (hpc : s.pc < s.cfg.memWords)
    (hd : decodeWith s.cfg.optable (s.mem.read s.pc) = .instr (.prt addr))
    (hslot : s.slots[Config.console]? = some (some ep)) (htext : TextFrom s.mem s.cfg.memWords addr codes false)
    (hok : ∀ i, i < 2 * codes.length → s.consoleAnswer ep i = true)
    (hs' : s' = ((fetched s).afterWrites ep (codes.map charSent)).faultedWith .addressFault
      (some (s.mem.read s.pc))) :
    cycle (stepAccepted [] s') = .next { s' with
      mode := .step, replies := s'.replies ++ [.done]
      slots := s.slots.set Config.console (some { ep with writes := ep.writes.drop (2 * codes.length) })
      devOps := s'.devOps ++ codes.map charSent } := by
  obtain ⟨hcfg, hmem, hpcEq, hslots, hops⟩ :
      (stepAccepted [] s').cfg = s.cfg ∧ (stepAccepted [] s').mem = s.mem ∧ (stepAccepted [] s').pc = s.pc ∧
      (stepAccepted [] s').slots = (s.afterWrites ep (codes.map charSent)).slots ∧
      (stepAccepted [] s').devOps = (s.afterWrites ep (codes.map charSent)).devOps := by
    simp only [hs', stepAccepted, reply, stepRequest, clearRecords, State.faultedWith, State.afterWrites, fetched,
      and_self]
  have hslot' : (stepAccepted [] s').slots[Config.console]? =
      some (some { ep with writes := ep.writes.drop (codes.map charSent).length }) := by
    rw [hslots]
    exact afterWrites_slot hslot _
  have hok' : ∀ i, i < codes.length → (stepAccepted [] s').consoleAnswer
      { ep with writes := ep.writes.drop (codes.map charSent).length } i = true := fun i hi => by
    rw [consoleAnswer_congr hops, consoleAnswer_afterWrites, List.length_map]
    exact hok _ (by omega)
  rw [← hcfg, ← hpcEq] at hpc
  rw [← hcfg, ← hpcEq, ← hmem] at hd
  rw [← hcfg, ← hmem] at htext
  rw [cycle_of_prt_past (check_stepAccepted [] s') hpc hd hslot' htext hok', hs']
  simp [State.afterWrites, State.faultedWith, fetched, stepAccepted, reply, stepRequest, clearRecords, hhalt, hh,
    List.drop_drop, two_mul]

/-- Settles O36: the Step's cycle starts from the data of the cycle that faulted, if that performed no device
operation or the devices are put back, and `cycle_stepAccepted_of_faulted` says how it ends. The `PRT` past memory
sends its text again to what is left of the script. -/
theorem retriedFaultRepeats : Obligations.RetriedFaultRepeats := by
  intro s s' hr hu hh hw hhalt hstep hf
  have hcheck : check s = none := check_of_unchecked hu
  have hframe := (faultsArePrecise s s' [] hr (.inr ⟨hh, rfl⟩) hstep hf).1
  have hw' : s'.waiting = [] := (congrArg State.waiting hframe).trans hw
  have hr' : s'.fsm ≠ .running := by rw [hf]; decide
  have h : cycle s = .next s' := (step_of_host_nil hr hh).symm.trans hstep
  have hc : CycleEnds s s' := cycleEnds_of_cycle h
  have hback := cycle_stepAccepted_of_faulted hr hcheck hh hhalt h hf
  rw [hc.ctl_of_faulted hr hf] at hback
  refine ⟨fun hops => ?_, ?_, fun addr ep codes hpc hd hslot htext hok => ?_⟩
  · rw [← hops, ← hc.slots_of_faulted hr hf hops] at hback
    exact run_of_step hr' hw' (.inr ⟨rfl, rfl⟩) hback 0
  · exact run_of_step (s := { s' with slots := s.slots, devOps := s.devOps }) hr' hw' (.inr ⟨rfl, rfl⟩) hback 0
  · have hfirst := cycle_of_prt_past hcheck hpc hd hslot htext fun i hi => hok i (by omega)
    exact run_of_step hr' hw' (.inr ⟨rfl, rfl⟩) (cycle_stepAccepted_of_prt_past hh hhalt hpc hd hslot htext hok
      (Host.Outcome.next.inj (h.symm.trans hfirst))) 0

/-! ### Steps compute what a run computes -/

/-- `s` runs with no request to come, none waiting, and no halt or fault on record: nothing but its own cycles
can change it (40_dispatch_fsm R111; 10_state R42). -/
structure RunsAlone (s : State) : Prop where
  fsm : s.fsm = .running
  mode : s.mode = .run
  host : s.host = []
  waiting : s.waiting = []
  haltAddr : s.haltAddr = 0
  faultKind : s.faultKind = none
  faultPc : s.faultPc = 0
  faultWord : s.faultWord = none

/-- `s` between two Steps instead of in a run, with the schedule `host` to come and the answers `replies` given. -/
def steppedTo (s : State) (host : List (Option HostEvent)) (replies : List HostReply) : State :=
  { s with fsm := .ready, mode := .step, stop := .stepDone, host := host, replies := replies }

/-- A cycle that leaves the machine running has passed CHECK and FETCH. -/
theorem CycleEnds.fetches_of_running {s u : State} (h : CycleEnds s u) (hr : u.fsm = .running) :
    check s = none ∧ s.pc < s.cfg.memWords := by
  cases h with
  | suspended => cases hr
  | fetchFault => cases hr
  | decodeFault => cases hr
  | executed i hc hpc => exact ⟨hc, hpc⟩
  | other n halt x hc hpc => exact ⟨hc, hpc⟩

/-- The cycle of an accepted Step starts from the data of the run, with the records as the run has them. -/
theorem RunsAlone.stepAccepted_eq {s : State} (h : RunsAlone s) (l rest : List (Option HostEvent))
    (replies : List HostReply) : stepAccepted rest (steppedTo s l replies) =
      ctl { s with mode := .step, stop := .none, host := rest, replies := replies ++ [.done] } s := by
  simp [stepAccepted, reply, stepRequest, clearRecords, steppedTo, ctl, h.fsm, h.haltAddr, h.faultKind, h.faultPc,
    h.faultWord]

/-- One cycle of a run that goes on, and the cycle of an accepted Step, leave the same but for `MODE`, `STATE`, `STOP`
and the answers (60_exceptions R217). -/
theorem RunsAlone.cycle_stepAccepted {s t : State} (h : RunsAlone s) (ht : cycle s = .next t)
    (hr : t.fsm = .running) :
    RunsAlone t ∧ ∀ l rest replies,
      cycle (stepAccepted rest (steppedTo s l replies)) = .next (steppedTo t rest (replies ++ [.done])) := by
  obtain ⟨hcheck, hpc⟩ := (cycleEnds_of_cycle ht).fetches_of_running hr
  obtain ⟨e, v, hctl⟩ := cycle_reads_only_data hpc
  have hrun := Host.Outcome.next.inj (ht.symm.trans (hctl s hcheck))
  obtain ⟨target, rfl⟩ := CycleEnd.eq_done_of_running (hrun ▸ hr)
  refine ⟨?_, fun l rest replies => ?_⟩
  · subst hrun
    exact ⟨hr, h.mode, h.host, h.waiting, h.haltAddr, h.faultKind, h.faultPc, h.faultWord⟩
  · rw [h.stepAccepted_eq, hctl _ rfl, hrun]
    rfl

/-- A run with no request to come stays where it has ended. -/
theorem run_of_idle {s : State} (hr : s.fsm ≠ .running) (hw : s.waiting = []) (hh : s.host = []) (n : Nat) :
    Host.Core.run core n s = .next s := by
  have hstep : step s = .next s := (step_of_idle hr hw (.inr ⟨hh, rfl⟩)).trans (by rw [← hh])
  induction n with
  | zero => rfl
  | succ n ih => rw [run_succ hstep, ih]

/-- A cycle takes no request and serves none. -/
theorem CycleEnds.host_waiting_eq {s u : State} (h : CycleEnds s u) : u.host = s.host ∧ u.waiting = s.waiting := by
  rcases h.cases_operation with ⟨why, -, rfl⟩ | ⟨-, rfl⟩ | rfl | ⟨-, halt, hO⟩
  · exact ⟨rfl, rfl⟩
  · exact ⟨rfl, rfl⟩
  · exact ⟨rfl, rfl⟩
  · cases hO with
    | completed target hE _ =>
      rw [completeAs_host, completeAs_waiting]
      exact ⟨hE.host_eq, hE.waiting_eq⟩
    | faulted kind _ hD => exact ⟨hD.host_eq, hD.waiting_eq⟩

/-- A run that is still running has been running after its first cycle. -/
theorem RunsAlone.run_succ_running {s s' : State} (h : RunsAlone s) {n : Nat}
    (hrun : Host.Core.run core (n + 1) s = .next s') (hr : s'.fsm = .running) :
    ∃ t, cycle s = .next t ∧ t.fsm = .running ∧ Host.Core.run core n t = .next s' := by
  obtain ⟨t, ht, hc⟩ := cycle_ends s
  obtain ⟨hhost, hwaiting⟩ := hc.host_waiting_eq
  rw [run_succ ((step_of_host_nil h.fsm h.host).trans ht)] at hrun
  refine ⟨t, ht, by_contra fun hne => ?_, hrun⟩
  rw [run_of_idle hne (hwaiting.trans h.waiting) (hhost.trans h.host)] at hrun
  exact hne (Host.Outcome.next.inj hrun ▸ hr)

/-- `n` Step requests, each followed by a boundary with no request, where its cycle is. -/
abbrev stepRequests (n : Nat) : List (Option HostEvent) := (List.replicate n [some HostEvent.step, none]).flatten

/-- The simulation: `n` Steps and their cycles go beside `n` cycles of a run (60_exceptions R217). -/
theorem RunsAlone.run_steppedTo {s s' : State} (h : RunsAlone s) {n : Nat}
    (hrun : Host.Core.run core n s = .next s') (hr : s'.fsm = .running) (replies : List HostReply) :
    RunsAlone s' ∧ Host.Core.run core (2 * n) (steppedTo s (stepRequests n) replies) =
      .next (steppedTo s' [] (replies ++ List.replicate n .done)) := by
  induction n generalizing s replies with
  | zero =>
    obtain rfl := Host.Outcome.next.inj hrun
    exact ⟨h, by rw [List.replicate_zero, List.append_nil]; rfl⟩
  | succ n ih =>
    obtain ⟨t, ht, htr, hrest⟩ := h.run_succ_running hrun hr
    obtain ⟨hrt, hcyc⟩ := h.cycle_stepAccepted ht htr
    obtain ⟨hs', hsteps⟩ := ih hrt hrest (replies ++ [.done])
    refine ⟨hs', ?_⟩
    have hfirst := run_of_step (s := steppedTo s [] replies) (by simp [steppedTo]) h.waiting (.inl rfl)
      (hcyc [] (stepRequests n) replies) (2 * n)
    rw [List.append_assoc, List.singleton_append, ← List.replicate_succ] at hsteps
    exact hfirst.trans hsteps

/-- Settles O35, by `RunsAlone.run_steppedTo`: in `RUNNING` the records that agree with `STATE` are cleared. -/
theorem steppingComputesWhatARunComputes : Obligations.SteppingComputesWhatARunComputes := by
  intro n s s' hr hm hh hw hhalt hfault hrun hr'
  simp only [State.HaltRecordAgrees, State.FaultRecordAgrees, hr, reduceCtorEq, if_false] at hhalt hfault
  obtain ⟨hk, hp, hword⟩ := hfault
  have hs : RunsAlone s := ⟨hr, hm, hh, hw, hhalt, hk, hp, hword⟩
  obtain ⟨hs', hsteps⟩ := hs.run_steppedTo hrun hr' s.replies
  refine hsteps.trans ?_
  rw [steppedTo, ← hs'.host]

end Sys2Proof.Machine
